-- ==== Sys2Proof/Word.lean ====
section
/-! DEFINITION. The words of the block (00_scope.md R4, R9): bytes, 16-bit bus addresses, 32-bit program-memory
offsets, 14-bit window offsets; the two external-bus spaces; and the host's access, which is the only form a
command comes in (30_encoding.md R90). -/

namespace Sys2Proof

/-- A byte (BUS_DATA_W = 8, R4). -/
abbrev Byte := BitVec 8

/-- A 16-bit value: a bus address (BUS_ADDR_W = 16, R4), an NVM address, a word of WBUF. -/
abbrev Half := BitVec 16

/-- A 32-bit program-memory byte offset (R26). -/
abbrev Word := BitVec 32

/-- An offset in the host's register window (R90: 0x0000 to 0x3FFF). -/
abbrev Off := BitVec 14

/-- The external processor's two addressing domains (R97). -/
inductive Space where
  | memory
  | io
  deriving DecidableEq, Repr, Inhabited

/-- A byte access of the host to the register window (R90). -/
inductive Access where
  | write (off : Off) (v : Byte)
  | read (off : Off)
  deriving DecidableEq, Repr, Inhabited

end Sys2Proof
end

