-- ==== Sys2Proof/Config.lean ====
section
/-! DEFINITION. What an implementation fixes (the parameters of 00_scope.md R4, held in the state's `cfg`, log 6) and the
free values (log 9): constants without a body, so that no proof can see what they are. -/

namespace Sys2Proof

/-- POL (R4, R5): for each pin of R34 and R35, whether it is active high; the eight lines of AH, of AL and of D share
one polarity (log 13). DDIR is internal and has none. No rule depends on it. -/
structure Polarity where
  ah : Bool
  al : Bool
  d : Bool
  rd : Bool
  wr : Bool
  selm : Bool
  seli : Bool
  aux : Bool
  nmi : Bool
  cs : Bool
  sck : Bool
  mosi : Bool
  miso : Bool
  deriving DecidableEq, Repr

/-- XDEV_ADDRS (R4, R75, R257): where the named devices sit on the external bus. The block knows none of them. -/
structure XDevAddrs where
  outSel0 : Half
  outSel1 : Half
  inSel0 : Half
  inSel1 : Half
  uartStatus : Half
  uartData : Half
  deriving DecidableEq, Repr

/-- The parameters of R4. BUS_ADDR_W, BUS_DATA_W and NVM_PAGE_SIZE are fixed and stand in the types. -/
structure Config where
  /-- READ_HOLD_CYCLES -/
  readHold : Nat
  /-- WRITE_HOLD_CYCLES -/
  writeHold : Nat
  /-- SEL_IDLE: the idle levels of (SELM, SELI) -/
  selIdle : Bool × Bool
  pol : Polarity
  nvmCapacity : Nat
  nvmDummy : Byte
  nvmWriteCycle : Bool
  /-- NVM_CHIP_PAGE: 0 means no page limit -/
  nvmChipPage : Nat
  /-- SER_MODE: the clock's idle level and its sampling phase -/
  serIdleHigh : Bool
  serSecondEdge : Bool
  serMsbFirst : Bool
  serClock : Nat
  pmPageSize : Nat
  pmSize : Nat
  resBase : Nat
  resSize : Nat
  blockBase : Nat
  xdev : XDevAddrs
  deriving DecidableEq, Repr

/-- The parameter set of 95_test_vectors.md; what that table leaves open is zero or false (log 6). -/
def Config.reference : Config where
  readHold := 2
  writeHold := 1
  selIdle := (false, false)
  pol :=
    { ah := true, al := true, d := true, rd := true, wr := true, selm := true, seli := true, aux := true
      nmi := true, cs := true, sck := true, mosi := true, miso := true }
  nvmCapacity := 32768
  nvmDummy := 0xFF
  nvmWriteCycle := false
  nvmChipPage := 0
  serIdleHigh := false
  serSecondEdge := false
  serMsbFirst := false
  serClock := 0
  pmPageSize := 256
  pmSize := 0x8000
  resBase := 0x7000
  resSize := 0x1000
  blockBase := 0
  xdev := ⟨0, 0, 0, 0, 0, 0⟩

/-- The host's interrupt sources the source names (60_exceptions.md R250). -/
inductive IrqSource where
  | timer
  | uart
  deriving DecidableEq, Repr, Inhabited

/-- The agent that moves next (R3, R252), with what the environment's step brings. -/
inductive Turn where
  /-- HOST performs its next statement -/
  | host
  /-- SEQ steps the active unit -/
  | seq
  /-- XBUS drives the NMI line to a level (41_bus_engine.md R129) -/
  | xbusNmi (level : Bool)
  /-- an interrupt request arrives at the host (43_flash_sequencer.md R217) -/
  | irq (src : IrqSource)
  /-- NVMCHIP ends its write cycle (42_nvm_controller.md R187) -/
  | nvmChip
  /-- FLASH completes the pending operation (43_flash_sequencer.md R214) -/
  | flash
  /-- RESET (70_reset_and_hazards.md R270) -/
  | reset
  deriving DecidableEq, Repr, Inhabited

/-- Byte `k` of the free draw numbered `d` (log 9): every "unspecified" or "any value" byte of the spec. -/
opaque Config.freeByte (d k : Nat) : Byte

/-- Bit `k` of the free draw numbered `d` (log 9). -/
opaque Config.freeBit (d k : Nat) : Bool

/-- The cells the NVM chip may write where no source says what it does (R174, R187, R188; log 14). -/
opaque Config.freeCells (d : Nat) : List (Nat × Byte)

/-- The agent that moves when no turn is listed (R252: "in any order"; log 2). -/
opaque Config.freeTurn (d : Nat) : Turn

end Sys2Proof
end

