-- ==== Sys2Proof/Syntax.lean ====
section
/-! DEFINITION. The instructions: one constructor per row of spec/opcode_table.json (30_encoding.md R96, 41_bus_engine.md
R129). A command carries bit 4 of its CMD byte: the space for the bus commands (R97), a don't-care bit for the others
(R100), which the CMD register still stores (R21; 95_test_vectors.md E5). -/

namespace Sys2Proof

inductive Instr where
  /-- BUS_WR, R122 -/
  | busWr (space : Space)
  /-- BUS_RD, R123 -/
  | busRd (space : Space)
  /-- NVM_WREN, R164 -/
  | nvmWren (bit4 : Bool)
  /-- NVM_WRBYTE, R165 -/
  | nvmWrByte (bit4 : Bool)
  /-- NVM_RDBYTE, R166 -/
  | nvmRdByte (bit4 : Bool)
  /-- NVM_WRPAGE, R167 -/
  | nvmWrPage (bit4 : Bool)
  /-- NVM_RDPAGE, R168 -/
  | nvmRdPage (bit4 : Bool)
  /-- STO_WRITE, R169 -/
  | stoWrite (bit4 : Bool)
  /-- STO_READ, R170 -/
  | stoRead (bit4 : Bool)
  /-- FLASH_PROG, R201 -/
  | flashProg (bit4 : Bool)
  /-- GETNMI, R129: a host read of STATUS -/
  | getNmi
  deriving DecidableEq, Repr, Inhabited

end Sys2Proof
end

