-- ==== Sys2Proof/WellFormed.lean ====
section
/-! DEFINITION. What must hold before the rules do. Every term of `Instr` is encodable (its operands are typed), so
there is nothing to check on an instruction; what has checks is the parameter set (00_scope.md R6, R4: a set that breaks
one is refused by the model) and a frame on the serial link (42_nvm_controller.md R162, R163, R181, R183). -/

namespace Sys2Proof

/-- R6: NVM_CAPACITY is a multiple of 256 from 256 to 65536. -/
def Config.capacityOk (c : Config) : Bool :=
  c.nvmCapacity % 256 == 0 && decide (256 ≤ c.nvmCapacity) && decide (c.nvmCapacity ≤ 65536)

/-- R6: PM_PAGE_SIZE = 2^k for some k in 1..13. -/
def Config.pageSizeOk (c : Config) : Bool :=
  (List.range 13).any fun k => c.pmPageSize == 2 ^ (k + 1)

/-- R6 and R4: PM_SIZE is a multiple of PM_PAGE_SIZE, at most 2^32. -/
def Config.pmSizeOk (c : Config) : Bool :=
  c.pmSize % c.pmPageSize == 0 && decide (c.pmSize ≤ 2 ^ 32)

/-- R6: the resident region is made of whole pages inside [0, PM_SIZE). -/
def Config.residentOk (c : Config) : Bool :=
  c.resBase % c.pmPageSize == 0 && c.resSize % c.pmPageSize == 0 && decide (c.resBase + c.resSize ≤ c.pmSize)

/-- R6: both hold counts are at least 1. -/
def Config.holdsOk (c : Config) : Bool :=
  decide (1 ≤ c.readHold) && decide (1 ≤ c.writeHold)

/-- R6: the parameter set is one the model accepts. -/
def Config.ok (c : Config) : Bool :=
  c.capacityOk && c.pageSizeOk && c.pmSizeOk && c.residentOk && c.holdsOk

/-- The frames the NVC sends and the chip model knows: first byte 0x06, 0x03 or 0x02, a write frame with its two
address bytes and at least one data byte (R163, R181, R183). A read frame has its two address bytes. -/
def wireFrameOk (t : List Byte) : Bool :=
  match t with
  | [] => false
  | op :: rest =>
    if op == 0x06 then true
    else if op == 0x03 then decide (2 ≤ rest.length)
    else if op == 0x02 then decide (3 ≤ rest.length)
    else false

end Sys2Proof
end

