-- ==== Sys2Proof/Decode.lean ====
section
/-! DEFINITION. From a host access to the instruction it is, or the named reason why it is none (30_encoding.md R95 to
R101), and back. Total on any access. -/

namespace Sys2Proof

/-- Why an access is no instruction. `reservedBits`, `reservedOp`: an illegal CMD byte (R99). `notACommand`: an access
that neither writes CMD nor reads STATUS (R91). -/
inductive Reject where
  | reservedBits
  | reservedOp
  | notACommand
  deriving DecidableEq, Repr

/-- OP = CMD[3:0] (R95). -/
def cmdOp (v : Byte) : BitVec 4 := v.extractLsb' 0 4

/-- SP = CMD[4] (R95). -/
def cmdSp (v : Byte) : Bool := v.getLsbD 4

/-- RSV = CMD[7:5] (R95). -/
def cmdRsv (v : Byte) : BitVec 3 := v.extractLsb' 5 3

/-- R97: SP = 0 is Memory, SP = 1 is IO. -/
def spaceOf (sp : Bool) : Space := if sp then .io else .memory

/-- R97 the other way. -/
def spBit (sp : Space) : Bool :=
  match sp with
  | .memory => false
  | .io => true

/-- The offset of CMD (R91). -/
def offCmd : Off := 0x0000

/-- The offset of STATUS (R91). -/
def offStatus : Off := 0x0001

/-- The opcode map of R96 on a CMD byte; RSV must be 000 (R99). -/
def decodeCmd (v : Byte) : Except Reject Instr :=
  if cmdRsv v ≠ 0 then .error .reservedBits
  else
    match (cmdOp v).toNat with
    | 0x1 => .ok (.busWr (spaceOf (cmdSp v)))
    | 0x2 => .ok (.busRd (spaceOf (cmdSp v)))
    | 0x4 => .ok (.nvmWren (cmdSp v))
    | 0x5 => .ok (.nvmWrByte (cmdSp v))
    | 0x6 => .ok (.nvmRdByte (cmdSp v))
    | 0x7 => .ok (.nvmWrPage (cmdSp v))
    | 0x8 => .ok (.nvmRdPage (cmdSp v))
    | 0x9 => .ok (.stoWrite (cmdSp v))
    | 0xA => .ok (.stoRead (cmdSp v))
    | 0xB => .ok (.flashProg (cmdSp v))
    | _ => .error .reservedOp

/-- A host access as an instruction: a write of CMD (R95), or a read of STATUS (R129). -/
def decode (a : Access) : Except Reject Instr :=
  match a with
  | .write off v => if off = offCmd then decodeCmd v else .error .notACommand
  | .read off => if off = offStatus then .ok .getNmi else .error .notACommand

/-- The CMD byte with RSV = 000 (R95). -/
def cmdByte (op : BitVec 4) (bit4 : Bool) : Byte := (0#3 ++ BitVec.ofBool bit4 ++ op).cast rfl

/-- The CMD byte of a command (R96); GETNMI has none, and the byte given for it is never written. -/
def encodeCmd (i : Instr) : Byte :=
  match i with
  | .busWr sp => cmdByte 0x1 (spBit sp)
  | .busRd sp => cmdByte 0x2 (spBit sp)
  | .nvmWren b => cmdByte 0x4 b
  | .nvmWrByte b => cmdByte 0x5 b
  | .nvmRdByte b => cmdByte 0x6 b
  | .nvmWrPage b => cmdByte 0x7 b
  | .nvmRdPage b => cmdByte 0x8 b
  | .stoWrite b => cmdByte 0x9 b
  | .stoRead b => cmdByte 0xA b
  | .flashProg b => cmdByte 0xB b
  | .getNmi => 0

/-- The host access that is the instruction (R95, R129). -/
def encode (i : Instr) : Access :=
  match i with
  | .getNmi => .read offStatus
  | .busWr _ | .busRd _ | .nvmWren _ | .nvmWrByte _ | .nvmRdByte _ | .nvmWrPage _ | .nvmRdPage _ | .stoWrite _
  | .stoRead _ | .flashProg _ => .write offCmd (encodeCmd i)

/-- The access a row of spec/opcode_table.json stands for: the byte is written to CMD, but the row GETNMI (match 0x20,
mask 0x20) is "not a command" but a STATUS read, and no CMD byte with bit 5 set is a command (R99); log 4. -/
def tableAccess (w : Nat) : Access :=
  if (BitVec.ofNat 8 w).getLsbD 5 then .read offStatus else .write offCmd (BitVec.ofNat 8 w)

/-- What the decoder reads from an opcode-table word; every row is one byte (R101). -/
def decodeTableWord (nbits w : Nat) : Option Instr :=
  if nbits ≤ 8 ∧ w < 256 then
    match decode (tableAccess w) with
    | .ok i => some i
    | .error _ => none
  else none

end Sys2Proof
end

