-- ==== Sys2Proof/Machine/State.lean ====
section
/-! DEFINITION. The machine's state as plain data (10_state.md), the reasons a step can stop, and the state right after
power-on reset (10_state.md R46). -/

namespace Sys2Proof.Machine

/-- Sparse storage: (address, value) pairs, addresses rising, no entry 0; an unlisted address reads 0 (log 8). -/
abbrev Cells (w : Nat) := List (Nat × BitVec w)

/-- A memory of bytes: pairs as `Host.Cell`. -/
abbrev Memory := Cells 8

/-- The direction of a bus transaction (R121). -/
inductive Dir where
  | write
  | read
  deriving DecidableEq, Repr

/-- The phases of a bus transaction (R121). -/
inductive BtePhase where
  | b1 | b2 | b3 | b4 | b5 | b6 | b7 | b8 | b9a | b9b | b9c
  deriving DecidableEq, Repr

/-- The phases of an NVM command (R162): N_CS, N_X, N_DS, N_GAP, and the wrapper's no-op (R169, R170). -/
inductive NvcPhase where
  | cs | x | ds | gap | noop
  deriving DecidableEq, Repr

/-- The phases of FLASH_PROG (R202). -/
inductive FrsPhase where
  | f1 | f2 | f3 | f4 | f5 | f6 | f7 | f8 | f9
  deriving DecidableEq, Repr

/-- What an NVM command keeps of the chip's responses (R171): nothing, r3 in RDATA (R166), r3.. in NBUF (R168). -/
inductive Capture where
  | discard
  | rdata
  | nbuf
  deriving DecidableEq, Repr

/-- UNIT (R40). -/
inductive UnitName where
  | none | bte | nvc | frs
  deriving DecidableEq, Repr

/-- The pair (UNIT, PHASE) of R40; the phase is the next one SEQ performs (log 5). A bus transaction carries its
direction and space (R104). -/
inductive Activity where
  | idle
  | bte (dir : Dir) (space : Space) (phase : BtePhase)
  | nvc (capture : Capture) (phase : NvcPhase)
  | frs (phase : FrsPhase)
  deriving DecidableEq, Repr

/-- The protocol violations (R242). -/
inductive Violation where
  | illegalCmd
  | overlap
  | flashAlign
  | flashRange
  | flashRegion
  deriving DecidableEq, Repr

/-- The model faults that FAULTS records while the hardware goes on (R247). None of them stops the model. -/
inductive ModelFault where
  | violation (v : Violation)
  | nvmRange
  | nvmChipBusy
  | nvmChipPage
  | appAccess
  | gieWrite
  | hostWidth
  deriving DecidableEq, Repr

/-- The operation the FLASH agent has pending on a page (R214). -/
inductive FlashOp where
  | erase (page : Nat)
  | write (page : Nat)
  deriving DecidableEq, Repr

/-- An entry of HIST (R44). `pmRead` and `pmFetch` are the model's own, so that what the host reads from program memory
is said somewhere (log 21). -/
inductive Event where
  | bus (dir : Dir) (space : Space) (addr : Half) (data : Byte)
  | frame (sent got : List Byte)
  | flashErase (page : Nat)
  | flashWrite (page : Nat) (words : List Half)
  | flashDone (op : FlashOp)
  | hostWrite (off : Off) (v : Byte)
  | hostRead (off : Off) (v : Byte)
  | pmRead (addr : Word) (v : Byte)
  | pmFetch (addr : Word) (v : Byte)
  deriving DecidableEq, Repr

/-- One statement of the host (R106), or something else it may do to the block (log 3). -/
inductive HostStmt where
  /-- `wr OFF, IMM` -/
  | wr (off : Off) (v : Byte)
  /-- `rd OFF -> name`; the value read stands in HIST (log 33) -/
  | rd (off : Off)
  /-- `wait`: read STATUS until bit 0 is 0 -/
  | wait
  /-- `sei` -/
  | sei
  /-- `cli` -/
  | cli
  /-- a data read of a program-memory byte (R215) -/
  | pmRead (addr : Word)
  /-- an instruction fetch from program memory (R215) -/
  | pmFetch (addr : Word)
  /-- a window access of another width than a byte (R65) -/
  | wide (off : Off)
  /-- the host takes a pending interrupt, if GIE lets it (R36, R217) -/
  | takeIrq (src : IrqSource)
  deriving DecidableEq, Repr

/-- What answers a bus read (R134): the listed bytes in order, and a free value once none is left; or the echo
device of R135. -/
inductive Responder where
  | answers (bytes : List Byte)
  | echo
  deriving DecidableEq, Repr

/-- The BTE's pins (R34), logical levels. D is DOUT while DDIR is 1. -/
structure Pins where
  rd : Bool
  wr : Bool
  selm : Bool
  seli : Bool
  aux : Bool
  /-- true = output -/
  ddir : Bool
  dout : Byte
  ah : Byte
  al : Byte
  deriving DecidableEq, Repr

/-- The serial link's pins (R35), a byte at a time (log 13): MOSI and MISO hold the last byte exchanged. -/
structure Link where
  cs : Bool
  sck : Bool
  mosi : Byte
  miso : Byte
  deriving DecidableEq, Repr

/-- The NVM chip (R45). `garbled`: the frame in progress began while the chip was busy (R187; log 14). -/
structure Chip where
  mem : Memory
  wel : Bool
  busy : Bool
  garbled : Bool
  deriving DecidableEq, Repr

structure State where
  /-- the parameters (R4); no step writes them -/
  cfg : Config
  /-- CMD, R21 -/
  cmd : Byte
  /-- STATUS.BUSY, R31 -/
  busy : Bool
  /-- STATUS.ERR, R32 -/
  err : Bool
  /-- STATUS.ERRCODE, R242 -/
  errCode : BitVec 3
  /-- ADDR, R23 -/
  addr : Half
  /-- WDATA, R24 -/
  wdata : Byte
  /-- RDATA, R25 -/
  rdata : Byte
  /-- PADDR, R26 -/
  paddr : Word
  /-- NBUF, R27 -/
  nbuf : Memory
  /-- FBUF, R28 -/
  fbuf : Memory
  /-- the BTE's pins, R34 -/
  pins : Pins
  /-- the NMI input pin, R33 -/
  nmi : Bool
  /-- the serial link, R35 -/
  link : Link
  /-- GIE, R36 -/
  gie : Bool
  /-- PM, R37 -/
  pm : Memory
  /-- APP_RD_EN, R37 -/
  appRdEn : Bool
  /-- interrupt requests pending at their sources, R217 -/
  irqs : List IrqSource
  /-- UNIT and PHASE, R40 -/
  seq : Activity
  /-- HOLD, R41 -/
  hold : Nat
  /-- FRAMES, R42 -/
  frames : List (List Byte)
  /-- the responses of the frame in progress, R162 (log 31) -/
  rx : List Byte
  /-- BIDX, R42 -/
  bidx : Nat
  /-- SAVED_IE, R43 -/
  savedIe : Bool
  /-- WBUF, R43 -/
  wbuf : Cells 16
  /-- WIDX, R43 -/
  widx : Nat
  /-- FLASH_BUSY, R43 -/
  flashBusy : Bool
  /-- what FLASH has pending, R214 (log 29) -/
  flashOp : Option FlashOp
  /-- the NVM chip, R45 -/
  chip : Chip
  /-- what answers bus reads, R134 -/
  xbus : Responder
  /-- FAULTS, R44: a set, as a list without repeats -/
  faults : List ModelFault
  /-- HIST, R44: oldest first -/
  hist : List Event
  /-- the model's own: how many free draws were made (log 9) -/
  draws : Nat
  /-- the model's own: which agents move next (log 2) -/
  turns : List Turn
  /-- the model's own: what the host does next (log 3) -/
  host : List HostStmt
  deriving DecidableEq, Repr

/-- Why a step stops with a fault. `pmOutside`: raised by a host read or fetch of a program-memory offset at or above
PM_SIZE, which does not exist (R64); safe (log 20). -/
inductive Fault where
  | pmOutside
  deriving DecidableEq, Repr

/-- Why a step is refused. `notModelled`: by exec's arms only, for an instruction without a meaning; safe.
`badParameters`: by every step, when the parameter set breaks R6, which says so; safe (log 30). `badFrame`: by SEQ's
step, on a frame the NVC never sends (R181, R183); no run from a command reaches it; safe (log 28). -/
inductive Refusal where
  | notModelled (mnemonic : String)
  | badParameters
  | badFrame
  deriving DecidableEq, Repr

/-- The answer of a step, a meaning or an agent. -/
abbrev Outcome := Host.Outcome State Fault Refusal

/-- The idle pin configuration (R120), with what the address pins and the data latch hold. -/
def Pins.idle (c : Config) (dout ah al : Byte) : Pins where
  rd := false
  wr := false
  selm := c.selIdle.1
  seli := c.selIdle.2
  aux := false
  ddir := true
  dout := dout
  ah := ah
  al := al

/-- Power-on reset: R46's values; zero where R46 says "unspecified" (log 7), the parameters of log 6, empty memories
(log 8) and nothing scheduled (log 2, log 3). -/
def State.reset : State where
  cfg := Config.reference
  cmd := 0x00
  busy := false
  err := false
  errCode := 0
  addr := 0
  wdata := 0
  rdata := 0
  paddr := 0
  nbuf := []
  fbuf := []
  pins := Pins.idle Config.reference 0 0 0
  nmi := false
  link := { cs := false, sck := Config.reference.serIdleHigh, mosi := 0, miso := 0 }
  gie := false
  pm := []
  appRdEn := true
  irqs := []
  seq := .idle
  hold := 0
  frames := []
  rx := []
  bidx := 0
  savedIe := false
  wbuf := []
  widx := 0
  flashBusy := false
  flashOp := none
  chip := { mem := [], wel := false, busy := false, garbled := false }
  xbus := .answers []
  faults := []
  hist := []
  draws := 0
  turns := []
  host := []

end Sys2Proof.Machine
end

