-- ==== Sys2Proof/Machine/Flags.lean ====
section
/-! DEFINITION. The flags of STATUS (10_state.md R22, R31 to R33) and the violation codes (60_exceptions.md R242). -/

namespace Sys2Proof.Machine

/-- ERRCODE's value for each violation (R242); 0 is "none", 6 and 7 are never produced. -/
def violationCode (v : Violation) : BitVec 3 :=
  match v with
  | .illegalCmd => 1
  | .overlap => 2
  | .flashAlign => 3
  | .flashRange => 4
  | .flashRegion => 5

/-- STATUS as the host reads it (R22): bits 7:6 = 0, bit 5 = NMI, live, bits 4:2 = ERRCODE, bit 1 = ERR, bit 0 = BUSY. -/
def statusByte (s : State) : Byte :=
  (0#2 ++ BitVec.ofBool s.nmi ++ s.errCode ++ BitVec.ofBool s.err ++ BitVec.ofBool s.busy).cast rfl

/-- UNIT of the pair (UNIT, PHASE) (R40). -/
def unitOf (a : Activity) : UnitName :=
  match a with
  | .idle => .none
  | .bte _ _ _ => .bte
  | .nvc _ _ => .nvc
  | .frs _ => .frs

end Sys2Proof.Machine
end

