-- ==== Sys2Proof/Machine/Ops.lean ====
section
/-! DEFINITION. The named operations the meanings share: storage, bytes, free draws, the records HIST and FAULTS, the
violation record (the only thing like an exception the block has, 60_exceptions.md R243, R253: there is no return from
it), accepting a command (30_encoding.md R102, R104) and ending one (10_state.md R31). -/

namespace Sys2Proof.Machine

/-! ### Storage -/

/-- The value at an address; an unlisted address reads 0. -/
def Cells.read {w : Nat} (m : Cells w) (a : Nat) : BitVec w :=
  match m with
  | [] => 0
  | (b, x) :: rest => if a = b then x else Cells.read rest a

/-- Put a value in its place; writing 0 takes the entry out. -/
def Cells.write {w : Nat} (m : Cells w) (a : Nat) (v : BitVec w) : Cells w :=
  match m with
  | [] => if v = 0 then [] else [(a, v)]
  | (b, x) :: rest =>
    if a < b then (if v = 0 then (b, x) :: rest else (a, v) :: (b, x) :: rest)
    else if a = b then (if v = 0 then rest else (a, v) :: rest)
    else (b, x) :: Cells.write rest a v

/-- Write values at consecutive addresses, lowest first. -/
def Cells.writeList {w : Nat} (m : Cells w) (a : Nat) (vs : List (BitVec w)) : Cells w :=
  match vs with
  | [] => m
  | v :: rest => Cells.writeList (m.write a v) (a + 1) rest

/-- Read `n` values from consecutive addresses. -/
def Cells.readList {w : Nat} (m : Cells w) (a n : Nat) : List (BitVec w) :=
  (List.range n).map fun i => m.read (a + i)

/-- Every entry is nonzero and lies above `lo`, addresses rising. -/
def Cells.wfFrom {w : Nat} (lo : Nat) (m : Cells w) : Bool :=
  match m with
  | [] => true
  | (b, x) :: rest => decide (lo ≤ b) && x != 0 && Cells.wfFrom (b + 1) rest

/-- The canonical form: addresses strictly rising, no entry equal to what an unlisted address reads. -/
def Cells.wf {w : Nat} (m : Cells w) : Bool := Cells.wfFrom 0 m

/-- No entry lies at or above `n`. -/
def Cells.below {w : Nat} (n : Nat) (m : Cells w) : Bool := m.all fun e => decide (e.1 < n)

/-- The canonical form of a byte memory. -/
def Memory.wf (m : Memory) : Bool := Cells.wf m

/-! ### Bytes -/

/-- Bits 15:8 (R66). -/
def hiByte (x : Half) : Byte := x.extractLsb' 8 8

/-- Bits 7:0 (R66). -/
def loByte (x : Half) : Byte := x.extractLsb' 0 8

/-- `hi ++ lo` (R92, R207). -/
def pair (hi lo : Byte) : Half := (hi ++ lo).cast rfl

/-- Byte `k` of a 32-bit register, little-endian (R68, R92). -/
def wordByte (x : Word) (k : Nat) : Byte := x.extractLsb' (8 * k) 8

/-- A 32-bit register from its four bytes (R92). -/
def wordOf (b3 b2 b1 b0 : Byte) : Word := (b3 ++ b2 ++ b1 ++ b0).cast rfl

/-- A 32-bit register with byte `k` replaced: "changes only that byte" (R92). -/
def setWordByte (x : Word) (k : Nat) (v : Byte) : Word :=
  match k with
  | 0 => wordOf (wordByte x 3) (wordByte x 2) (wordByte x 1) v
  | 1 => wordOf (wordByte x 3) (wordByte x 2) v (wordByte x 0)
  | 2 => wordOf (wordByte x 3) v (wordByte x 1) (wordByte x 0)
  | 3 => wordOf v (wordByte x 2) (wordByte x 1) (wordByte x 0)
  | _ => x

/-- The physical level of a pin whose logical level is `level` (R5, POL). -/
def physicalLevel (activeHigh level : Bool) : Bool := level == activeHigh

/-- The physical levels of eight lines whose logical levels are `v` (R5, POL). -/
def physicalByte (activeHigh : Bool) (v : Byte) : Byte := if activeHigh then v else ~~~v

/-- The BTE's pins as physical levels (R34, POL); DDIR is internal, and D has these levels while the block drives it. -/
def physicalPins (pol : Polarity) (p : Pins) : Pins where
  rd := physicalLevel pol.rd p.rd
  wr := physicalLevel pol.wr p.wr
  selm := physicalLevel pol.selm p.selm
  seli := physicalLevel pol.seli p.seli
  aux := physicalLevel pol.aux p.aux
  ddir := p.ddir
  dout := physicalByte pol.d p.dout
  ah := physicalByte pol.ah p.ah
  al := physicalByte pol.al p.al

/-- The serial link's pins as physical levels (R35, POL). -/
def physicalLink (pol : Polarity) (l : Link) : Link where
  cs := physicalLevel pol.cs l.cs
  sck := physicalLevel pol.sck l.sck
  mosi := physicalByte pol.mosi l.mosi
  miso := physicalByte pol.miso l.miso

/-- The host address of a window offset (R90). -/
def hostAddress (c : Config) (off : Off) : Nat := c.blockBase + off.toNat

/-! ### Free draws (log 9) -/

/-- The next draw's number is used up. -/
def drew (n : Nat) (s : State) : State := { s with draws := s.draws + n }

/-- `n` bytes of the draw numbered `d`. -/
def freeBytes (d n : Nat) : List Byte := (List.range n).map fun k => Config.freeByte d k

/-- `n` 16-bit words of the draw numbered `d`. -/
def freeHalves (d n : Nat) : List Half :=
  (List.range n).map fun k => pair (Config.freeByte d (2 * k + 1)) (Config.freeByte d (2 * k))

/-! ### HIST and FAULTS -/

/-- Append an event to HIST (R44). -/
def record (e : Event) (s : State) : State := { s with hist := s.hist ++ [e] }

/-- `fault MF_x` (R10, R247): add to the set FAULTS; nothing is ever removed (R248). -/
def addFault (f : ModelFault) (s : State) : State :=
  { s with faults := if f ∈ s.faults then s.faults else s.faults ++ [f] }

/-- Record a model fault when a condition holds. -/
def faultIf (c : Bool) (f : ModelFault) (s : State) : State := if c then addFault f s else s

/-- `raise Violation(code)` (R243): the first code wins, ERR is sticky, MF_VIOLATION is recorded, and the access that
raised it has no other effect. This is what the block has for an exception; it saves and changes nothing else (R253). -/
def raise (v : Violation) (s : State) : State :=
  addFault (.violation v) { s with err := true, errCode := if s.err then s.errCode else violationCode v }

/-! ### Commands -/

/-- The accepting host step of a CMD write of byte `v` that decodes (R102): record the access; OVERLAP while BUSY; the
command's own check; else CMD and BUSY are set and the command starts (R104). -/
def issue (v : Byte) (check : State → Option Violation) (start : State → State) (s : State) : Outcome :=
  let s := record (.hostWrite offCmd v) s
  if s.busy then .next (raise .overlap s)
  else
    match check s with
    | some bad => .next (raise bad s)
    | none => .next (start { s with cmd := v, busy := true })

/-- No check beyond BUSY: every command but FLASH_PROG. -/
def noCheck (_ : State) : Option Violation := none

/-- The end of a command (R31): BUSY <- 0, UNIT <- NONE. -/
def endCommand (s : State) : State := { s with busy := false, seq := .idle }

end Sys2Proof.Machine
end

