-- ==== Sys2Proof/Machine/Operands.lean ====
section
/-! DEFINITION. The operand forms: the register window (30_encoding.md R91 to R94), what each command takes its operands
from (R98), the frames the NVM commands send (42_nvm_controller.md R164 to R168), and FLASH_PROG's checks and the
resident region (43_flash_sequencer.md R201, 10_state.md R37). -/

namespace Sys2Proof.Machine

/-! ### The register window -/

/-- What a window offset names (R91). -/
inductive WinReg where
  | cmd
  | status
  | addrL
  | addrH
  | wdata
  | rdata
  | paddr (k : Nat)
  | nbuf (k : Nat)
  | fbuf (k : Nat)
  | reserved
  deriving DecidableEq, Repr

/-- The register map of R91; the FBUF window is PM_PAGE_SIZE bytes long (R93). -/
def winReg (c : Config) (off : Off) : WinReg :=
  let o := off.toNat
  if o = 0x0000 then .cmd
  else if o = 0x0001 then .status
  else if o = 0x0002 then .addrL
  else if o = 0x0003 then .addrH
  else if o = 0x0004 then .wdata
  else if o = 0x0005 then .rdata
  else if 0x0008 ≤ o ∧ o ≤ 0x000B then .paddr (o - 0x0008)
  else if 0x0100 ≤ o ∧ o ≤ 0x01FF then .nbuf (o - 0x0100)
  else if 0x2000 ≤ o ∧ o < 0x2000 + c.pmPageSize then .fbuf (o - 0x2000)
  else .reserved

/-- The read column of R91, for BUSY = 0. -/
def readReg (r : WinReg) (s : State) : Byte :=
  match r with
  | .cmd => s.cmd
  | .status => statusByte s
  | .addrL => loByte s.addr
  | .addrH => hiByte s.addr
  | .wdata => s.wdata
  | .rdata => s.rdata
  | .paddr k => wordByte s.paddr k
  | .nbuf k => s.nbuf.read k
  | .fbuf k => s.fbuf.read k
  | .reserved => 0x00

/-- Does a read of this register return an unspecified value while BUSY = 1 (R105)? -/
def isResult (r : WinReg) : Bool :=
  match r with
  | .rdata | .nbuf _ => true
  | .cmd | .status | .addrL | .addrH | .wdata | .paddr _ | .fbuf _ | .reserved => false

/-- Does a write of this register need BUSY = 0 (R102, R244)? -/
def isGuarded (r : WinReg) : Bool :=
  match r with
  | .cmd | .addrL | .addrH | .wdata | .paddr _ | .nbuf _ | .fbuf _ => true
  | .status | .rdata | .reserved => false

/-- The write column of R91 for the operand registers and the buffers; every other write has no effect. A write of CMD
is `issue`'s, not this one's. -/
def writeReg (r : WinReg) (v : Byte) (s : State) : State :=
  match r with
  | .addrL => { s with addr := pair (hiByte s.addr) v }
  | .addrH => { s with addr := pair v (loByte s.addr) }
  | .wdata => { s with wdata := v }
  | .paddr k => { s with paddr := setWordByte s.paddr k v }
  | .nbuf k => { s with nbuf := s.nbuf.write k v }
  | .fbuf k => { s with fbuf := s.fbuf.write k v }
  | .cmd | .status | .rdata | .reserved => s

/-- A host read of the window (R103): the read column of R91, a free value for RDATA and NBUF while BUSY (R105); only HIST
changes. -/
def hostRead (off : Off) (s : State) : State :=
  let r := winReg s.cfg off
  if s.busy && isResult r then record (.hostRead off (Config.freeByte s.draws 0)) (drew 1 s)
  else record (.hostRead off (readReg r s)) s

/-- A host write that starts no command (R102): OVERLAP while BUSY for a guarded register; ILLEGAL_CMD for a CMD byte
that does not decode; else the register's byte. -/
def hostWrite (off : Off) (v : Byte) (s : State) : State :=
  let r := winReg s.cfg off
  let s := record (.hostWrite off v) s
  if s.busy && isGuarded r then raise .overlap s
  else if r = .cmd then raise .illegalCmd s
  else writeReg r v s

/-! ### Frames -/

/-- NVM_PAGES = NVM_CAPACITY / 256 (R4). -/
def nvmPages (c : Config) : Nat := c.nvmCapacity / 256

/-- The page index of the raw page commands: ADDR[7:0] (R98). -/
def pageIndex (s : State) : Byte := loByte s.addr

/-- R164. -/
def wrenFrame : List Byte := [0x06]

/-- R165. -/
def wrByteFrame (s : State) : List Byte := [0x02, hiByte s.addr, loByte s.addr, s.wdata]

/-- R166. -/
def rdByteFrame (s : State) : List Byte := [0x03, hiByte s.addr, loByte s.addr, s.cfg.nvmDummy]

/-- R167: 259 bytes. -/
def wrPageFrame (s : State) : List Byte := 0x02 :: pageIndex s :: 0x00 :: s.nbuf.readList 0 256

/-- R168: 259 bytes. -/
def rdPageFrame (s : State) : List Byte := 0x03 :: pageIndex s :: 0x00 :: List.replicate 256 s.cfg.nvmDummy

/-- Is the NVM byte address outside the chip (R174)? -/
def byteOutside (s : State) : Bool := decide (s.cfg.nvmCapacity ≤ s.addr.toNat)

/-- Is the raw page index outside the chip (R174)? -/
def pageOutside (s : State) : Bool := decide (nvmPages s.cfg ≤ (pageIndex s).toNat)

/-- The wrappers' bounds check: all 16 bits of ADDR against NVM_PAGES (R169, R170). -/
def inStorage (s : State) : Bool := decide (s.addr.toNat < nvmPages s.cfg)

/-! ### Program memory -/

/-- The page FLASH_PROG rewrites (R205). -/
def flashPage (s : State) : Nat := s.paddr.toNat / s.cfg.pmPageSize

/-- Is a program-memory offset in the resident region (R37)? -/
def inResident (c : Config) (a : Nat) : Bool := decide (c.resBase ≤ a) && decide (a < c.resBase + c.resSize)

/-- FlashChecksPass (R201), in its order; the first that fails gives its violation. -/
def flashCheck (s : State) : Option Violation :=
  let p := s.paddr.toNat
  let c := s.cfg
  if p % c.pmPageSize ≠ 0 then some .flashAlign
  else if c.pmSize < p + c.pmPageSize then some .flashRange
  else if max p c.resBase < min (p + c.pmPageSize) (c.resBase + c.resSize) then some .flashRegion
  else none

end Sys2Proof.Machine
end

