-- ==== Sys2Proof/Machine/Bus.lean ====
section
/-! DEFINITION. The Bus Transaction Engine (41_bus_engine.md): BUS_WR, BUS_RD, GETNMI, the phases B1 to B9c, and the
external side that answers a read. -/

namespace Sys2Proof.Machine

/-- `sel(space)` gives (SELM, SELI) (R121). -/
def selOf (sp : Space) : Bool × Bool :=
  match sp with
  | .memory => (true, false)
  | .io => (false, true)

/-- The byte of the latest write to a space and address in HIST (R135). -/
def lastWrite (sp : Space) (a : Half) (h : List Event) : Option Byte :=
  match h with
  | [] => none
  | e :: rest =>
    match lastWrite sp a rest with
    | some d => some d
    | none =>
      match e with
      | .bus .write sp' a' d => if sp' = sp ∧ a' = a then some d else none
      | _ => none

/-- `sample(D)` (R134): what XBUS answers, and the state after the answer. -/
def sample (sp : Space) (s : State) : Byte × State :=
  match s.xbus with
  | .answers (v :: rest) => (v, { s with xbus := .answers rest })
  | .answers [] => (Config.freeByte s.draws 0, drew 1 s)
  | .echo =>
    match lastWrite sp s.addr s.hist with
    | some v => (v, s)
    | none => (Config.freeByte s.draws 0, drew 1 s)

/-- The hold count of a transaction (R121, B7). -/
def holdCycles (c : Config) (d : Dir) : Nat :=
  match d with
  | .write => c.writeHold
  | .read => c.readHold

/-- The phase after the hold: a write has no B8 (R122). -/
def afterHold (d : Dir) : BtePhase :=
  match d with
  | .write => .b9a
  | .read => .b8

/-- One SEQ step of a bus transaction: the phase's pin changes (R121, R122, R123) and the next phase. -/
def bteStep (d : Dir) (sp : Space) (ph : BtePhase) (s : State) : State :=
  match ph with
  | .b1 => { s with pins := { s.pins with rd := false, wr := false }, seq := .bte d sp .b2 }
  | .b2 =>
    { s with
      pins := { s.pins with selm := (selOf sp).1, seli := (selOf sp).2, aux := true }
      seq := .bte d sp .b3 }
  | .b3 =>
    match d with
    | .write => { s with pins := { s.pins with ddir := true, dout := s.wdata }, seq := .bte d sp .b4 }
    | .read => { s with pins := { s.pins with ddir := false }, seq := .bte d sp .b4 }
  | .b4 => { s with pins := { s.pins with ah := hiByte s.addr, al := loByte s.addr }, seq := .bte d sp .b5 }
  | .b5 => { s with pins := { s.pins with aux := false }, seq := .bte d sp .b6 }
  | .b6 =>
    match d with
    | .write =>
      record (.bus .write sp s.addr s.wdata) { s with pins := { s.pins with wr := true }, seq := .bte d sp .b7 }
    | .read => { s with pins := { s.pins with rd := true }, seq := .bte d sp .b7 }
  | .b7 =>
    { s with
      hold := s.hold + 1
      seq := if holdCycles s.cfg d ≤ s.hold + 1 then .bte d sp (afterHold d) else .bte d sp .b7 }
  | .b8 =>
    match d with
    | .write => { s with seq := .bte d sp .b9a }
    | .read =>
      let r := sample sp s
      record (.bus .read sp s.addr r.1) { r.2 with rdata := r.1, seq := .bte d sp .b9a }
  | .b9a => { s with pins := { s.pins with rd := false, wr := false }, seq := .bte d sp .b9b }
  | .b9b =>
    { s with
      pins := { s.pins with selm := s.cfg.selIdle.1, seli := s.cfg.selIdle.2 }
      seq := .bte d sp .b9c }
  | .b9c =>
    match d with
    | .write => endCommand { s with pins := { s.pins with ddir := true }, hold := 0 }
    | .read =>
      endCommand (drew 1 { s with pins := { s.pins with ddir := true, dout := Config.freeByte s.draws 0 }, hold := 0 })

/-- Start of a bus command (R104): (BTE, B1) with its direction and space. -/
def startBus (d : Dir) (sp : Space) (s : State) : State := { s with seq := .bte d sp .b1 }

/-- BUS_WR (R122): the accepting host step (R102, R104); `bteStep` carries out its phases. -/
def execBusWr (sp : Space) (s : State) : Outcome := issue (encodeCmd (.busWr sp)) noCheck (startBus .write sp) s

/-- BUS_RD (R123): the accepting host step; `bteStep` carries out its phases. -/
def execBusRd (sp : Space) (s : State) : Outcome := issue (encodeCmd (.busRd sp)) noCheck (startBus .read sp) s

/-- GETNMI (R129): a host read of STATUS, whose bit 5 is the NMI pin's level; it writes nothing but HIST (R103). -/
def execGetNmi (s : State) : Outcome := .next (hostRead offStatus s)

end Sys2Proof.Machine
end

