-- ==== Sys2Proof/Machine/HostProgram.lean ====
section
/-! DEFINITION. The host's statements (30_encoding.md R106), its pseudo-instructions (R107), and what the host does that
is no window access: GIE (43_flash_sequencer.md R216), program memory (R215), interrupts (R217). -/

namespace Sys2Proof.Machine

/-- The pseudo-instructions of R107. -/
inductive Pseudo where
  | busw (sp : Space) (a : Half) (d : Byte)
  | busr (sp : Space) (a : Half)
  | nmi
  | nvwren
  | nvwb (a : Half) (d : Byte)
  | nvrb (a : Half)
  | nvwp (p : Byte)
  | nvrp (p : Byte)
  | stow (p : Half)
  | stor (p : Half)
  | fprog (pa : Word)
  deriving DecidableEq, Repr

/-- `wr ADDR_L, a[7:0]; wr ADDR_H, a[15:8]` (R107). -/
def wrAddr (a : Half) : List HostStmt := [.wr 0x0002 (loByte a), .wr 0x0003 (hiByte a)]

/-- `wr PADDR0 .. PADDR3` (R107). -/
def wrPaddr (pa : Word) : List HostStmt :=
  [.wr 0x0008 (wordByte pa 0), .wr 0x0009 (wordByte pa 1), .wr 0x000A (wordByte pa 2), .wr 0x000B (wordByte pa 3)]

/-- The expansion of a pseudo-instruction (R107). -/
def expand (p : Pseudo) : List HostStmt :=
  match p with
  | .busw sp a d => wrAddr a ++ [.wr 0x0004 d, .wr offCmd (encodeCmd (.busWr sp)), .wait]
  | .busr sp a => wrAddr a ++ [.wr offCmd (encodeCmd (.busRd sp)), .wait, .rd 0x0005]
  | .nmi => [.rd offStatus]
  | .nvwren => [.wr offCmd 0x04, .wait]
  | .nvwb a d => wrAddr a ++ [.wr 0x0004 d, .wr offCmd 0x05, .wait]
  | .nvrb a => wrAddr a ++ [.wr offCmd 0x06, .wait, .rd 0x0005]
  | .nvwp p => [.wr 0x0002 p, .wr offCmd 0x07, .wait]
  | .nvrp p => [.wr 0x0002 p, .wr offCmd 0x08, .wait]
  | .stow p => wrAddr p ++ [.wr offCmd 0x09, .wait]
  | .stor p => wrAddr p ++ [.wr offCmd 0x0A, .wait]
  | .fprog pa => wrPaddr pa ++ [.wr offCmd 0x0B, .wait]

/-- Is FLASH_PROG between its F2 step and its F9 step (R216; log 5)? -/
def interruptsMasked (a : Activity) : Bool :=
  match a with
  | .frs .f3 | .frs .f4 | .frs .f5 | .frs .f6 | .frs .f7 | .frs .f8 | .frs .f9 => true
  | .frs .f1 | .frs .f2 => false
  | .idle | .bte _ _ _ | .nvc _ _ => false

/-- `sei` and `cli`: a change of GIE while FLASH_PROG has it masked is MF_GIE_WRITE (R216; log 19). -/
def hostSetGie (v : Bool) (s : State) : State :=
  faultIf (interruptsMasked s.seq && s.gie != v) .gieWrite { s with gie := v }

/-- A host read or fetch of a program-memory byte: MF_APP_ACCESS in the application region while APP_RD_EN = 0, where
the byte is any value (R205, R215); a fault outside PM (R64; log 20). `ev` is the record made of it (log 21). -/
def hostPm (ev : Word → Byte → Event) (a : Word) (s : State) : Outcome :=
  if s.cfg.pmSize ≤ a.toNat then .fault .pmOutside
  else if s.appRdEn = false ∧ inResident s.cfg a.toNat = false then
    .next (record (ev a (Config.freeByte s.draws 0)) (drew 1 (addFault .appAccess s)))
  else .next (record (ev a (s.pm.read a.toNat)) s)

/-- An access of another width than a byte: MF_HOST_WIDTH and nothing else (R65, R247; log 18). -/
def hostWide (s : State) : State := addFault .hostWidth s

/-- A request arrives and stays pending at its source (R217; log 22). -/
def requestIrq (src : IrqSource) (s : State) : State :=
  { s with irqs := if src ∈ s.irqs then s.irqs else s.irqs ++ [src] }

/-- The host takes a pending request only while GIE = 1 (R36, R217; log 22). -/
def hostTakeIrq (src : IrqSource) (s : State) : State :=
  if s.gie then { s with irqs := s.irqs.filter (fun x => x != src) } else s

end Sys2Proof.Machine
end

