-- ==== Sys2Proof/Machine/ChipModel.lean ====
section
/-! DEFINITION. The NVM chip's model (42_nvm_controller.md R180 to R188): what it does at CS assertion, at each byte of
a frame, at CS deassertion, and when its write cycle ends. Where no source says what the chip does, it may do anything
(free values, log 14). -/

namespace Sys2Proof.Machine

/-- The address a frame carries: t1 ++ t2 (R183, R184). -/
def frameAddr (t : List Byte) : Nat := (pair (t.getD 1 0) (t.getD 2 0)).toNat

/-- The bytes of a frame after its three header bytes (R183, R184). -/
def frameData (t : List Byte) : List Byte := t.drop 3

/-- Is this a write frame (R181)? -/
def isWriteFrame (t : List Byte) : Bool := t.getD 0 0 == 0x02

/-- Is this a read frame (R181)? -/
def isReadFrame (t : List Byte) : Bool := t.getD 0 0 == 0x03

/-- Does a frame address bytes the chip does not have (R63)? -/
def frameOutside (c : Config) (t : List Byte) : Bool :=
  (isWriteFrame t || isReadFrame t) && decide (c.nvmCapacity < frameAddr t + (frameData t).length)

/-- Has a write frame more data bytes than a nonzero NVM_CHIP_PAGE below 256 (R188)? -/
def frameTooLong (c : Config) (t : List Byte) : Bool :=
  isWriteFrame t && decide (0 < c.nvmChipPage) && decide (c.nvmChipPage < 256)
    && decide (c.nvmChipPage < (frameData t).length)

/-- Free writes to the chip's bytes: the listed cells, those that exist (log 14). -/
def freeWrites (c : Config) (m : Memory) (cells : List (Nat × Byte)) : Memory :=
  match cells with
  | [] => m
  | (a, v) :: rest => freeWrites c (if a < c.nvmCapacity then m.write a v else m) rest

/-- CS is asserted: a frame begun while the chip is busy is MF_NVM_CHIP_BUSY (R187), a write frame too long for the
chip's page is MF_NVM_CHIP_PAGE (R188; log 15). -/
def chipSelect (t : List Byte) (s : State) : State :=
  let late := s.cfg.nvmWriteCycle && s.chip.busy
  faultIf (frameTooLong s.cfg t) .nvmChipPage
    (faultIf late .nvmChipBusy { s with chip := { s.chip with garbled := late } })

/-- The chip's answer to byte `i` of a frame: MEM[a + i - 3] in a read frame from i = 3 on (R184); every other response
is unspecified (R171, R185), and so is what is read outside the chip (R174) or in a garbled frame (R187). -/
def chipAnswer (t : List Byte) (i : Nat) (s : State) : Byte × State :=
  if isReadFrame t = true ∧ 3 ≤ i ∧ frameAddr t + (i - 3) < s.cfg.nvmCapacity ∧ s.chip.garbled = false then
    (s.chip.mem.read (frameAddr t + (i - 3)), s)
  else (Config.freeByte s.draws 0, drew 1 s)

/-- The chip does what no source says (R174, R187; log 14): any bytes change, WEL is any value, and it may be busy if it
has a write cycle. -/
def chipOpen (s : State) : State :=
  drew 1 { s with
    chip := { s.chip with
      mem := freeWrites s.cfg s.chip.mem (Config.freeCells s.draws)
      wel := Config.freeBit s.draws 0
      busy := s.cfg.nvmWriteCycle && Config.freeBit s.draws 1 } }

/-- A write frame at CS deassertion (R183): if WEL = 1 the data land at ascending addresses and the write cycle starts
(R187); WEL is 0 afterwards (R182). Where the data do not fit the chip's page they land no one says where (R188). -/
def chipCommit (t : List Byte) (s : State) : State :=
  if s.chip.wel then
    if frameTooLong s.cfg t then
      drew 1 { s with
        chip := { s.chip with
          mem := freeWrites s.cfg s.chip.mem (Config.freeCells s.draws)
          wel := false
          busy := s.cfg.nvmWriteCycle } }
    else
      { s with
        chip := { s.chip with
          mem := s.chip.mem.writeList (frameAddr t) (frameData t)
          wel := false
          busy := s.cfg.nvmWriteCycle } }
  else s

/-- CS is deasserted at the end of a frame (R182, R183). -/
def chipDeselect (t : List Byte) (s : State) : State :=
  if s.chip.garbled || frameOutside s.cfg t then chipOpen s
  else if isWriteFrame t then chipCommit t s
  else if isReadFrame t then s
  else { s with chip := { s.chip with wel := true } }

/-- The NVMCHIP agent's own step: the write cycle ends (R187). -/
def chipStep (s : State) : State := { s with chip := { s.chip with busy := false } }

end Sys2Proof.Machine
end

