-- ==== Sys2Proof/Machine/Nvm.lean ====
section
/-! DEFINITION. The NVM storage controller (42_nvm_controller.md): its seven commands and the phases of a frame
(R162). -/

namespace Sys2Proof.Machine

/-- The end of an NVM command (R162): BUSY <- 0, UNIT <- NONE, BIDX <- 0; no frame is left. -/
def endNvc (s : State) : State := endCommand { s with frames := [], rx := [], bidx := 0 }

/-- The byte phase N_X(i) (R162): send t_i, receive r_i, BIDX <- i; NVM_RDPAGE stores the responses from r3 on as they
arrive (R168). After the last byte comes N_DS. -/
def exchange (cap : Capture) (t : List Byte) (s : State) : State :=
  let i := s.rx.length
  let r := chipAnswer t i s
  let s' := r.2
  { s' with
    link := { s'.link with sck := s'.cfg.serIdleHigh, mosi := t.getD i 0, miso := r.1 }
    bidx := i
    rx := s'.rx ++ [r.1]
    nbuf := if cap = .nbuf ∧ 3 ≤ i then s'.nbuf.write (i - 3) r.1 else s'.nbuf
    seq := if t.length ≤ i + 1 then .nvc cap .ds else .nvc cap .x }

/-- N_DS (R162): CS <- 0, the frame is recorded, the chip acts on it; NVM_RDBYTE takes r3 (R166, log 16). The command
ends after its last frame, else the gap follows. -/
def finishFrame (cap : Capture) (t : List Byte) (rest : List (List Byte)) (s : State) : State :=
  let s1 := record (.frame t s.rx) { s with
    link := { s.link with cs := false }
    rdata := if cap = .rdata then s.rx.getD 3 0 else s.rdata }
  let s2 := chipDeselect t s1
  match rest with
  | [] => endNvc s2
  | next :: more => { s2 with frames := next :: more, rx := [], seq := .nvc cap .gap }

/-- One SEQ step of an NVM command (R162). With no frame to send (the wrappers' no-op, R169, R170) the command ends. A
frame the NVC never sends is refused (R181). -/
def nvcStep (cap : Capture) (ph : NvcPhase) (s : State) : Outcome :=
  match s.frames with
  | [] => .next (endNvc s)
  | t :: rest =>
    if wireFrameOk t then
      match ph with
      | .cs =>
        .next (chipSelect t { s with link := { s.link with cs := true }, rx := [], seq := .nvc cap .x })
      | .x => .next (exchange cap t s)
      | .ds => .next (finishFrame cap t rest s)
      | .gap => .next { s with seq := .nvc cap .cs }
      | .noop => .next (endNvc s)
    else .refused .badFrame

/-- (NVC, first frame) with FRAMES (R104). -/
def startNvc (cap : Capture) (frames : List (List Byte)) (s : State) : State :=
  { s with frames := frames, seq := .nvc cap .cs }

/-- The wrappers' no-op (R169, R170): no frame. -/
def startNoop (s : State) : State := { s with frames := [], seq := .nvc .discard .noop }

/-- R164. -/
def startWren (s : State) : State := startNvc .discard [wrenFrame] s

/-- R165: MF_NVM_RANGE at the start of the command (R174); the frames are sent all the same. -/
def startWrByte (s : State) : State :=
  startNvc .discard [wrenFrame, wrByteFrame s] (faultIf (byteOutside s) .nvmRange s)

/-- R166. -/
def startRdByte (s : State) : State := startNvc .rdata [rdByteFrame s] (faultIf (byteOutside s) .nvmRange s)

/-- R167. -/
def startWrPage (s : State) : State :=
  startNvc .discard [wrenFrame, wrPageFrame s] (faultIf (pageOutside s) .nvmRange s)

/-- R168. -/
def startRdPage (s : State) : State := startNvc .nbuf [rdPageFrame s] (faultIf (pageOutside s) .nvmRange s)

/-- R169: NVM_WRPAGE if ADDR < NVM_PAGES, else nothing. -/
def startStoWrite (s : State) : State := if inStorage s then startWrPage s else startNoop s

/-- R170: NVM_RDPAGE if ADDR < NVM_PAGES, else nothing. -/
def startStoRead (s : State) : State := if inStorage s then startRdPage s else startNoop s

/-- NVM_WREN (R164): the accepting host step; `nvcStep` sends its frame. -/
def execNvmWren (b : Bool) (s : State) : Outcome := issue (encodeCmd (.nvmWren b)) noCheck startWren s

/-- NVM_WRBYTE (R165). -/
def execNvmWrByte (b : Bool) (s : State) : Outcome := issue (encodeCmd (.nvmWrByte b)) noCheck startWrByte s

/-- NVM_RDBYTE (R166). -/
def execNvmRdByte (b : Bool) (s : State) : Outcome := issue (encodeCmd (.nvmRdByte b)) noCheck startRdByte s

/-- NVM_WRPAGE (R167). -/
def execNvmWrPage (b : Bool) (s : State) : Outcome := issue (encodeCmd (.nvmWrPage b)) noCheck startWrPage s

/-- NVM_RDPAGE (R168). -/
def execNvmRdPage (b : Bool) (s : State) : Outcome := issue (encodeCmd (.nvmRdPage b)) noCheck startRdPage s

/-- STO_WRITE (R169). -/
def execStoWrite (b : Bool) (s : State) : Outcome := issue (encodeCmd (.stoWrite b)) noCheck startStoWrite s

/-- STO_READ (R170). -/
def execStoRead (b : Bool) (s : State) : Outcome := issue (encodeCmd (.stoRead b)) noCheck startStoRead s

end Sys2Proof.Machine
end

