-- ==== Sys2Proof/Machine/Flash.lean ====
section
/-! DEFINITION. The flash rewrite sequencer (43_flash_sequencer.md): FLASH_PROG, its phases F1 to F9, and the FLASH
agent that completes an erase or a page write (R214). -/

namespace Sys2Proof.Machine

/-- The number of words in a page. -/
def pageWords (c : Config) : Nat := c.pmPageSize / 2

/-- Word `i` of the fill (R207): FBUF[2i+1] ++ FBUF[2i]. -/
def fillWord (s : State) (i : Nat) : Half := pair (s.fbuf.read (2 * i + 1)) (s.fbuf.read (2 * i))

/-- WBUF as the FlashWrite event carries it (R208). -/
def wbufWords (s : State) : List Half := s.wbuf.readList 0 (pageWords s.cfg)

/-- The bytes a page write places, lowest address first: each word's bits 7:0, then 15:8 (R214). -/
def wordBytes (ws : List Half) : List Byte :=
  match ws with
  | [] => []
  | w :: rest => loByte w :: hiByte w :: wordBytes rest

/-- The page's bytes become any value: the free draw numbered `d` (R205, R214, R274). -/
def forgetPage (page d : Nat) (s : State) : Memory :=
  s.pm.writeList (page * s.cfg.pmPageSize) (freeBytes d s.cfg.pmPageSize)

/-- One SEQ step of FLASH_PROG (R202 to R211). -/
def frsStep (ph : FrsPhase) (s : State) : State :=
  match ph with
  | .f1 => { s with savedIe := s.gie, seq := .frs .f2 }
  | .f2 => { s with gie := false, seq := .frs .f3 }
  | .f3 =>
    record (.flashErase (flashPage s)) (drew 1 { s with
      appRdEn := false
      flashBusy := true
      flashOp := some (.erase (flashPage s))
      pm := forgetPage (flashPage s) s.draws s
      seq := .frs .f4 })
  | .f4 => if s.flashBusy then s else { s with seq := .frs .f5 }
  | .f5 =>
    { s with
      wbuf := s.wbuf.write s.widx (fillWord s s.widx)
      widx := s.widx + 1
      seq := if pageWords s.cfg ≤ s.widx + 1 then .frs .f6 else .frs .f5 }
  | .f6 =>
    record (.flashWrite (flashPage s) (wbufWords s)) { s with
      flashBusy := true
      flashOp := some (.write (flashPage s))
      seq := .frs .f7 }
  | .f7 => if s.flashBusy then s else { s with seq := .frs .f8 }
  | .f8 => { s with appRdEn := true, seq := .frs .f9 }
  | .f9 => endCommand { s with gie := s.savedIe, widx := 0 }

/-- The FLASH agent's step (R214): it completes the pending operation. Completing an erase leaves the page's bytes any
value; completing a write places WBUF. -/
def flashStep (s : State) : State :=
  if s.flashBusy then
    match s.flashOp with
    | none => { s with flashBusy := false }
    | some (.erase page) =>
      record (.flashDone (.erase page)) (drew 1 { s with
        pm := forgetPage page s.draws s
        flashBusy := false
        flashOp := none })
    | some (.write page) =>
      record (.flashDone (.write page)) { s with
        pm := s.pm.writeList (page * s.cfg.pmPageSize) (wordBytes (wbufWords s))
        flashBusy := false
        flashOp := none }
  else s

/-- (FRS, F1) (R104). -/
def startFlash (s : State) : State := { s with seq := .frs .f1 }

/-- FLASH_PROG (R201): the accepting host step with its checks; `frsStep` carries out its phases. -/
def execFlashProg (b : Bool) (s : State) : Outcome := issue (encodeCmd (.flashProg b)) flashCheck startFlash s

end Sys2Proof.Machine
end

