-- ==== Sys2Proof/Machine/Reset.lean ====
section
/-! DEFINITION. The RESET agent's step (70_reset_and_hazards.md R270 to R274, 10_state.md R46): one event, whatever its
cause, that abandons a command in flight. What R46 calls unspecified becomes a free value (log 10). -/

namespace Sys2Proof.Machine

/-- Was the erase started and the region not yet re-enabled: "at or after F3 and before F8" (R274; log 5)? -/
def pageInFlight (a : Activity) : Bool :=
  match a with
  | .frs .f4 | .frs .f5 | .frs .f6 | .frs .f7 | .frs .f8 => true
  | .frs .f1 | .frs .f2 | .frs .f3 | .frs .f9 => false
  | .idle | .bte _ _ _ | .nvc _ _ => false

/-- The write frame that reset cuts after its data bytes had started, if there is one (R273; log 25). -/
def cutWrite (s : State) : Option (List Byte) :=
  match s.seq, s.frames with
  | .nvc _ .x, t :: _ | .nvc _ .ds, t :: _ => if isWriteFrame t = true ∧ 4 ≤ s.rx.length then some t else none
  | _, _ => none

/-- PM after reset: an interrupted FLASH_PROG's page is any value (R274). -/
def resetPm (s : State) : Memory :=
  if pageInFlight s.seq then forgetPage (flashPage s) (s.draws + 4) s else s.pm

/-- MEM after reset: the bytes a cut write frame addressed are any value (R273); where the frame does not fit the chip,
any bytes (log 14). -/
def resetMem (s : State) : Memory :=
  match cutWrite s with
  | none => s.chip.mem
  | some t =>
    if s.chip.garbled || frameOutside s.cfg t || frameTooLong s.cfg t then
      freeWrites s.cfg s.chip.mem (Config.freeCells (s.draws + 5))
    else s.chip.mem.writeList (frameAddr t) (freeBytes (s.draws + 5) (frameData t).length)

/-- Reset (R270): R46's values. GIE is 0, not SAVED_IE (R274); FAULTS, HIST, the NMI level and CHIP_BUSY are as they
were (R46), and so is everything that is not the block's (log 24). -/
def resetStep (s : State) : State :=
  let d := s.draws
  { s with
    cmd := 0x00
    busy := false
    err := false
    errCode := 0
    addr := pair (Config.freeByte d 1) (Config.freeByte d 0)
    wdata := Config.freeByte d 2
    rdata := Config.freeByte d 3
    paddr := wordOf (Config.freeByte d 7) (Config.freeByte d 6) (Config.freeByte d 5) (Config.freeByte d 4)
    nbuf := Cells.writeList [] 0 (freeBytes (d + 1) 256)
    fbuf := Cells.writeList [] 0 (freeBytes (d + 2) s.cfg.pmPageSize)
    pins := Pins.idle s.cfg (Config.freeByte d 8) (Config.freeByte d 9) (Config.freeByte d 10)
    link := { cs := false, sck := s.cfg.serIdleHigh, mosi := Config.freeByte d 11, miso := Config.freeByte d 12 }
    gie := false
    pm := resetPm s
    appRdEn := true
    seq := .idle
    hold := 0
    frames := []
    rx := []
    bidx := 0
    savedIe := false
    wbuf := Cells.writeList [] 0 (freeHalves (d + 3) (pageWords s.cfg))
    widx := 0
    flashBusy := false
    flashOp := none
    chip := { mem := resetMem s, wel := Config.freeBit d 0, busy := s.chip.busy, garbled := false }
    draws := d + 6 }

end Sys2Proof.Machine
end

