-- ==== Sys2Proof/Machine/Agents.lean ====
section
/-! DEFINITION. Which agent moves and what it does (00_scope.md R3, 60_exceptions.md R252): everything a step is made of
but the meaning of an instruction, which Machine/Step.lean takes from exec. -/

namespace Sys2Proof.Machine

/-- SEQ's step (R40): the active unit's phase; nothing while UNIT = NONE. -/
def seqStep (s : State) : Outcome :=
  match s.seq with
  | .idle => .next s
  | .bte d sp ph => .next (bteStep d sp ph s)
  | .nvc cap ph => nvcStep cap ph s
  | .frs ph => .next (frsStep ph s)

/-- What a step comes to: an instruction to run at a state, or an outcome already reached. -/
inductive Move where
  | run (i : Instr) (s : State)
  | done (o : Outcome)

/-- A window access of the host: the instruction it decodes to, or a plain read or write (R102, R103). -/
def access (a : Access) (s : State) : Move :=
  match decode a with
  | .ok i => .run i s
  | .error _ =>
    match a with
    | .write off v => .done (.next (hostWrite off v s))
    | .read off => .done (.next (hostRead off s))

/-- HOST's step: its next statement (R106). `wait` reads STATUS and stays as long as BUSY reads 1. A host with no
statement left does nothing to the block (log 3). -/
def hostMove (s : State) : Move :=
  match s.host with
  | [] => .done (.next s)
  | .wr off v :: rest => access (.write off v) { s with host := rest }
  | .rd off :: rest => access (.read off) { s with host := rest }
  | .wait :: rest => access (.read offStatus) (if s.busy then s else { s with host := rest })
  | .sei :: rest => .done (.next (hostSetGie true { s with host := rest }))
  | .cli :: rest => .done (.next (hostSetGie false { s with host := rest }))
  | .pmRead a :: rest => .done (hostPm .pmRead a { s with host := rest })
  | .pmFetch a :: rest => .done (hostPm .pmFetch a { s with host := rest })
  | .wide _ :: rest => .done (.next (hostWide { s with host := rest }))
  | .takeIrq src :: rest => .done (.next (hostTakeIrq src { s with host := rest }))

/-- Whose turn it is: the first of `turns`, or any agent when none is listed (R252; log 2). -/
def takeTurn (s : State) : Turn × State :=
  match s.turns with
  | t :: rest => (t, { s with turns := rest })
  | [] => (Config.freeTurn s.draws, drew 1 s)

/-- One agent's move (R3). -/
def agentMove (t : Turn) (s : State) : Move :=
  match t with
  | .host => hostMove s
  | .seq => .done (seqStep s)
  | .xbusNmi level => .done (.next { s with nmi := level })
  | .irq src => .done (.next (requestIrq src s))
  | .nvmChip => .done (.next (chipStep s))
  | .flash => .done (.next (flashStep s))
  | .reset => .done (.next (resetStep s))

/-- The machine's next move; a parameter set that breaks R6 is refused (log 30). -/
def nextMove (s : State) : Move :=
  if s.cfg.ok then agentMove (takeTurn s).1 (takeTurn s).2 else .done (.refused .badParameters)

/-- The host statement that makes an access. -/
def accessStmt (a : Access) : HostStmt :=
  match a with
  | .write off v => .wr off v
  | .read off => .rd off

end Sys2Proof.Machine
end

