-- ==== Sys2Proof/Machine/Dispatch.lean ====
section
/-! DEFINITION. One arm per instruction, each a direct call of its meaning. -/

namespace Sys2Proof.Machine

def exec (i : Instr) (s : State) : Host.Outcome State Fault Refusal :=
  match i with
  | .busWr sp => Sys2Proof.Machine.execBusWr sp s
  | .busRd sp => Sys2Proof.Machine.execBusRd sp s
  | .nvmWren b => Sys2Proof.Machine.execNvmWren b s
  | .nvmWrByte b => Sys2Proof.Machine.execNvmWrByte b s
  | .nvmRdByte b => Sys2Proof.Machine.execNvmRdByte b s
  | .nvmWrPage b => Sys2Proof.Machine.execNvmWrPage b s
  | .nvmRdPage b => Sys2Proof.Machine.execNvmRdPage b s
  | .stoWrite b => Sys2Proof.Machine.execStoWrite b s
  | .stoRead b => Sys2Proof.Machine.execStoRead b s
  | .flashProg b => Sys2Proof.Machine.execFlashProg b s
  | .getNmi => Sys2Proof.Machine.execGetNmi s

end Sys2Proof.Machine
end

