-- ==== Sys2Proof/Machine/Step.lean ====
section
/-! DEFINITION. One step of the machine: the next agent's move (60_exceptions.md R252), and where that is a host access
that decodes to an instruction, the instruction's meaning. -/

namespace Sys2Proof.Machine

def step (s : State) : Host.Outcome State Fault Refusal :=
  match nextMove s with
  | .run i s' => exec i s'
  | .done o => o

/-- The state in which the next step is the host's, and the host's next statement is the access an opcode-table word
stands for (log 3, log 4). -/
def State.withFetchWord (s : State) (nbits w : Nat) : State :=
  if nbits ≤ 8 then { s with turns := .host :: s.turns, host := accessStmt (tableAccess w) :: s.host } else s

end Sys2Proof.Machine
end

