-- ==== Sys2Proof/Safety.lean ====
section
/-! DEFINITION. What claims are stated in: a safe run (60_exceptions.md R248), runs under a listed order of agents
(R252), the pins step by step and the observable trace (41_bus_engine.md R136), and the machine's invariant, part by part. -/

namespace Sys2Proof.Machine

/-- "FAULTS is empty" (R248): the premise of a claim about a run. -/
def Safe (s : State) : Prop := s.faults = []

/-- The state in which an agent moves next. -/
def agentTurn (t : Turn) (s : State) : State := { s with turns := t :: s.turns }

/-- One step for each listed agent, in the listed order; stops at the first fault or refusal. -/
def runTurns (ts : List Turn) (s : State) : Outcome :=
  match ts with
  | [] => .next s
  | t :: rest =>
    match step (agentTurn t s) with
    | .next u => runTurns rest u
    | .fault r => .fault r
    | .refused r => .refused r

/-- The pins after each of these steps, clock by clock (R121); the trace of R136 is `busTrace`. -/
def pinTrace (ts : List Turn) (s : State) : List Pins :=
  match ts with
  | [] => []
  | t :: rest =>
    match step (agentTurn t s) with
    | .next u => u.pins :: pinTrace rest u
    | .fault _ => []
    | .refused _ => []

/-- A pin state as the trace lists it (R136): D only while the block drives it. -/
structure PinState where
  rd : Bool
  wr : Bool
  selm : Bool
  seli : Bool
  aux : Bool
  ddir : Bool
  d : Option Byte
  ah : Byte
  al : Byte
  deriving DecidableEq, Repr

/-- The pin state of the BTE's pins (R136). -/
def pinState (p : Pins) : PinState :=
  ⟨p.rd, p.wr, p.selm, p.seli, p.aux, p.ddir, if p.ddir then some p.dout else none, p.ah, p.al⟩

/-- Does SEQ's next step start a phase of a transaction? The later clocks of B7 start none (R121). -/
def startsPhase (s : State) : Bool :=
  match s.seq with
  | .bte _ _ ph => ph != .b7 || s.hold == 0
  | .idle | .nvc _ _ | .frs _ => false

/-- Is this entry of HIST a BusEvent (R133)? -/
def isBusEvent (e : Event) : Bool :=
  match e with
  | .bus _ _ _ _ => true
  | .frame _ _ | .flashErase _ | .flashWrite _ _ | .flashDone _ | .hostWrite _ _ | .hostRead _ _ | .pmRead _ _
  | .pmFetch _ _ => false

/-- What XBUS can observe (R136): the pin states at the start of each phase, and the BusEvents. -/
structure BusTrace where
  states : List PinState
  events : List Event
  deriving DecidableEq, Repr

/-- The observable trace under a listed order of agents (R136): a pin state for each phase SEQ starts, however many steps
lie between two of them, and the BusEvents the steps append to HIST. -/
def busTrace (ts : List Turn) (s : State) : BusTrace :=
  match ts with
  | [] => ⟨[], []⟩
  | t :: rest =>
    match step (agentTurn t s) with
    | .next u =>
      { states := (if t = .seq ∧ startsPhase s = true then [pinState u.pins] else []) ++ (busTrace rest u).states
        events := (u.hist.drop s.hist.length).filter isBusEvent ++ (busTrace rest u).events }
    | .fault _ => ⟨[], []⟩
    | .refused _ => ⟨[], []⟩

/-- The state in which the host's next statement is `st` and the host moves next. -/
def hostTurn (st : HostStmt) (s : State) : State := { s with turns := .host :: s.turns, host := st :: s.host }

/-- The set FAULTS with one more fault (R44, R247). -/
def withFault (f : ModelFault) (l : List ModelFault) : List ModelFault := if f ∈ l then l else l ++ [f]

/-- What `raise Violation(code)` does to a state (R243), the code given by number (R242). -/
def violated (v : Violation) (code : BitVec 3) (s : State) : State :=
  { s with
    err := true
    errCode := if s.err then s.errCode else code
    faults := withFault (.violation v) s.faults }

/-- Does a host write at this offset need BUSY = 0 (R244, offsets of R91)? -/
def guardedOffset (c : Config) (off : Off) : Prop :=
  off.toNat = 0x0000 ∨ (0x0002 ≤ off.toNat ∧ off.toNat ≤ 0x0004) ∨ (0x0008 ≤ off.toNat ∧ off.toNat ≤ 0x000B) ∨
    (0x0100 ≤ off.toNat ∧ off.toNat ≤ 0x01FF) ∨ (0x2000 ≤ off.toNat ∧ off.toNat < 0x2000 + c.pmPageSize)

/-- The reserved offsets (R91, R94). -/
def reservedOffset (c : Config) (off : Off) : Prop :=
  (0x0006 ≤ off.toNat ∧ off.toNat ≤ 0x0007) ∨ (0x000C ≤ off.toNat ∧ off.toNat ≤ 0x00FF) ∨
    (0x0200 ≤ off.toNat ∧ off.toNat ≤ 0x1FFF) ∨ 0x2000 + c.pmPageSize ≤ off.toNat

/-- The chip is not in a write cycle (R187). -/
def chipReady (s : State) : Prop := s.cfg.nvmWriteCycle = true → s.chip.busy = false

/-- The page premise: no page limit, or one of at least 256 bytes (R188). -/
def chipPageFits (c : Config) : Prop := c.nvmChipPage = 0 ∨ 256 ≤ c.nvmChipPage

/-- The page premise for a write frame of `n` data bytes: no page limit that counts, or one the data do not exceed
(R188). -/
def chipPageTakes (c : Config) (n : Nat) : Prop := c.nvmChipPage = 0 ∨ 256 ≤ c.nvmChipPage ∨ n ≤ c.nvmChipPage

/-- PADDR passes FLASH_PROG's checks (R201): aligned, in PM, clear of the resident region. -/
def flashTargetOk (s : State) : Prop :=
  s.paddr.toNat % s.cfg.pmPageSize = 0 ∧ s.paddr.toNat + s.cfg.pmPageSize ≤ s.cfg.pmSize ∧
    (s.paddr.toNat + s.cfg.pmPageSize ≤ s.cfg.resBase ∨ s.cfg.resBase + s.cfg.resSize ≤ s.paddr.toNat)

/-- The schedule of a FLASH_PROG whose erase completes after `a` extra waits and whose write completes after `b` (R202,
R206, R209). -/
def flashTurns (c : Config) (a b : Nat) : List Turn :=
  List.replicate (3 + a) .seq ++ [.flash] ++ List.replicate (1 + c.pmPageSize / 2 + 1 + b) .seq ++ [.flash] ++
    List.replicate 3 .seq

/-- The pins of an idle bus (R120) with the latch and the address they hold. -/
def idlePins (c : Config) (dout : Byte) (a : Half) : Pins :=
  ⟨false, false, c.selIdle.1, c.selIdle.2, false, true, dout, a.extractLsb' 8 8, a.extractLsb' 0 8⟩

/-! ### The invariant -/

/-- The levels of the BTE's control pins. -/
structure Control where
  rd : Bool
  wr : Bool
  selm : Bool
  seli : Bool
  aux : Bool
  ddir : Bool
  deriving DecidableEq, Repr

/-- The control levels of a pin configuration. -/
def controlOf (p : Pins) : Control := ⟨p.rd, p.wr, p.selm, p.seli, p.aux, p.ddir⟩

/-- AUX is 1 from B2 until B5 (R125); `ph` is the next phase. -/
def auxOn (ph : BtePhase) : Bool :=
  match ph with
  | .b3 | .b4 | .b5 => true
  | .b1 | .b2 | .b6 | .b7 | .b8 | .b9a | .b9b | .b9c => false

/-- A strobe is asserted from B6 until B9a (R121). -/
def strobeOn (ph : BtePhase) : Bool :=
  match ph with
  | .b7 | .b8 | .b9a => true
  | .b1 | .b2 | .b3 | .b4 | .b5 | .b6 | .b9b | .b9c => false

/-- The space is selected from B2 until B9b (R121). -/
def spaceOn (ph : BtePhase) : Bool :=
  match ph with
  | .b3 | .b4 | .b5 | .b6 | .b7 | .b8 | .b9a | .b9b => true
  | .b1 | .b2 | .b9c => false

/-- D is released from B3 until B9c of a read (R121). -/
def dataIn (ph : BtePhase) : Bool :=
  match ph with
  | .b4 | .b5 | .b6 | .b7 | .b8 | .b9a | .b9b | .b9c => true
  | .b1 | .b2 | .b3 => false

/-- The address pins hold ADDR from B4 on (R121). -/
def addressOn (ph : BtePhase) : Bool :=
  match ph with
  | .b5 | .b6 | .b7 | .b8 | .b9a | .b9b | .b9c => true
  | .b1 | .b2 | .b3 | .b4 => false

/-- What the control pins are, whatever the block is doing: IDLE (R120) outside a bus transaction, the table of R121
inside one. -/
def expectedControl (c : Config) (a : Activity) : Control :=
  match a with
  | .bte d sp ph =>
    { rd := decide (d = .read) && strobeOn ph
      wr := decide (d = .write) && strobeOn ph
      selm := if spaceOn ph then (selOf sp).1 else c.selIdle.1
      seli := if spaceOn ph then (selOf sp).2 else c.selIdle.2
      aux := auxOn ph
      ddir := !(decide (d = .read) && dataIn ph) }
  | .idle | .nvc _ _ | .frs _ => ⟨false, false, c.selIdle.1, c.selIdle.2, false, true⟩

/-- BUSY = 1 exactly while a unit is active (R40, R241). -/
def BusyInv (s : State) : Prop := s.busy = true ↔ unitOf s.seq ≠ .none

/-- The control pins are those of the phase (R120, R121, R132), and the address pins hold ADDR from B4 on. -/
def PinsInv (s : State) : Prop :=
  controlOf s.pins = expectedControl s.cfg s.seq ∧
    ∀ d sp ph, s.seq = .bte d sp ph → addressOn ph = true → s.pins.ah = hiByte s.addr ∧ s.pins.al = loByte s.addr

/-- CS is asserted exactly while a frame's bytes are exchanged (R162). -/
def LinkInv (s : State) : Prop := s.link.cs = true ↔ ∃ cap, s.seq = .nvc cap .x ∨ s.seq = .nvc cap .ds

/-- HOLD counts in B7 only and is 0 between transactions (R41, R121). -/
def HoldInv (s : State) : Prop :=
  match s.seq with
  | .bte d _ .b7 => s.hold < holdCycles s.cfg d
  | .bte d _ .b8 | .bte d _ .b9a | .bte d _ .b9b | .bte d _ .b9c => s.hold = holdCycles s.cfg d
  | .bte _ _ .b1 | .bte _ _ .b2 | .bte _ _ .b3 | .bte _ _ .b4 | .bte _ _ .b5 | .bte _ _ .b6 => s.hold = 0
  | .idle | .nvc _ _ | .frs _ => s.hold = 0

/-- FRAMES is empty outside an NVM command; the frames to send are ones the NVC sends, of at most 259 bytes; the bytes
received are those of the frame in progress; BIDX is at most 258 (R42, R162, R163). -/
def FramesInv (s : State) : Prop :=
  s.bidx ≤ 258 ∧
  match s.seq with
  | .nvc _ ph =>
    (∀ t ∈ s.frames, wireFrameOk t = true ∧ t.length ≤ 259) ∧
    match ph with
    | .noop => s.frames = []
    | .cs | .gap => s.frames ≠ []
    | .x => ∃ t rest, s.frames = t :: rest ∧ s.rx.length < t.length
    | .ds => ∃ t rest, s.frames = t :: rest ∧ s.rx.length = t.length
  | .idle | .bte _ _ _ | .frs _ => s.frames = []

/-- While FLASH_PROG runs PADDR passes its checks (R201); APP_RD_EN is 0 exactly from F3 to F8 (R205, R210); an operation
is pending only in F4 (the erase) or F7 (the write), on the command's page (R205 to R209); WIDX counts in F5 (R43). -/
def FlashInv (s : State) : Prop :=
  (unitOf s.seq = .frs → flashCheck s = none) ∧
  (s.appRdEn = !pageInFlight s.seq) ∧
  (s.flashBusy = s.flashOp.isSome) ∧
  (s.flashBusy = true →
    (s.seq = .frs .f4 ∧ s.flashOp = some (.erase (flashPage s))) ∨
    (s.seq = .frs .f7 ∧ s.flashOp = some (.write (flashPage s)))) ∧
  match s.seq with
  | .frs .f5 => s.widx < pageWords s.cfg
  | .frs .f6 | .frs .f7 | .frs .f8 | .frs .f9 => s.widx = pageWords s.cfg
  | .frs .f1 | .frs .f2 | .frs .f3 | .frs .f4 => s.widx = 0
  | .idle | .bte _ _ _ | .nvc _ _ => s.widx = 0

/-- ERRCODE is 0 while ERR = 0, and the code of a recorded violation while ERR = 1 (R22, R243). -/
def ErrInv (s : State) : Prop :=
  (s.err = false → s.errCode = 0) ∧
  (s.err = true → ∃ v, s.errCode = violationCode v ∧ ModelFault.violation v ∈ s.faults)

/-- From F2 to F9 the host's interrupts are masked, unless the host changed GIE (R204, R216). -/
def MaskInv (s : State) : Prop :=
  interruptsMasked s.seq = true → s.gie = false ∨ ModelFault.gieWrite ∈ s.faults

/-- Every memory is in canonical form (log 8). -/
def MemInv (s : State) : Prop :=
  Memory.wf s.nbuf = true ∧ Memory.wf s.fbuf = true ∧ Cells.wf s.wbuf = true ∧ Memory.wf s.pm = true ∧
    Memory.wf s.chip.mem = true

/-- No memory lists an address it does not have (R27, R28, R43, R63, R64). -/
def BoundsInv (s : State) : Prop :=
  s.nbuf.below 256 = true ∧ s.fbuf.below s.cfg.pmPageSize = true ∧ s.wbuf.below (pageWords s.cfg) = true ∧
    s.pm.below s.cfg.pmSize = true ∧ s.chip.mem.below s.cfg.nvmCapacity = true

/-- The machine's invariant. -/
structure Inv (s : State) : Prop where
  params : s.cfg.ok = true
  busy : BusyInv s
  pins : PinsInv s
  link : LinkInv s
  hold : HoldInv s
  frames : FramesInv s
  flash : FlashInv s
  err : ErrInv s
  mask : MaskInv s
  mem : MemInv s
  bounds : BoundsInv s
  faults : s.faults.Nodup
  irqs : s.irqs.Nodup

end Sys2Proof.Machine
end

