-- ==== Sys2Proof/Certificates/Slice0/Obligations.lean ====
section
/-! DEFINITION. The statements for the provers. Each docstring says which rule of spec/ it formalises. A `runTurns`
statement lists only the turns of the command's own run; what the other agents do between them is the invariants'. -/

open Sys2Proof Sys2Proof.Machine

/-! ### Steps, decoding, parameters -/

/-- A step runs the decoded instruction: when the host moves and its next statement is an access that decodes to `i`,
the step is exec of `i`; and a `wait` is a STATUS read that stays until BUSY reads 0 (R102, R106). -/
def Obligations.StepRunsDecodedInstruction : Prop :=
  (∀ (s : State) (a : Access) (i : Instr), s.cfg.ok = true → decode a = .ok i →
    step (hostTurn (accessStmt a) s) = exec i s) ∧
  (∀ s : State, s.cfg.ok = true → s.busy = false → step (hostTurn .wait s) = exec .getNmi s) ∧
  (∀ s : State, s.cfg.ok = true → s.busy = true →
    step (hostTurn .wait s) = exec .getNmi { s with host := .wait :: s.host })

/-- The first step after an opcode-table word is placed runs the instruction the decoder reads from it. -/
def Obligations.PlacedWordRunsNext : Prop :=
  ∀ (s : State) (nbits w : Nat) (i : Instr), s.cfg.ok = true → decodeTableWord nbits w = some i →
    step (s.withFetchWord nbits w) = exec i s

/-- Words of the opcode map written out (R95, R96, R97, R99). -/
def Obligations.OpcodeWordsDecode : Prop :=
  decodeCmd 0b00000001#8 = .ok (.busWr .memory) ∧ decodeCmd 0b00010010#8 = .ok (.busRd .io) ∧
  decodeCmd 0b00010100#8 = .ok (.nvmWren true) ∧ decodeCmd 0b00000101#8 = .ok (.nvmWrByte false) ∧
  decodeCmd 0b00000111#8 = .ok (.nvmWrPage false) ∧ decodeCmd 0b00001010#8 = .ok (.stoRead false) ∧
  decodeCmd 0b00001011#8 = .ok (.flashProg false) ∧ decodeCmd 0b00101011#8 = .error .reservedBits ∧
  decodeCmd 0b00000011#8 = .error .reservedOp ∧ decode (.read 0x0001) = .ok .getNmi

/-- Decode and encode agree on every instruction and every operand, and no access decodes to two (R95, R96, R97). -/
def Obligations.DecodeEncodeAgree : Prop :=
  (∀ i : Instr, decode (encode i) = .ok i) ∧ (∀ (a : Access) (i : Instr), decode a = .ok i → encode i = a)

/-- A parameter set that breaks one of R6's constraints is refused by every step. -/
def Obligations.BadParametersRefused : Prop :=
  ∀ s : State,
    ¬(s.cfg.nvmCapacity % 256 = 0 ∧ 256 ≤ s.cfg.nvmCapacity ∧ s.cfg.nvmCapacity ≤ 65536 ∧
      (∃ k, 1 ≤ k ∧ k ≤ 13 ∧ s.cfg.pmPageSize = 2 ^ k) ∧ s.cfg.pmSize % s.cfg.pmPageSize = 0 ∧
      s.cfg.resBase % s.cfg.pmPageSize = 0 ∧ s.cfg.resSize % s.cfg.pmPageSize = 0 ∧
      s.cfg.resBase + s.cfg.resSize ≤ s.cfg.pmSize ∧ 1 ≤ s.cfg.readHold ∧ 1 ≤ s.cfg.writeHold) →
    step s = .refused .badParameters

/-! ### The host's accesses -/

/-- R99 (with the codes of R242): an illegal CMD byte raises ILLEGAL_CMD while BUSY = 0 and OVERLAP while BUSY = 1;
CMD is unchanged and nothing starts. -/
def Obligations.IllegalCommandByteRefused : Prop :=
  ∀ (s : State) (v : Byte), s.cfg.ok = true →
    (v.extractLsb' 5 3 ≠ 0 ∨ (v.extractLsb' 0 4).toNat = 0x0 ∨ (v.extractLsb' 0 4).toNat = 0x3 ∨
      0xC ≤ (v.extractLsb' 0 4).toNat) →
    step (hostTurn (.wr 0x0000 v) s) =
      .next (if s.busy then violated .overlap 2 { s with hist := s.hist ++ [.hostWrite 0x0000 v] }
        else violated .illegalCmd 1 { s with hist := s.hist ++ [.hostWrite 0x0000 v] })

/-- R244: while BUSY = 1 a write of a guarded offset raises OVERLAP and changes nothing else; any other write is
ignored; reads are never violations. -/
def Obligations.OverlapRefused : Prop :=
  ∀ (s : State) (off : Off) (v : Byte), s.cfg.ok = true → s.busy = true →
    (guardedOffset s.cfg off →
      step (hostTurn (.wr off v) s) =
        .next (violated .overlap 2 { s with hist := s.hist ++ [.hostWrite off v] })) ∧
    (¬guardedOffset s.cfg off →
      step (hostTurn (.wr off v) s) = .next { s with hist := s.hist ++ [.hostWrite off v] }) ∧
    (∃ x d, step (hostTurn (.rd off) s) = .next { s with hist := s.hist ++ [.hostRead off x], draws := d })

/-- R91, R92 with BUSY = 0: a write of an operand register's byte changes that byte only. -/
def Obligations.OperandWritesChangeOneByte : Prop :=
  ∀ (s : State) (v : Byte), s.cfg.ok = true → s.busy = false →
    (∃ x : Half, x.extractLsb' 0 8 = v ∧ x.extractLsb' 8 8 = s.addr.extractLsb' 8 8 ∧
      step (hostTurn (.wr 0x0002 v) s) = .next { s with addr := x, hist := s.hist ++ [.hostWrite 0x0002 v] }) ∧
    (∃ x : Half, x.extractLsb' 8 8 = v ∧ x.extractLsb' 0 8 = s.addr.extractLsb' 0 8 ∧
      step (hostTurn (.wr 0x0003 v) s) = .next { s with addr := x, hist := s.hist ++ [.hostWrite 0x0003 v] }) ∧
    (step (hostTurn (.wr 0x0004 v) s) = .next { s with wdata := v, hist := s.hist ++ [.hostWrite 0x0004 v] }) ∧
    (∀ (off : Off) (k : Nat), k < 4 → off.toNat = 0x0008 + k →
      ∃ x : Word, (∀ j < 4, x.extractLsb' (8 * j) 8 = if j = k then v else s.paddr.extractLsb' (8 * j) 8) ∧
        step (hostTurn (.wr off v) s) = .next { s with paddr := x, hist := s.hist ++ [.hostWrite off v] })

/-- R91, R93 with BUSY = 0: a write of a buffer byte changes that byte only. -/
def Obligations.BufferWritesChangeOneByte : Prop :=
  ∀ (s : State) (off : Off) (v : Byte) (k : Nat), s.cfg.ok = true → s.busy = false →
    Memory.wf s.nbuf = true → Memory.wf s.fbuf = true →
    (k < 256 → off.toNat = 0x0100 + k →
      ∃ m : Memory, (∀ j, m.read j = if j = k then v else s.nbuf.read j) ∧
        step (hostTurn (.wr off v) s) = .next { s with nbuf := m, hist := s.hist ++ [.hostWrite off v] }) ∧
    (k < s.cfg.pmPageSize → off.toNat = 0x2000 + k →
      ∃ m : Memory, (∀ j, m.read j = if j = k then v else s.fbuf.read j) ∧
        step (hostTurn (.wr off v) s) = .next { s with fbuf := m, hist := s.hist ++ [.hostWrite off v] })

/-- R94: a reserved offset reads 0x00 and ignores writes, whatever BUSY is; never a violation, no other effect. And
R91: writes of STATUS and RDATA are ignored. -/
def Obligations.ReservedOffsetsInert : Prop :=
  ∀ (s : State) (off : Off) (v : Byte), s.cfg.ok = true →
    (reservedOffset s.cfg off →
      step (hostTurn (.rd off) s) = .next { s with hist := s.hist ++ [.hostRead off 0x00] }) ∧
    (reservedOffset s.cfg off ∨ off = 0x0001 ∨ off = 0x0005 →
      step (hostTurn (.wr off v) s) = .next { s with hist := s.hist ++ [.hostWrite off v] })

/-- The read column of R91 (with R22, R92): what each offset reads, and that only HIST changes (R103). CMD, ADDR,
WDATA, PADDR and FBUF read so whatever BUSY is; RDATA and NBUF with BUSY = 0. -/
def Obligations.HostReadColumn : Prop :=
  ∀ (s : State) (off : Off), s.cfg.ok = true →
    let gives := fun x : Byte => step (hostTurn (.rd off) s) = .next { s with hist := s.hist ++ [.hostRead off x] }
    (off = 0x0000 → gives s.cmd) ∧
    (off = 0x0002 → gives (s.addr.extractLsb' 0 8)) ∧
    (off = 0x0003 → gives (s.addr.extractLsb' 8 8)) ∧
    (off = 0x0004 → gives s.wdata) ∧
    (off = 0x0005 → s.busy = false → gives s.rdata) ∧
    (∀ k < 4, off.toNat = 0x0008 + k → gives (s.paddr.extractLsb' (8 * k) 8)) ∧
    (∀ k < 256, off.toNat = 0x0100 + k → s.busy = false → gives (s.nbuf.read k)) ∧
    (∀ k < s.cfg.pmPageSize, off.toNat = 0x2000 + k → gives (s.fbuf.read k))

/-- R105: while BUSY = 1 a read of RDATA or of an NBUF byte returns a free value (log 9). -/
def Obligations.ResultsUnspecifiedWhileBusy : Prop :=
  ∀ (s : State) (off : Off), s.cfg.ok = true → s.busy = true →
    (off = 0x0005 ∨ (0x0100 ≤ off.toNat ∧ off.toNat ≤ 0x01FF)) →
    step (hostTurn (.rd off) s) =
      .next { s with hist := s.hist ++ [.hostRead off (Config.freeByte s.draws 0)], draws := s.draws + 1 }

/-- GETNMI (R129) and the STATUS byte (R22, R33): the read returns BUSY, ERR, ERRCODE and the live NMI level in their
bits, bits 7:6 are 0, and nothing but HIST changes. -/
def Obligations.GetNmiReadsStatus : Prop :=
  ∀ s : State, ∃ v : Byte,
    exec .getNmi s = .next { s with hist := s.hist ++ [.hostRead 0x0001 v] } ∧
    v.getLsbD 0 = s.busy ∧ v.getLsbD 1 = s.err ∧ v.extractLsb' 2 3 = s.errCode ∧ v.getLsbD 5 = s.nmi ∧
    v.extractLsb' 6 2 = 0

/-- A command given while BUSY = 1 is refused with OVERLAP and has no other effect (R102, R244, R246). -/
def Obligations.CommandsRefusedWhileBusy : Prop :=
  ∀ (s : State) (i : Instr), i ≠ .getNmi → s.busy = true →
    exec i s = .next (violated .overlap 2 { s with hist := s.hist ++ [.hostWrite 0x0000 (encodeCmd i)] })

/-- The host's `sei` and `cli` set GIE; a change of it between F2 and F9 is MF_GIE_WRITE (R216). That only a change of
value counts and that the write takes effect is the model's reading (log 19). -/
def Obligations.GieChangeFaults : Prop :=
  ∀ (s : State) (v : Bool), s.cfg.ok = true →
    step (hostTurn (if v then .sei else .cli) s) =
      .next { s with
        gie := v
        faults :=
          if s.gie ≠ v ∧ (s.seq = .frs .f3 ∨ s.seq = .frs .f4 ∨ s.seq = .frs .f5 ∨ s.seq = .frs .f6 ∨
              s.seq = .frs .f7 ∨ s.seq = .frs .f8 ∨ s.seq = .frs .f9)
          then withFault .gieWrite s.faults else s.faults }

/-- R215: while APP_RD_EN = 0 a host fetch or read of an application byte records MF_APP_ACCESS; the resident region
is unaffected, and with APP_RD_EN = 1 every byte reads as PM holds it. That the byte read is then a free value (log
17), that the access stands in HIST (log 21), and the fault beyond PM_SIZE (log 20) are the model's. -/
def Obligations.ProgramMemoryReads : Prop :=
  ∀ (s : State) (a : Word), s.cfg.ok = true →
    (s.cfg.pmSize ≤ a.toNat →
      step (hostTurn (.pmRead a) s) = .fault .pmOutside ∧ step (hostTurn (.pmFetch a) s) = .fault .pmOutside) ∧
    (a.toNat < s.cfg.pmSize →
      (s.appRdEn = true ∨ (s.cfg.resBase ≤ a.toNat ∧ a.toNat < s.cfg.resBase + s.cfg.resSize)) →
      step (hostTurn (.pmRead a) s) = .next { s with hist := s.hist ++ [.pmRead a (s.pm.read a.toNat)] } ∧
      step (hostTurn (.pmFetch a) s) = .next { s with hist := s.hist ++ [.pmFetch a (s.pm.read a.toNat)] }) ∧
    (a.toNat < s.cfg.pmSize → s.appRdEn = false →
      ¬(s.cfg.resBase ≤ a.toNat ∧ a.toNat < s.cfg.resBase + s.cfg.resSize) →
      ∃ x y,
        step (hostTurn (.pmRead a) s) = .next { s with
          hist := s.hist ++ [.pmRead a x], faults := withFault .appAccess s.faults, draws := s.draws + 1 } ∧
        step (hostTurn (.pmFetch a) s) = .next { s with
          hist := s.hist ++ [.pmFetch a y], faults := withFault .appAccess s.faults, draws := s.draws + 1 })

/-- A non-byte access records MF_HOST_WIDTH and changes nothing else (R65, R247; log 18); the NMI line follows XBUS
and nothing else moves with it (R33); an interrupt request stays pending, and is taken only while GIE = 1 (R217; log
22). -/
def Obligations.OutsideEvents : Prop :=
  ∀ (s : State) (off : Off) (b : Bool) (src : IrqSource), s.cfg.ok = true →
    step (hostTurn (.wide off) s) = .next { s with faults := withFault .hostWidth s.faults } ∧
    step (agentTurn (.xbusNmi b) s) = .next { s with nmi := b } ∧
    step (agentTurn (.irq src) s) = .next { s with irqs := if src ∈ s.irqs then s.irqs else s.irqs ++ [src] } ∧
    (s.gie = false → step (hostTurn (.takeIrq src) s) = .next s) ∧
    (s.gie = true → ∃ l, (∀ x, x ∈ l ↔ x ∈ s.irqs ∧ x ≠ src) ∧
      step (hostTurn (.takeIrq src) s) = .next { s with irqs := l })

/-! ### Bus commands -/

/-- BUS_WR from start to end (R122): the accepting step, then 9 + WRITE_HOLD_CYCLES sequencer steps; the event with
the address and the byte, DOUT = WDATA, every control line at IDLE, and nothing else changed. -/
def Obligations.BusWriteRuns : Prop :=
  ∀ (s : State) (sp : Space), s.cfg.ok = true → s.busy = false → s.hold = 0 →
    ∃ t, exec (.busWr sp) s = .next t ∧
      t = { s with
        cmd := if sp = .io then 0x11 else 0x01
        busy := true
        seq := .bte .write sp .b1
        hist := s.hist ++ [.hostWrite 0x0000 (if sp = .io then 0x11 else 0x01)] } ∧
      runTurns (List.replicate (9 + s.cfg.writeHold) .seq) t = .next { t with
        busy := false
        seq := .idle
        pins := idlePins s.cfg s.wdata s.addr
        hist := t.hist ++ [.bus .write sp s.addr s.wdata] }

/-- BUS_RD from start to end (R123): RDATA is the byte XBUS answers, the event is recorded, every control line is at
IDLE, DOUT is a free value (R127), and nothing else changed. The byte is the next one listed, or a free value with
none listed (R134, log 12); under the echo device it is the data of the latest write event to the space and address in
HIST, or a free value where there is none (R135). -/
def Obligations.BusReadRuns : Prop :=
  ∀ (s : State) (sp : Space), s.cfg.ok = true → s.busy = false → s.hold = 0 →
    ∃ t, exec (.busRd sp) s = .next t ∧
      t = { s with
        cmd := if sp = .io then 0x12 else 0x02
        busy := true
        seq := .bte .read sp .b1
        hist := s.hist ++ [.hostWrite 0x0000 (if sp = .io then 0x12 else 0x02)] } ∧
      let ends := fun (v : Byte) (x : Responder) (d : Nat) =>
        runTurns (List.replicate (10 + s.cfg.readHold) .seq) t = .next { t with
          busy := false
          seq := .idle
          rdata := v
          xbus := x
          draws := d + 1
          pins := idlePins s.cfg (Config.freeByte d 0) s.addr
          hist := t.hist ++ [.bus .read sp s.addr v] }
      (∀ v rest, s.xbus = .answers (v :: rest) → ends v (.answers rest) s.draws) ∧
      (s.xbus = .answers [] → ends (Config.freeByte s.draws 0) (.answers []) (s.draws + 1)) ∧
      (∀ v older newer, s.xbus = .echo → s.hist = older ++ .bus .write sp s.addr v :: newer →
        (∀ w, Event.bus .write sp s.addr w ∉ newer) → ends v .echo s.draws) ∧
      (s.xbus = .echo → (∀ w, Event.bus .write sp s.addr w ∉ s.hist) →
        ends (Config.freeByte s.draws 0) .echo (s.draws + 1))

/-- The pins of a write clock by clock (R121): after each phase, B7 once per hold clock. -/
def Obligations.BusWriteTrace : Prop :=
  ∀ (s : State) (sp : Space), s.cfg.ok = true → s.hold = 0 → s.seq = .bte .write sp .b1 →
    let m := decide (sp = .memory)
    let i := decide (sp = .io)
    let p := s.pins
    let d := s.wdata
    let ah := s.addr.extractLsb' 8 8
    let al := s.addr.extractLsb' 0 8
    pinTrace (List.replicate (9 + s.cfg.writeHold) .seq) s =
      [ { p with rd := false, wr := false },
        ⟨false, false, m, i, true, p.ddir, p.dout, p.ah, p.al⟩,
        ⟨false, false, m, i, true, true, d, p.ah, p.al⟩,
        ⟨false, false, m, i, true, true, d, ah, al⟩,
        ⟨false, false, m, i, false, true, d, ah, al⟩,
        ⟨false, true, m, i, false, true, d, ah, al⟩ ] ++
      List.replicate s.cfg.writeHold ⟨false, true, m, i, false, true, d, ah, al⟩ ++
      [ ⟨false, false, m, i, false, true, d, ah, al⟩,
        ⟨false, false, s.cfg.selIdle.1, s.cfg.selIdle.2, false, true, d, ah, al⟩,
        ⟨false, false, s.cfg.selIdle.1, s.cfg.selIdle.2, false, true, d, ah, al⟩ ]

/-- The pins of a read clock by clock (R121): after each phase, B7 once per hold clock; what DOUT drives after B9c is
unspecified (R127). -/
def Obligations.BusReadTrace : Prop :=
  ∀ (s : State) (sp : Space), s.cfg.ok = true → s.hold = 0 → s.seq = .bte .read sp .b1 →
    let m := decide (sp = .memory)
    let i := decide (sp = .io)
    let p := s.pins
    let ah := s.addr.extractLsb' 8 8
    let al := s.addr.extractLsb' 0 8
    ∃ d, pinTrace (List.replicate (10 + s.cfg.readHold) .seq) s =
      [ { p with rd := false, wr := false },
        ⟨false, false, m, i, true, p.ddir, p.dout, p.ah, p.al⟩,
        ⟨false, false, m, i, true, false, p.dout, p.ah, p.al⟩,
        ⟨false, false, m, i, true, false, p.dout, ah, al⟩,
        ⟨false, false, m, i, false, false, p.dout, ah, al⟩,
        ⟨true, false, m, i, false, false, p.dout, ah, al⟩ ] ++
      List.replicate s.cfg.readHold ⟨true, false, m, i, false, false, p.dout, ah, al⟩ ++
      [ ⟨true, false, m, i, false, false, p.dout, ah, al⟩,
        ⟨false, false, m, i, false, false, p.dout, ah, al⟩,
        ⟨false, false, s.cfg.selIdle.1, s.cfg.selIdle.2, false, false, p.dout, ah, al⟩,
        ⟨false, false, s.cfg.selIdle.1, s.cfg.selIdle.2, false, true, d, ah, al⟩ ]

/-- The observable trace of a write (R136, R133): one pin state for each phase of R122, whatever WRITE_HOLD_CYCLES is,
with D while DDIR = 1, and the one write event. -/
def Obligations.BusWriteObservable : Prop :=
  ∀ (s : State) (sp : Space), s.cfg.ok = true → s.hold = 0 → s.seq = .bte .write sp .b1 →
    let m := decide (sp = .memory)
    let i := decide (sp = .io)
    let p := s.pins
    let d := s.wdata
    let ah := s.addr.extractLsb' 8 8
    let al := s.addr.extractLsb' 0 8
    let d₀ := if p.ddir then some p.dout else none
    busTrace (List.replicate (9 + s.cfg.writeHold) .seq) s =
      ⟨[ ⟨false, false, p.selm, p.seli, p.aux, p.ddir, d₀, p.ah, p.al⟩,
         ⟨false, false, m, i, true, p.ddir, d₀, p.ah, p.al⟩,
         ⟨false, false, m, i, true, true, some d, p.ah, p.al⟩,
         ⟨false, false, m, i, true, true, some d, ah, al⟩,
         ⟨false, false, m, i, false, true, some d, ah, al⟩,
         ⟨false, true, m, i, false, true, some d, ah, al⟩,
         ⟨false, true, m, i, false, true, some d, ah, al⟩,
         ⟨false, false, m, i, false, true, some d, ah, al⟩,
         ⟨false, false, s.cfg.selIdle.1, s.cfg.selIdle.2, false, true, some d, ah, al⟩,
         ⟨false, false, s.cfg.selIdle.1, s.cfg.selIdle.2, false, true, some d, ah, al⟩ ],
       [.bus .write sp s.addr d]⟩

/-- The observable trace of a read (R136, R133): one pin state for each phase of R123, whatever READ_HOLD_CYCLES is,
with no D from B3 until B9c drives it again (R127), and the one read event, whose byte is RDATA at the end. -/
def Obligations.BusReadObservable : Prop :=
  ∀ (s : State) (sp : Space), s.cfg.ok = true → s.hold = 0 → s.seq = .bte .read sp .b1 →
    let m := decide (sp = .memory)
    let i := decide (sp = .io)
    let p := s.pins
    let ah := s.addr.extractLsb' 8 8
    let al := s.addr.extractLsb' 0 8
    let d₀ := if p.ddir then some p.dout else none
    let ts := List.replicate (10 + s.cfg.readHold) Turn.seq
    ∃ d u, runTurns ts s = .next u ∧ busTrace ts s =
      ⟨[ ⟨false, false, p.selm, p.seli, p.aux, p.ddir, d₀, p.ah, p.al⟩,
         ⟨false, false, m, i, true, p.ddir, d₀, p.ah, p.al⟩,
         ⟨false, false, m, i, true, false, none, p.ah, p.al⟩,
         ⟨false, false, m, i, true, false, none, ah, al⟩,
         ⟨false, false, m, i, false, false, none, ah, al⟩,
         ⟨true, false, m, i, false, false, none, ah, al⟩,
         ⟨true, false, m, i, false, false, none, ah, al⟩,
         ⟨true, false, m, i, false, false, none, ah, al⟩,
         ⟨false, false, m, i, false, false, none, ah, al⟩,
         ⟨false, false, s.cfg.selIdle.1, s.cfg.selIdle.2, false, false, none, ah, al⟩,
         ⟨false, false, s.cfg.selIdle.1, s.cfg.selIdle.2, false, true, some d, ah, al⟩ ],
       [.bus .read sp s.addr u.rdata]⟩

/-- The echo round trip (R135, which the spec marks as its own inference; the responder is log 12's): with the echo
device, BUS_WR of a byte and then BUS_RD of the same space and address with no write to it between sets RDATA to the
byte. -/
def Obligations.EchoRoundTrip : Prop :=
  ∀ (s : State) (sp : Space) (w : Byte), s.cfg.ok = true → s.busy = false → s.hold = 0 → s.xbus = .echo →
    ∃ t u t' u', exec (.busWr sp) s = .next t ∧
      runTurns (List.replicate (9 + s.cfg.writeHold) .seq) t = .next u ∧
      exec (.busRd sp) { u with wdata := w } = .next t' ∧
      runTurns (List.replicate (10 + s.cfg.readHold) .seq) t' = .next u' ∧
      u'.rdata = s.wdata ∧ u'.busy = false

/-! ### NVM commands -/

/-- NVM_WREN from start to end (R164, R182): one frame [06], WEL = 1. What SCK, MOSI and MISO hold after the frame is
the model's (log 13). -/
def Obligations.NvmWriteEnableRuns : Prop :=
  ∀ (s : State) (b : Bool), s.cfg.ok = true → s.busy = false → chipReady s →
    ∃ t, exec (.nvmWren b) s = .next t ∧
      t = { s with
        cmd := if b then 0x14 else 0x04
        busy := true
        seq := .nvc .discard .cs
        frames := [[0x06]]
        hist := s.hist ++ [.hostWrite 0x0000 (if b then 0x14 else 0x04)] } ∧
      ∃ r, runTurns (List.replicate 3 .seq) t = .next { t with
        busy := false
        seq := .idle
        frames := []
        rx := []
        bidx := 0
        link := ⟨false, s.cfg.serIdleHigh, 0x06, r⟩
        draws := s.draws + 1
        chip := { s.chip with wel := true, garbled := false }
        hist := t.hist ++ [.frame [0x06] [r]] }

/-- NVM_WRBYTE from start to end, inside the chip (R165, R183): the write-enable frame, the write frame, and MEM[ADDR]
= WDATA with every other byte as it was, whatever the chip's page size (R188). What SCK, MOSI and MISO hold after the
frames is the model's (log 13). -/
def Obligations.NvmWriteByteRuns : Prop :=
  ∀ (s : State) (b : Bool), s.cfg.ok = true → s.busy = false → chipReady s →
    s.addr.toNat < s.cfg.nvmCapacity → Memory.wf s.chip.mem = true →
    ∃ t, exec (.nvmWrByte b) s = .next t ∧
      t = { s with
        cmd := if b then 0x15 else 0x05
        busy := true
        seq := .nvc .discard .cs
        frames := [[0x06], [0x02, s.addr.extractLsb' 8 8, s.addr.extractLsb' 0 8, s.wdata]]
        hist := s.hist ++ [.hostWrite 0x0000 (if b then 0x15 else 0x05)] } ∧
      ∃ r r0 r1 r2 r3 m, runTurns (List.replicate 10 .seq) t = .next { t with
          busy := false
          seq := .idle
          frames := []
          rx := []
          bidx := 0
          link := ⟨false, s.cfg.serIdleHigh, s.wdata, r3⟩
          draws := s.draws + 5
          chip := ⟨m, false, s.cfg.nvmWriteCycle, false⟩
          hist := t.hist ++ [.frame [0x06] [r],
            .frame [0x02, s.addr.extractLsb' 8 8, s.addr.extractLsb' 0 8, s.wdata] [r0, r1, r2, r3]] } ∧
        ∀ a, m.read a = if a = s.addr.toNat then s.wdata else s.chip.mem.read a

/-- NVM_RDBYTE from start to end, inside the chip (R166, R184): one read frame and RDATA = MEM[ADDR]; MEM unchanged.
What SCK, MOSI and MISO hold after the frame is the model's (log 13). -/
def Obligations.NvmReadByteRuns : Prop :=
  ∀ (s : State) (b : Bool), s.cfg.ok = true → s.busy = false → chipReady s → s.addr.toNat < s.cfg.nvmCapacity →
    ∃ t, exec (.nvmRdByte b) s = .next t ∧
      t = { s with
        cmd := if b then 0x16 else 0x06
        busy := true
        seq := .nvc .rdata .cs
        frames := [[0x03, s.addr.extractLsb' 8 8, s.addr.extractLsb' 0 8, s.cfg.nvmDummy]]
        hist := s.hist ++ [.hostWrite 0x0000 (if b then 0x16 else 0x06)] } ∧
      ∃ r0 r1 r2, runTurns (List.replicate 6 .seq) t = .next { t with
        busy := false
        seq := .idle
        frames := []
        rx := []
        bidx := 0
        rdata := s.chip.mem.read s.addr.toNat
        link := ⟨false, s.cfg.serIdleHigh, s.cfg.nvmDummy, s.chip.mem.read s.addr.toNat⟩
        draws := s.draws + 3
        chip := { s.chip with garbled := false }
        hist := t.hist ++ [.frame [0x03, s.addr.extractLsb' 8 8, s.addr.extractLsb' 0 8, s.cfg.nvmDummy]
          [r0, r1, r2, s.chip.mem.read s.addr.toNat]] }

/-- NVM_WRPAGE, and STO_WRITE in range, from start to end (R167, R169, R183): the write-enable frame, one write frame
of 259 bytes, and the page holds NBUF with every other byte of MEM as it was. -/
def Obligations.NvmWritePageRuns : Prop :=
  ∀ (s : State) (b : Bool) (i : Instr) (c : Byte), s.cfg.ok = true → s.busy = false → chipReady s →
    chipPageFits s.cfg → Memory.wf s.chip.mem = true → (s.addr.extractLsb' 0 8).toNat < s.cfg.nvmCapacity / 256 →
    (i = .nvmWrPage b ∧ c = (if b then 0x17 else 0x07)) ∨
      (i = .stoWrite b ∧ c = (if b then 0x19 else 0x09) ∧ s.addr.toNat < s.cfg.nvmCapacity / 256) →
    let page := 0x02 :: s.addr.extractLsb' 0 8 :: 0x00 :: (List.range 256).map fun k => s.nbuf.read k
    ∃ t, exec i s = .next t ∧
      t = { s with
        cmd := c
        busy := true
        seq := .nvc .discard .cs
        frames := [[0x06], page]
        hist := s.hist ++ [.hostWrite 0x0000 c] } ∧
      ∃ u m got got', runTurns (List.replicate 265 .seq) t = .next u ∧
        u = { t with
          busy := false
          seq := .idle
          frames := []
          rx := []
          bidx := 0
          link := u.link
          draws := s.draws + 260
          chip := ⟨m, false, s.cfg.nvmWriteCycle, false⟩
          hist := t.hist ++ [.frame [0x06] got, .frame page got'] } ∧
        u.link.cs = false ∧ got.length = 1 ∧ got'.length = 259 ∧
        ∀ a, m.read a =
          if (s.addr.extractLsb' 0 8).toNat * 256 ≤ a ∧ a < (s.addr.extractLsb' 0 8).toNat * 256 + 256 then
            s.nbuf.read (a - (s.addr.extractLsb' 0 8).toNat * 256)
          else s.chip.mem.read a

/-- NVM_RDPAGE, and STO_READ in range, from start to end (R168, R170, R184): one read frame of 259 bytes, NBUF holds
the page, MEM is unchanged. -/
def Obligations.NvmReadPageRuns : Prop :=
  ∀ (s : State) (b : Bool) (i : Instr) (c : Byte), s.cfg.ok = true → s.busy = false → chipReady s →
    Memory.wf s.nbuf = true → (s.addr.extractLsb' 0 8).toNat < s.cfg.nvmCapacity / 256 →
    (i = .nvmRdPage b ∧ c = (if b then 0x18 else 0x08)) ∨
      (i = .stoRead b ∧ c = (if b then 0x1A else 0x0A) ∧ s.addr.toNat < s.cfg.nvmCapacity / 256) →
    let page := 0x03 :: s.addr.extractLsb' 0 8 :: 0x00 :: List.replicate 256 s.cfg.nvmDummy
    ∃ t, exec i s = .next t ∧
      t = { s with
        cmd := c
        busy := true
        seq := .nvc .nbuf .cs
        frames := [page]
        hist := s.hist ++ [.hostWrite 0x0000 c] } ∧
      ∃ u n got, runTurns (List.replicate 261 .seq) t = .next u ∧
        u = { t with
          busy := false
          seq := .idle
          frames := []
          rx := []
          bidx := 0
          nbuf := n
          link := u.link
          draws := s.draws + 3
          chip := { s.chip with garbled := false }
          hist := t.hist ++ [.frame page got] } ∧
        u.link.cs = false ∧ got.length = 259 ∧
        ∀ k, n.read k =
          if k < 256 then s.chip.mem.read ((s.addr.extractLsb' 0 8).toNat * 256 + k) else s.nbuf.read k

/-- STO_WRITE and STO_READ out of range (R169, R170): a silent no-op of one sequencer step; all 16 bits of ADDR are
compared. -/
def Obligations.StorageOutOfRangeIsNoOp : Prop :=
  ∀ (s : State) (b : Bool) (i : Instr) (c : Byte), s.cfg.ok = true → s.busy = false →
    s.frames = [] → s.rx = [] → s.bidx = 0 → s.cfg.nvmCapacity / 256 ≤ s.addr.toNat →
    (i = .stoWrite b ∧ c = (if b then 0x19 else 0x09)) ∨ (i = .stoRead b ∧ c = (if b then 0x1A else 0x0A)) →
    ∃ t, exec i s = .next t ∧ t.busy = true ∧
      step (agentTurn .seq t) = .next { s with cmd := c, seq := .idle, hist := s.hist ++ [.hostWrite 0x0000 c] }

/-- The raw commands outside the chip (R174): MF_NVM_RANGE is recorded at the start, no violation is raised, and the
frames are sent as given. -/
def Obligations.RawCommandsOutsideChip : Prop :=
  ∀ (s : State) (b : Bool), s.busy = false →
    (s.cfg.nvmCapacity ≤ s.addr.toNat →
      exec (.nvmWrByte b) s = .next { s with
        cmd := if b then 0x15 else 0x05
        busy := true
        seq := .nvc .discard .cs
        frames := [[0x06], [0x02, s.addr.extractLsb' 8 8, s.addr.extractLsb' 0 8, s.wdata]]
        faults := withFault .nvmRange s.faults
        hist := s.hist ++ [.hostWrite 0x0000 (if b then 0x15 else 0x05)] } ∧
      exec (.nvmRdByte b) s = .next { s with
        cmd := if b then 0x16 else 0x06
        busy := true
        seq := .nvc .rdata .cs
        frames := [[0x03, s.addr.extractLsb' 8 8, s.addr.extractLsb' 0 8, s.cfg.nvmDummy]]
        faults := withFault .nvmRange s.faults
        hist := s.hist ++ [.hostWrite 0x0000 (if b then 0x16 else 0x06)] }) ∧
    (s.cfg.nvmCapacity / 256 ≤ (s.addr.extractLsb' 0 8).toNat →
      exec (.nvmWrPage b) s = .next { s with
        cmd := if b then 0x17 else 0x07
        busy := true
        seq := .nvc .discard .cs
        frames := [[0x06],
          0x02 :: s.addr.extractLsb' 0 8 :: 0x00 :: (List.range 256).map fun k => s.nbuf.read k]
        faults := withFault .nvmRange s.faults
        hist := s.hist ++ [.hostWrite 0x0000 (if b then 0x17 else 0x07)] } ∧
      exec (.nvmRdPage b) s = .next { s with
        cmd := if b then 0x18 else 0x08
        busy := true
        seq := .nvc .nbuf .cs
        frames := [0x03 :: s.addr.extractLsb' 0 8 :: 0x00 :: List.replicate 256 s.cfg.nvmDummy]
        faults := withFault .nvmRange s.faults
        hist := s.hist ++ [.hostWrite 0x0000 (if b then 0x18 else 0x08)] })

/-- The chip at the end of a write frame inside it whose data exceed no chip page (R182, R183, R187, R188): performed
only while WEL = 1, at ascending addresses, WEL = 0 afterwards, CHIP_BUSY set where the chip has a write cycle. -/
def Obligations.ChipCommitsOnlyWhenEnabled : Prop :=
  ∀ (s : State) (cap : Capture) (hi lo d : Byte) (ds : List Byte), s.cfg.ok = true → s.seq = .nvc cap .ds →
    s.frames = [0x02 :: hi :: lo :: d :: ds] → s.chip.garbled = false → chipPageTakes s.cfg (ds.length + 1) → ds.length < 256 →
    hi.toNat * 256 + lo.toNat + ds.length < s.cfg.nvmCapacity → Memory.wf s.chip.mem = true →
    ∃ u, step (agentTurn .seq s) = .next u ∧ u.busy = false ∧ u.link.cs = false ∧ u.chip.wel = false ∧
      u.hist = s.hist ++ [.frame (0x02 :: hi :: lo :: d :: ds) s.rx] ∧
      (s.chip.wel = false → u.chip = s.chip) ∧
      (s.chip.wel = true → u.chip.busy = s.cfg.nvmWriteCycle ∧
        ∀ a, u.chip.mem.read a =
          if hi.toNat * 256 + lo.toNat ≤ a ∧ a ≤ hi.toNat * 256 + lo.toNat + ds.length then
            (d :: ds).getD (a - (hi.toNat * 256 + lo.toNat)) 0
          else s.chip.mem.read a)

/-- The faults of a frame's start (R187, R188; recorded at N_CS: log 15): a frame begun while the chip's write cycle
runs records MF_NVM_CHIP_BUSY, a write frame with more data bytes than a nonzero chip page below 256 records
MF_NVM_CHIP_PAGE, and no other frame records anything. -/
def Obligations.FrameStartFaults : Prop :=
  ∀ (s : State) (cap : Capture) (t : List Byte) (rest : List (List Byte)), s.cfg.ok = true → s.seq = .nvc cap .cs →
    s.frames = t :: rest → wireFrameOk t = true →
    ∃ u, step (agentTurn .seq s) = .next u ∧ u.seq = .nvc cap .x ∧ u.link.cs = true ∧ u.chip.mem = s.chip.mem ∧
      ∀ f, f ∈ u.faults ↔ f ∈ s.faults ∨
        (f = .nvmChipBusy ∧ s.cfg.nvmWriteCycle = true ∧ s.chip.busy = true) ∨
        (f = .nvmChipPage ∧ t.head? = some 0x02 ∧ 0 < s.cfg.nvmChipPage ∧ s.cfg.nvmChipPage < 256 ∧
          s.cfg.nvmChipPage + 3 < t.length)

/-- The chip's write cycle ends in a step of its own (R187). -/
def Obligations.ChipCycleEnds : Prop :=
  ∀ s : State, s.cfg.ok = true →
    step (agentTurn .nvmChip s) = .next { s with chip := { s.chip with busy := false } }

/-- The storage round trip (R189, which the spec marks as its own inference): STO_WRITE of page p, any other contents
put into NBUF, STO_READ of page p: NBUF is what was written. The chip's write cycle, where it has one, has ended
before the read. -/
def Obligations.StorageRoundTrip : Prop :=
  ∀ (s : State) (b b' : Bool) (other : Memory), s.cfg.ok = true → s.busy = false → chipReady s →
    chipPageFits s.cfg → Memory.wf s.chip.mem = true → Memory.wf other = true →
    s.addr.toNat < s.cfg.nvmCapacity / 256 →
    ∃ t u t' u', exec (.stoWrite b) s = .next t ∧ runTurns (List.replicate 265 .seq) t = .next u ∧
      exec (.stoRead b') { u with nbuf := other, chip := { u.chip with busy := false } } = .next t' ∧
      runTurns (List.replicate 261 .seq) t' = .next u' ∧
      u'.busy = false ∧ ∀ k < 256, u'.nbuf.read k = s.nbuf.read k

/-! ### FLASH_PROG -/

/-- FLASH_PROG from start to end (R201, R202; the end state of R212, which the spec marks as its own inference; log
17, log 29), whatever the waits in F4 and F7: the page holds FBUF, every other byte of PM is unchanged, GIE is as
before, APP_RD_EN = 1, and the four flash events are recorded in order. -/
def Obligations.FlashProgramRuns : Prop :=
  ∀ (s : State) (b : Bool) (j k : Nat), s.cfg.ok = true → s.busy = false → s.widx = 0 → Memory.wf s.pm = true →
    Cells.wf s.wbuf = true → flashTargetOk s →
    ∃ t, exec (.flashProg b) s = .next t ∧
      t = { s with
        cmd := if b then 0x1B else 0x0B
        busy := true
        seq := .frs .f1
        hist := s.hist ++ [.hostWrite 0x0000 (if b then 0x1B else 0x0B)] } ∧
      ∃ m w, runTurns (flashTurns s.cfg j k) t = .next { t with
          busy := false
          seq := .idle
          savedIe := s.gie
          appRdEn := true
          flashBusy := false
          flashOp := none
          pm := m
          wbuf := w
          draws := s.draws + 2
          hist := t.hist ++ [.flashErase (s.paddr.toNat / s.cfg.pmPageSize),
            .flashDone (.erase (s.paddr.toNat / s.cfg.pmPageSize)),
            .flashWrite (s.paddr.toNat / s.cfg.pmPageSize)
              ((List.range (s.cfg.pmPageSize / 2)).map fun i => pair (s.fbuf.read (2 * i + 1)) (s.fbuf.read (2 * i))),
            .flashDone (.write (s.paddr.toNat / s.cfg.pmPageSize))] } ∧
        (∀ a, m.read a =
          if s.paddr.toNat ≤ a ∧ a < s.paddr.toNat + s.cfg.pmPageSize then s.fbuf.read (a - s.paddr.toNat)
          else s.pm.read a) ∧
        ∀ i < s.cfg.pmPageSize / 2, w.read i = pair (s.fbuf.read (2 * i + 1)) (s.fbuf.read (2 * i))

/-- FLASH_PROG's checks (R201, R246), the first that fails gives the violation, nothing starts and nothing else
changes. -/
def Obligations.FlashChecksRefuse : Prop :=
  ∀ (s : State) (b : Bool), s.cfg.ok = true → s.busy = false → ¬flashTargetOk s →
    let s' := { s with hist := s.hist ++ [.hostWrite 0x0000 (if b then 0x1B else 0x0B)] }
    exec (.flashProg b) s =
      if s.paddr.toNat % s.cfg.pmPageSize ≠ 0 then .next (violated .flashAlign 3 s')
      else if s.cfg.pmSize < s.paddr.toNat + s.cfg.pmPageSize then .next (violated .flashRange 4 s')
      else .next (violated .flashRegion 5 s')

/-- The phases F1, F4 and F7 one by one: F1 saves GIE and changes nothing else (R203), F4 and F7 wait for FLASH_BUSY =
0 without a timeout or an error test (R206, R209). -/
def Obligations.FlashWaitPhases : Prop :=
  ∀ s : State, s.cfg.ok = true →
    (s.seq = .frs .f1 → step (agentTurn .seq s) = .next { s with savedIe := s.gie, seq := .frs .f2 }) ∧
    (s.seq = .frs .f4 → s.flashBusy = true → step (agentTurn .seq s) = .next s) ∧
    (s.seq = .frs .f4 → s.flashBusy = false → step (agentTurn .seq s) = .next { s with seq := .frs .f5 }) ∧
    (s.seq = .frs .f7 → s.flashBusy = true → step (agentTurn .seq s) = .next s) ∧
    (s.seq = .frs .f7 → s.flashBusy = false → step (agentTurn .seq s) = .next { s with seq := .frs .f8 })

/-- The phases F2, F3, F6, F8 and F9 one by one (R204, R205, R208, R210, R211). -/
def Obligations.FlashActionPhases : Prop :=
  ∀ s : State, s.cfg.ok = true →
    (s.seq = .frs .f2 → step (agentTurn .seq s) = .next { s with gie := false, seq := .frs .f3 }) ∧
    (s.seq = .frs .f3 → Memory.wf s.pm = true → ∃ m,
      step (agentTurn .seq s) = .next { s with
        appRdEn := false
        flashBusy := true
        flashOp := some (.erase (s.paddr.toNat / s.cfg.pmPageSize))
        pm := m
        draws := s.draws + 1
        seq := .frs .f4
        hist := s.hist ++ [.flashErase (s.paddr.toNat / s.cfg.pmPageSize)] } ∧
      ∀ a, a / s.cfg.pmPageSize ≠ s.paddr.toNat / s.cfg.pmPageSize → m.read a = s.pm.read a) ∧
    (s.seq = .frs .f6 → step (agentTurn .seq s) = .next { s with
      flashBusy := true
      flashOp := some (.write (s.paddr.toNat / s.cfg.pmPageSize))
      seq := .frs .f7
      hist := s.hist ++ [.flashWrite (s.paddr.toNat / s.cfg.pmPageSize)
        ((List.range (s.cfg.pmPageSize / 2)).map fun i => s.wbuf.read i)] }) ∧
    (s.seq = .frs .f8 → step (agentTurn .seq s) = .next { s with appRdEn := true, seq := .frs .f9 }) ∧
    (s.seq = .frs .f9 → step (agentTurn .seq s) = .next { s with gie := s.savedIe, busy := false, seq := .idle, widx := 0 })

/-- The FLASH agent (R214; the pending operation stands in flashOp: log 29): completing an erase leaves the page's
bytes any value, completing a write places WBUF's words low byte first; either sets FLASH_BUSY to 0 and is recorded;
every byte outside the page is unchanged. -/
def Obligations.FlashAgentCompletes : Prop :=
  ∀ (s : State) (page : Nat), s.cfg.ok = true → s.flashBusy = true → Memory.wf s.pm = true →
    (s.flashOp = some (.write page) → ∃ m,
      step (agentTurn .flash s) = .next { s with
        pm := m, flashBusy := false, flashOp := none, hist := s.hist ++ [.flashDone (.write page)] } ∧
      (∀ i < s.cfg.pmPageSize / 2,
        m.read (page * s.cfg.pmPageSize + 2 * i) = (s.wbuf.read i).extractLsb' 0 8 ∧
        m.read (page * s.cfg.pmPageSize + 2 * i + 1) = (s.wbuf.read i).extractLsb' 8 8) ∧
      ∀ a, a / s.cfg.pmPageSize ≠ page → m.read a = s.pm.read a) ∧
    (s.flashOp = some (.erase page) → ∃ m,
      step (agentTurn .flash s) = .next { s with
        pm := m, flashBusy := false, flashOp := none, draws := s.draws + 1
        hist := s.hist ++ [.flashDone (.erase page)] } ∧
      ∀ a, a / s.cfg.pmPageSize ≠ page → m.read a = s.pm.read a)

/-! ### Reset -/

/-- Reset (R270, R271, R46): every piece of state for which R46 gives a value takes it; FAULTS, HIST and CHIP_BUSY are
unchanged (R46), and so are the NMI level and the parameters (the model's reading: log 24). -/
def Obligations.ResetSetsControlState : Prop :=
  ∀ s : State, s.cfg.ok = true → ∃ t, step (agentTurn .reset s) = .next t ∧
    t.cmd = 0x00 ∧ t.busy = false ∧ t.err = false ∧ t.errCode = 0 ∧ t.seq = .idle ∧ t.hold = 0 ∧ t.bidx = 0 ∧
    t.widx = 0 ∧ t.frames = [] ∧ t.savedIe = false ∧ t.flashBusy = false ∧ t.appRdEn = true ∧ t.gie = false ∧
    controlOf t.pins = ⟨false, false, s.cfg.selIdle.1, s.cfg.selIdle.2, false, true⟩ ∧
    t.link.cs = false ∧ t.link.sck = s.cfg.serIdleHigh ∧
    t.cfg = s.cfg ∧ t.nmi = s.nmi ∧ t.chip.busy = s.chip.busy ∧ t.faults = s.faults ∧ t.hist = s.hist

/-- After reset the block is idle, and GIE is 0 (R271, with the pins of R120). -/
def Obligations.ResetLeavesBlockIdle : Prop :=
  ∀ s : State, s.cfg.ok = true → ∃ t, step (agentTurn .reset s) = .next t ∧
    t.busy = false ∧ t.err = false ∧ unitOf t.seq = .none ∧
    controlOf t.pins = ⟨false, false, s.cfg.selIdle.1, s.cfg.selIdle.2, false, true⟩ ∧ t.link.cs = false ∧ t.gie = false

/-- Reset during FLASH_PROG (R274): outside the target page PM is unchanged; at F1, F2, F8 or F9, and with no
FLASH_PROG running, all of PM is unchanged. The state "at F" is the one in which F has been performed (log 5). -/
def Obligations.ResetDuringFlash : Prop :=
  ∀ s : State, s.cfg.ok = true → Memory.wf s.pm = true → ∃ t, step (agentTurn .reset s) = .next t ∧
    (∀ a, a / s.cfg.pmPageSize ≠ s.paddr.toNat / s.cfg.pmPageSize → t.pm.read a = s.pm.read a) ∧
    (s.seq ≠ .frs .f4 → s.seq ≠ .frs .f5 → s.seq ≠ .frs .f6 → s.seq ≠ .frs .f7 → s.seq ≠ .frs .f8 →
      t.pm = s.pm)

/-- Reset and the NVM chip's contents (R46, R260, R273): MEM is unchanged where no frame is in progress (no NVM
command, or the wrapper's no-op); a cut write-enable or read frame, and a write frame cut before its data, leave MEM
unchanged; a cut write frame whose data bytes had started may change only the bytes it addressed, where they lie in
the chip and exceed no chip page (else the chip may do anything, log 14). That data bytes "had started" from the
fourth byte on is the model's reading (log 25). -/
def Obligations.ResetDuringNvm : Prop :=
  ∀ s : State, s.cfg.ok = true → Memory.wf s.chip.mem = true →
    ∃ t, step (agentTurn .reset s) = .next t ∧ t.link.cs = false ∧
      (s.frames = [] ∨ (∀ cap, s.seq ≠ .nvc cap .x ∧ s.seq ≠ .nvc cap .ds) → t.chip.mem = s.chip.mem) ∧
      ∀ (f : List Byte) (rest : List (List Byte)), s.frames = f :: rest →
        (f.head? ≠ some 0x02 ∨ s.rx.length < 4 → t.chip.mem = s.chip.mem) ∧
        (∀ hi lo d, f = 0x02 :: hi :: lo :: d → s.chip.garbled = false → chipPageTakes s.cfg d.length →
          hi.toNat * 256 + lo.toNat + d.length ≤ s.cfg.nvmCapacity →
          ∀ a, (a < hi.toNat * 256 + lo.toNat ∨ hi.toNat * 256 + lo.toNat + d.length ≤ a) →
            t.chip.mem.read a = s.chip.mem.read a)

/-- The state right after power-on: what R46 states. The NMI level 0, WEL = 0 and CHIP_BUSY = 0 before any frame
(R45), the empty FAULTS and HIST and the parameter set are the model's (log 11, log 23, log 6). -/
def Obligations.PowerOnState : Prop :=
  State.reset.cmd = 0x00 ∧ statusByte State.reset = 0x00 ∧ State.reset.seq = .idle ∧ State.reset.hold = 0 ∧
  State.reset.bidx = 0 ∧ State.reset.widx = 0 ∧ State.reset.frames = [] ∧ State.reset.savedIe = false ∧
  State.reset.flashBusy = false ∧ State.reset.appRdEn = true ∧ State.reset.gie = false ∧
  controlOf State.reset.pins =
    ⟨false, false, State.reset.cfg.selIdle.1, State.reset.cfg.selIdle.2, false, true⟩ ∧
  State.reset.link.cs = false ∧ State.reset.chip.wel = false ∧ State.reset.chip.busy = false ∧
  State.reset.faults = [] ∧ State.reset.hist = []

/-! ### Invariants and whole-machine rules -/

/-- The invariant holds after power-on. -/
def Obligations.ResetStateMeetsInv : Prop := Inv State.reset

/-- Every step of every agent keeps the invariant. Its canonical memories are the model's form (log 8). -/
def Obligations.StepKeepsInv : Prop := ∀ s t : State, Inv s → step s = .next t → Inv t

/-- In a state that meets the invariant the machine is never refused, and it faults only where the host reads program
memory beyond PM_SIZE (log 20). -/
def Obligations.InvariantStatesRun : Prop :=
  ∀ s : State, Inv s → (∃ t, step s = .next t) ∨
    (step s = .fault .pmOutside ∧ ∃ a rest, (s.host = .pmRead a :: rest ∨ s.host = .pmFetch a :: rest) ∧
      s.cfg.pmSize ≤ a.toNat)

/-- "FLASH_PROG never rewrites" the resident region (R64, R201), and nothing else does. -/
def Obligations.ResidentRegionNeverChanges : Prop :=
  ∀ s t : State, Inv s → step s = .next t →
    ∀ a, s.cfg.resBase ≤ a → a < s.cfg.resBase + s.cfg.resSize → t.pm.read a = s.pm.read a

/-- Only a running FLASH_PROG changes program memory, and only its own page (R200, R218). -/
def Obligations.OnlyTargetPageChanges : Prop :=
  ∀ s t : State, Inv s → step s = .next t →
    (unitOf s.seq ≠ .frs → t.pm = s.pm) ∧
    (∀ a, a / s.cfg.pmPageSize ≠ s.paddr.toNat / s.cfg.pmPageSize → t.pm.read a = s.pm.read a)

/-- HIST is only appended to, FAULTS never loses a fault, and the parameters never change (R44, R248). -/
def Obligations.RecordsOnlyGrow : Prop :=
  ∀ s t : State, step s = .next t →
    s.hist <+: t.hist ∧ (∀ f ∈ s.faults, f ∈ t.faults) ∧ t.cfg = s.cfg

/-- ERR and ERRCODE are sticky: only reset clears them, and a later violation leaves ERRCODE at the first code (R245).
-/
def Obligations.ErrorIsSticky : Prop :=
  ∀ s t : State, step s = .next t → (takeTurn s).1 ≠ .reset → s.err = true → t.err = true ∧ t.errCode = s.errCode

/-- While a command runs its operands and CMD stay fixed, whatever any agent but RESET does (R98, R244). -/
def Obligations.OperandsFixedWhileBusy : Prop :=
  ∀ s t : State, step s = .next t → (takeTurn s).1 ≠ .reset → s.busy = true →
    t.cmd = s.cmd ∧ t.addr = s.addr ∧ t.wdata = s.wdata ∧ t.paddr = s.paddr ∧ t.fbuf = s.fbuf ∧
    ((∀ ph, s.seq ≠ .nvc .nbuf ph) → t.nbuf = s.nbuf)

/-- What the sequencer's step of each unit may write, and that everything else is unchanged (R132, R175, R200): a bus
transaction its pins and RDATA, an NVM command the serial link, the chip, RDATA and NBUF, FLASH_PROG the flash state,
PM and GIE, beside the command's own progress, the records and the draws; with no unit active nothing (log 2). The
fields xbus, flashOp, rx and chip.garbled are the model's (log 12, log 29, log 31, log 14). -/
def Obligations.UnitsAreSeparate : Prop :=
  ∀ s t : State, s.cfg.ok = true → step (agentTurn .seq s) = .next t →
    (unitOf s.seq = .bte → t = { s with
      busy := t.busy, seq := t.seq, hold := t.hold, pins := t.pins, rdata := t.rdata, xbus := t.xbus
      hist := t.hist, draws := t.draws }) ∧
    (unitOf s.seq = .nvc → t = { s with
      busy := t.busy, seq := t.seq, frames := t.frames, rx := t.rx, bidx := t.bidx, link := t.link, chip := t.chip
      rdata := t.rdata, nbuf := t.nbuf, faults := t.faults, hist := t.hist, draws := t.draws }) ∧
    (unitOf s.seq = .frs → t = { s with
      busy := t.busy, seq := t.seq, gie := t.gie, savedIe := t.savedIe, appRdEn := t.appRdEn
      flashBusy := t.flashBusy, flashOp := t.flashOp, pm := t.pm, wbuf := t.wbuf, widx := t.widx
      hist := t.hist, draws := t.draws }) ∧
    (unitOf s.seq = .none → t = s)

/-- The NVC never changes a BTE pin, PM, GIE, WDATA, ADDR or FBUF (R175), neither where an NVM command is accepted nor
in any of its phases. -/
def Obligations.NvcKeepsOthers : Prop :=
  let keeps := fun s t : State =>
    t.pins = s.pins ∧ t.pm = s.pm ∧ t.gie = s.gie ∧ t.wdata = s.wdata ∧ t.addr = s.addr ∧ t.fbuf = s.fbuf
  (∀ s t : State, s.cfg.ok = true → unitOf s.seq = .nvc → step (agentTurn .seq s) = .next t → keeps s t) ∧
  (∀ (s : State) (b : Bool), ∀ i ∈ [Instr.nvmWren b, .nvmWrByte b, .nvmRdByte b, .nvmWrPage b, .nvmRdPage b,
    .stoWrite b, .stoRead b], ∃ t, exec i s = .next t ∧ keeps s t)

/-- The strobes and AUX (R125; R126, which the spec marks as its own inference): the strobes are never asserted
together; a strobe is asserted only in B6 to B9a of a transaction of its direction, with the address pins holding ADDR
and the select pins sel(space); AUX is 1 exactly in B2, B3 and B4. The state "in B" is the one in which B has been
performed (log 5). -/
def Obligations.StrobesFollowPhases : Prop :=
  ∀ s : State, Inv s →
    ¬(s.pins.rd = true ∧ s.pins.wr = true) ∧
    (s.pins.rd = true ∨ s.pins.wr = true →
      ∃ d sp ph, s.seq = .bte d sp ph ∧ (ph = .b7 ∨ ph = .b8 ∨ ph = .b9a) ∧
        s.pins.rd = decide (d = .read) ∧ s.pins.wr = decide (d = .write) ∧
        s.pins.ah = s.addr.extractLsb' 8 8 ∧ s.pins.al = s.addr.extractLsb' 0 8 ∧
        s.pins.selm = decide (sp = .memory) ∧ s.pins.seli = decide (sp = .io)) ∧
    (s.pins.aux = true ↔ ∃ d sp ph, s.seq = .bte d sp ph ∧ (ph = .b3 ∨ ph = .b4 ∨ ph = .b5))

/-- Between commands every control pin is at IDLE (R120; R130, which the spec marks as its own inference), CS is 0
(R160), and BUSY = 0 exactly when no unit is active (R40, R241). -/
def Obligations.IdleBetweenCommands : Prop :=
  ∀ s : State, Inv s →
    (s.busy = false ↔ s.seq = .idle) ∧
    (s.busy = false →
      controlOf s.pins = ⟨false, false, s.cfg.selIdle.1, s.cfg.selIdle.2, false, true⟩ ∧ s.link.cs = false ∧
      s.appRdEn = true ∧ s.flashBusy = false)
end

