-- ==== Sys2Proof/Laws/Memory.lean ====
section
/-! SUPPORT. The laws of the sparse storage: what is read after a write, the canonical form, the bounds. -/

namespace Sys2Proof.Machine

variable {w : Nat}

@[simp] theorem Cells.read_nil (a : Nat) : Cells.read ([] : Cells w) a = 0 := rfl

/-- In canonical form nothing is listed below the lower bound. -/
theorem Cells.read_below_lo : ∀ (m : Cells w) (lo a : Nat), m.wfFrom lo = true → a < lo → m.read a = 0
  | [], _, _, _, _ => rfl
  | (b, x) :: rest, lo, a, h, ha => by
    simp only [Cells.wfFrom, Bool.and_eq_true, decide_eq_true_eq] at h
    have hb : a ≠ b := by omega
    simp only [Cells.read, hb, if_false]
    exact Cells.read_below_lo rest (b + 1) a h.2 (by omega)

theorem Cells.wfFrom_mono : ∀ (m : Cells w) (lo lo' : Nat), lo' ≤ lo → m.wfFrom lo = true → m.wfFrom lo' = true
  | [], _, _, _, _ => rfl
  | (b, x) :: rest, lo, lo', hl, h => by
    simp only [Cells.wfFrom, Bool.and_eq_true, decide_eq_true_eq] at h ⊢
    exact ⟨⟨by omega, h.1.2⟩, h.2⟩

/-- A write keeps the canonical form. -/
theorem Cells.write_wfFrom : ∀ (m : Cells w) (lo a : Nat) (v : BitVec w), lo ≤ a → m.wfFrom lo = true →
    (m.write a v).wfFrom lo = true
  | [], lo, a, v, ha, _ => by
    simp only [Cells.write]
    split
    · rfl
    · simp only [Cells.wfFrom, Bool.and_eq_true, decide_eq_true_eq]
      exact ⟨⟨ha, by simpa using ‹_›⟩, trivial⟩
  | (b, x) :: rest, lo, a, v, ha, h => by
    have h' := h
    simp only [Cells.wfFrom, Bool.and_eq_true, decide_eq_true_eq] at h'
    obtain ⟨⟨h1, h2⟩, h3⟩ := h'
    simp only [Cells.write]
    split
    · rename_i hab
      split
      · exact h
      · simp only [Cells.wfFrom, Bool.and_eq_true, decide_eq_true_eq]
        exact ⟨⟨ha, by simpa using ‹_›⟩, ⟨⟨hab, h2⟩, h3⟩⟩
    · split
      · rename_i hab
        subst hab
        split
        · exact Cells.wfFrom_mono rest _ _ (by omega) h3
        · simp only [Cells.wfFrom, Bool.and_eq_true, decide_eq_true_eq]
          exact ⟨⟨ha, by simpa using ‹_›⟩, h3⟩
      · simp only [Cells.wfFrom, Bool.and_eq_true, decide_eq_true_eq]
        exact ⟨⟨h1, h2⟩, Cells.write_wfFrom rest (b + 1) a v (by omega) h3⟩

theorem Cells.write_wf (m : Cells w) (a : Nat) (v : BitVec w) (h : m.wf = true) : (m.write a v).wf = true :=
  Cells.write_wfFrom m 0 a v (Nat.zero_le a) h

theorem Cells.writeList_wf : ∀ (vs : List (BitVec w)) (m : Cells w) (a : Nat), m.wf = true →
    (m.writeList a vs).wf = true
  | [], _, _, h => h
  | v :: rest, m, a, h => Cells.writeList_wf rest (m.write a v) (a + 1) (Cells.write_wf m a v h)

@[simp] theorem Cells.nil_wf : Cells.wf ([] : Cells w) = true := rfl

/-- Read after write, on a canonical memory. -/
theorem Cells.read_write_from : ∀ (m : Cells w) (lo a : Nat) (v : BitVec w) (b : Nat), m.wfFrom lo = true →
    (m.write a v).read b = if b = a then v else m.read b
  | [], _, a, v, b, _ => by
    simp only [Cells.write]
    split
    · rename_i hv
      subst hv
      simp
    · simp [Cells.read]
  | (c, x) :: rest, lo, a, v, b, h => by
    simp only [Cells.wfFrom, Bool.and_eq_true, decide_eq_true_eq] at h
    obtain ⟨⟨h1, h2⟩, h3⟩ := h
    simp only [Cells.write]
    split
    · rename_i hac
      split
      · rename_i hv
        subst hv
        split
        · rename_i hb
          subst hb
          have hbc : b ≠ c := by omega
          simp only [Cells.read, hbc, if_false]
          exact Cells.read_below_lo rest (c + 1) b h3 (by omega)
        · rfl
      · simp [Cells.read]
    · split
      · rename_i hac
        subst hac
        split
        · rename_i hv
          subst hv
          split
          · rename_i hb
            subst hb
            exact Cells.read_below_lo rest (b + 1) b h3 (by omega)
          · rename_i hb
            simp [Cells.read, hb]
        · by_cases hb : b = a <;> simp [Cells.read, hb]
      · rename_i hac
        have ih := Cells.read_write_from rest (c + 1) a v b h3
        by_cases hbc : b = c
        · subst hbc
          have hba : b ≠ a := by omega
          simp [Cells.read, hba]
        · simp only [Cells.read, hbc, if_false, ih]

theorem Cells.read_write (m : Cells w) (a : Nat) (v : BitVec w) (b : Nat) (h : m.wf = true) :
    (m.write a v).read b = if b = a then v else m.read b :=
  Cells.read_write_from m 0 a v b h

/-- What is read after a list of writes. -/
theorem Cells.read_writeList : ∀ (vs : List (BitVec w)) (m : Cells w) (a b : Nat), m.wf = true →
    (m.writeList a vs).read b = if a ≤ b ∧ b < a + vs.length then vs.getD (b - a) 0 else m.read b
  | [], m, a, b, _ => by
    have : ¬(a ≤ b ∧ b < a + ([] : List (BitVec w)).length) := by
      simp only [List.length_nil]
      omega
    rw [if_neg this]
    rfl
  | v :: rest, m, a, b, h => by
    have ih := Cells.read_writeList rest (m.write a v) (a + 1) b (Cells.write_wf m a v h)
    simp only [Cells.writeList, ih, Cells.read_write m a v b h, List.length_cons]
    by_cases hb : b = a
    · subst hb
      have h1 : ¬(b + 1 ≤ b ∧ b < b + 1 + rest.length) := by omega
      have h2 : b ≤ b ∧ b < b + (rest.length + 1) := by omega
      rw [if_neg h1, if_pos h2]
      simp
    · by_cases hin : a ≤ b ∧ b < a + (rest.length + 1)
      · have h1 : a + 1 ≤ b ∧ b < a + 1 + rest.length := by omega
        rw [if_pos h1, if_pos hin]
        obtain ⟨k, hk⟩ : ∃ k, b - a = k + 1 := ⟨b - a - 1, by omega⟩
        have : b - (a + 1) = k := by omega
        rw [hk, this]
        simp
      · have h1 : ¬(a + 1 ≤ b ∧ b < a + 1 + rest.length) := by omega
        rw [if_neg h1, if_neg hin, if_neg hb]

@[simp] theorem Cells.readList_length (m : Cells w) (a n : Nat) : (m.readList a n).length = n := by
  simp [Cells.readList]

theorem Cells.readList_succ (m : Cells w) (a n : Nat) : m.readList a (n + 1) = m.read a :: m.readList (a + 1) n := by
  simp only [Cells.readList, List.range_succ_eq_map, List.map_cons, List.map_map, Nat.add_zero]
  refine congrArg₂ List.cons rfl (List.map_congr_left fun i _ => ?_)
  show m.read (a + (i + 1)) = m.read (a + 1 + i)
  rw [show a + (i + 1) = a + 1 + i by omega]

theorem Cells.readList_getD (m : Cells w) (a n i : Nat) (h : i < n) : (m.readList a n).getD i 0 = m.read (a + i) := by
  simp [Cells.readList, List.getD_eq_getElem?_getD, h]

theorem Cells.write_below : ∀ (m : Cells w) (n a : Nat) (v : BitVec w), a < n → m.below n = true →
    (m.write a v).below n = true
  | [], n, a, v, ha, _ => by
    simp only [Cells.write]
    split <;> simp [Cells.below, ha]
  | (b, x) :: rest, n, a, v, ha, h => by
    have h' := h
    simp only [Cells.below, List.all_cons, Bool.and_eq_true, decide_eq_true_eq] at h'
    simp only [Cells.write]
    split
    · split
      · exact h
      · simp only [Cells.below, List.all_cons, Bool.and_eq_true, decide_eq_true_eq]
        exact ⟨ha, h'⟩
    · split
      · split
        · exact h'.2
        · simp only [Cells.below, List.all_cons, Bool.and_eq_true, decide_eq_true_eq]
          exact ⟨ha, h'.2⟩
      · have ih := Cells.write_below rest n a v ha h'.2
        simp only [Cells.below, List.all_cons, Bool.and_eq_true, decide_eq_true_eq]
        exact ⟨h'.1, ih⟩

theorem Cells.writeList_below : ∀ (vs : List (BitVec w)) (m : Cells w) (n a : Nat), a + vs.length ≤ n →
    m.below n = true → (m.writeList a vs).below n = true
  | [], _, _, _, _, h => h
  | v :: rest, m, n, a, ha, h => by
    simp only [List.length_cons] at ha
    exact Cells.writeList_below rest (m.write a v) n (a + 1) (by omega) (Cells.write_below m n a v (by omega) h)

@[simp] theorem Cells.nil_below (n : Nat) : Cells.below n ([] : Cells w) = true := rfl

/-- Free writes keep the canonical form and touch only bytes the chip has. -/
theorem freeWrites_wf (c : Config) : ∀ (cells : List (Nat × Byte)) (m : Memory), Memory.wf m = true →
    Memory.wf (freeWrites c m cells) = true
  | [], _, h => h
  | (a, v) :: rest, m, h => by
    simp only [freeWrites]
    exact freeWrites_wf c rest _ (by split; exacts [Cells.write_wf m a v h, h])

theorem freeWrites_below (c : Config) : ∀ (cells : List (Nat × Byte)) (m : Memory), m.below c.nvmCapacity = true →
    (freeWrites c m cells).below c.nvmCapacity = true
  | [], _, h => h
  | (a, v) :: rest, m, h => by
    simp only [freeWrites]
    exact freeWrites_below c rest _ (by
      split
      · rename_i ha
        exact Cells.write_below m _ a v ha h
      · exact h)

@[simp] theorem freeBytes_length (d n : Nat) : (freeBytes d n).length = n := by simp [freeBytes]

@[simp] theorem freeHalves_length (d n : Nat) : (freeHalves d n).length = n := by simp [freeHalves]

end Sys2Proof.Machine
end

