-- ==== Sys2Proof/Laws/State.lean ====
section
/-! SUPPORT. The fields of a state after each shared update: one lemma per field, so that no proof unfolds an update. -/

namespace Sys2Proof.Machine

variable (s : State)

/-! ### record -/

@[simp] theorem record_cfg (e : Event) : (record e s).cfg = s.cfg := rfl
@[simp] theorem record_cmd (e : Event) : (record e s).cmd = s.cmd := rfl
@[simp] theorem record_busy (e : Event) : (record e s).busy = s.busy := rfl
@[simp] theorem record_err (e : Event) : (record e s).err = s.err := rfl
@[simp] theorem record_errCode (e : Event) : (record e s).errCode = s.errCode := rfl
@[simp] theorem record_addr (e : Event) : (record e s).addr = s.addr := rfl
@[simp] theorem record_wdata (e : Event) : (record e s).wdata = s.wdata := rfl
@[simp] theorem record_rdata (e : Event) : (record e s).rdata = s.rdata := rfl
@[simp] theorem record_paddr (e : Event) : (record e s).paddr = s.paddr := rfl
@[simp] theorem record_nbuf (e : Event) : (record e s).nbuf = s.nbuf := rfl
@[simp] theorem record_fbuf (e : Event) : (record e s).fbuf = s.fbuf := rfl
@[simp] theorem record_pins (e : Event) : (record e s).pins = s.pins := rfl
@[simp] theorem record_nmi (e : Event) : (record e s).nmi = s.nmi := rfl
@[simp] theorem record_link (e : Event) : (record e s).link = s.link := rfl
@[simp] theorem record_gie (e : Event) : (record e s).gie = s.gie := rfl
@[simp] theorem record_pm (e : Event) : (record e s).pm = s.pm := rfl
@[simp] theorem record_appRdEn (e : Event) : (record e s).appRdEn = s.appRdEn := rfl
@[simp] theorem record_irqs (e : Event) : (record e s).irqs = s.irqs := rfl
@[simp] theorem record_seq (e : Event) : (record e s).seq = s.seq := rfl
@[simp] theorem record_hold (e : Event) : (record e s).hold = s.hold := rfl
@[simp] theorem record_frames (e : Event) : (record e s).frames = s.frames := rfl
@[simp] theorem record_rx (e : Event) : (record e s).rx = s.rx := rfl
@[simp] theorem record_bidx (e : Event) : (record e s).bidx = s.bidx := rfl
@[simp] theorem record_savedIe (e : Event) : (record e s).savedIe = s.savedIe := rfl
@[simp] theorem record_wbuf (e : Event) : (record e s).wbuf = s.wbuf := rfl
@[simp] theorem record_widx (e : Event) : (record e s).widx = s.widx := rfl
@[simp] theorem record_flashBusy (e : Event) : (record e s).flashBusy = s.flashBusy := rfl
@[simp] theorem record_flashOp (e : Event) : (record e s).flashOp = s.flashOp := rfl
@[simp] theorem record_chip (e : Event) : (record e s).chip = s.chip := rfl
@[simp] theorem record_xbus (e : Event) : (record e s).xbus = s.xbus := rfl
@[simp] theorem record_faults (e : Event) : (record e s).faults = s.faults := rfl
@[simp] theorem record_hist (e : Event) : (record e s).hist = s.hist ++ [e] := rfl
@[simp] theorem record_draws (e : Event) : (record e s).draws = s.draws := rfl
@[simp] theorem record_turns (e : Event) : (record e s).turns = s.turns := rfl
@[simp] theorem record_host (e : Event) : (record e s).host = s.host := rfl

/-! ### addFault -/

@[simp] theorem addFault_cfg (f : ModelFault) : (addFault f s).cfg = s.cfg := rfl
@[simp] theorem addFault_cmd (f : ModelFault) : (addFault f s).cmd = s.cmd := rfl
@[simp] theorem addFault_busy (f : ModelFault) : (addFault f s).busy = s.busy := rfl
@[simp] theorem addFault_err (f : ModelFault) : (addFault f s).err = s.err := rfl
@[simp] theorem addFault_errCode (f : ModelFault) : (addFault f s).errCode = s.errCode := rfl
@[simp] theorem addFault_addr (f : ModelFault) : (addFault f s).addr = s.addr := rfl
@[simp] theorem addFault_wdata (f : ModelFault) : (addFault f s).wdata = s.wdata := rfl
@[simp] theorem addFault_rdata (f : ModelFault) : (addFault f s).rdata = s.rdata := rfl
@[simp] theorem addFault_paddr (f : ModelFault) : (addFault f s).paddr = s.paddr := rfl
@[simp] theorem addFault_nbuf (f : ModelFault) : (addFault f s).nbuf = s.nbuf := rfl
@[simp] theorem addFault_fbuf (f : ModelFault) : (addFault f s).fbuf = s.fbuf := rfl
@[simp] theorem addFault_pins (f : ModelFault) : (addFault f s).pins = s.pins := rfl
@[simp] theorem addFault_nmi (f : ModelFault) : (addFault f s).nmi = s.nmi := rfl
@[simp] theorem addFault_link (f : ModelFault) : (addFault f s).link = s.link := rfl
@[simp] theorem addFault_gie (f : ModelFault) : (addFault f s).gie = s.gie := rfl
@[simp] theorem addFault_pm (f : ModelFault) : (addFault f s).pm = s.pm := rfl
@[simp] theorem addFault_appRdEn (f : ModelFault) : (addFault f s).appRdEn = s.appRdEn := rfl
@[simp] theorem addFault_irqs (f : ModelFault) : (addFault f s).irqs = s.irqs := rfl
@[simp] theorem addFault_seq (f : ModelFault) : (addFault f s).seq = s.seq := rfl
@[simp] theorem addFault_hold (f : ModelFault) : (addFault f s).hold = s.hold := rfl
@[simp] theorem addFault_frames (f : ModelFault) : (addFault f s).frames = s.frames := rfl
@[simp] theorem addFault_rx (f : ModelFault) : (addFault f s).rx = s.rx := rfl
@[simp] theorem addFault_bidx (f : ModelFault) : (addFault f s).bidx = s.bidx := rfl
@[simp] theorem addFault_savedIe (f : ModelFault) : (addFault f s).savedIe = s.savedIe := rfl
@[simp] theorem addFault_wbuf (f : ModelFault) : (addFault f s).wbuf = s.wbuf := rfl
@[simp] theorem addFault_widx (f : ModelFault) : (addFault f s).widx = s.widx := rfl
@[simp] theorem addFault_flashBusy (f : ModelFault) : (addFault f s).flashBusy = s.flashBusy := rfl
@[simp] theorem addFault_flashOp (f : ModelFault) : (addFault f s).flashOp = s.flashOp := rfl
@[simp] theorem addFault_chip (f : ModelFault) : (addFault f s).chip = s.chip := rfl
@[simp] theorem addFault_xbus (f : ModelFault) : (addFault f s).xbus = s.xbus := rfl
@[simp] theorem addFault_faults (f : ModelFault) : (addFault f s).faults = if f ∈ s.faults then s.faults else s.faults ++ [f] := rfl
@[simp] theorem addFault_hist (f : ModelFault) : (addFault f s).hist = s.hist := rfl
@[simp] theorem addFault_draws (f : ModelFault) : (addFault f s).draws = s.draws := rfl
@[simp] theorem addFault_turns (f : ModelFault) : (addFault f s).turns = s.turns := rfl
@[simp] theorem addFault_host (f : ModelFault) : (addFault f s).host = s.host := rfl

/-! ### drew -/

@[simp] theorem drew_cfg (n : Nat) : (drew n s).cfg = s.cfg := rfl
@[simp] theorem drew_cmd (n : Nat) : (drew n s).cmd = s.cmd := rfl
@[simp] theorem drew_busy (n : Nat) : (drew n s).busy = s.busy := rfl
@[simp] theorem drew_err (n : Nat) : (drew n s).err = s.err := rfl
@[simp] theorem drew_errCode (n : Nat) : (drew n s).errCode = s.errCode := rfl
@[simp] theorem drew_addr (n : Nat) : (drew n s).addr = s.addr := rfl
@[simp] theorem drew_wdata (n : Nat) : (drew n s).wdata = s.wdata := rfl
@[simp] theorem drew_rdata (n : Nat) : (drew n s).rdata = s.rdata := rfl
@[simp] theorem drew_paddr (n : Nat) : (drew n s).paddr = s.paddr := rfl
@[simp] theorem drew_nbuf (n : Nat) : (drew n s).nbuf = s.nbuf := rfl
@[simp] theorem drew_fbuf (n : Nat) : (drew n s).fbuf = s.fbuf := rfl
@[simp] theorem drew_pins (n : Nat) : (drew n s).pins = s.pins := rfl
@[simp] theorem drew_nmi (n : Nat) : (drew n s).nmi = s.nmi := rfl
@[simp] theorem drew_link (n : Nat) : (drew n s).link = s.link := rfl
@[simp] theorem drew_gie (n : Nat) : (drew n s).gie = s.gie := rfl
@[simp] theorem drew_pm (n : Nat) : (drew n s).pm = s.pm := rfl
@[simp] theorem drew_appRdEn (n : Nat) : (drew n s).appRdEn = s.appRdEn := rfl
@[simp] theorem drew_irqs (n : Nat) : (drew n s).irqs = s.irqs := rfl
@[simp] theorem drew_seq (n : Nat) : (drew n s).seq = s.seq := rfl
@[simp] theorem drew_hold (n : Nat) : (drew n s).hold = s.hold := rfl
@[simp] theorem drew_frames (n : Nat) : (drew n s).frames = s.frames := rfl
@[simp] theorem drew_rx (n : Nat) : (drew n s).rx = s.rx := rfl
@[simp] theorem drew_bidx (n : Nat) : (drew n s).bidx = s.bidx := rfl
@[simp] theorem drew_savedIe (n : Nat) : (drew n s).savedIe = s.savedIe := rfl
@[simp] theorem drew_wbuf (n : Nat) : (drew n s).wbuf = s.wbuf := rfl
@[simp] theorem drew_widx (n : Nat) : (drew n s).widx = s.widx := rfl
@[simp] theorem drew_flashBusy (n : Nat) : (drew n s).flashBusy = s.flashBusy := rfl
@[simp] theorem drew_flashOp (n : Nat) : (drew n s).flashOp = s.flashOp := rfl
@[simp] theorem drew_chip (n : Nat) : (drew n s).chip = s.chip := rfl
@[simp] theorem drew_xbus (n : Nat) : (drew n s).xbus = s.xbus := rfl
@[simp] theorem drew_faults (n : Nat) : (drew n s).faults = s.faults := rfl
@[simp] theorem drew_hist (n : Nat) : (drew n s).hist = s.hist := rfl
@[simp] theorem drew_draws (n : Nat) : (drew n s).draws = s.draws + n := rfl
@[simp] theorem drew_turns (n : Nat) : (drew n s).turns = s.turns := rfl
@[simp] theorem drew_host (n : Nat) : (drew n s).host = s.host := rfl

/-! ### raise -/

@[simp] theorem raise_cfg (v : Violation) : (raise v s).cfg = s.cfg := rfl
@[simp] theorem raise_cmd (v : Violation) : (raise v s).cmd = s.cmd := rfl
@[simp] theorem raise_busy (v : Violation) : (raise v s).busy = s.busy := rfl
@[simp] theorem raise_err (v : Violation) : (raise v s).err = true := rfl
@[simp] theorem raise_errCode (v : Violation) : (raise v s).errCode = if s.err then s.errCode else violationCode v := rfl
@[simp] theorem raise_addr (v : Violation) : (raise v s).addr = s.addr := rfl
@[simp] theorem raise_wdata (v : Violation) : (raise v s).wdata = s.wdata := rfl
@[simp] theorem raise_rdata (v : Violation) : (raise v s).rdata = s.rdata := rfl
@[simp] theorem raise_paddr (v : Violation) : (raise v s).paddr = s.paddr := rfl
@[simp] theorem raise_nbuf (v : Violation) : (raise v s).nbuf = s.nbuf := rfl
@[simp] theorem raise_fbuf (v : Violation) : (raise v s).fbuf = s.fbuf := rfl
@[simp] theorem raise_pins (v : Violation) : (raise v s).pins = s.pins := rfl
@[simp] theorem raise_nmi (v : Violation) : (raise v s).nmi = s.nmi := rfl
@[simp] theorem raise_link (v : Violation) : (raise v s).link = s.link := rfl
@[simp] theorem raise_gie (v : Violation) : (raise v s).gie = s.gie := rfl
@[simp] theorem raise_pm (v : Violation) : (raise v s).pm = s.pm := rfl
@[simp] theorem raise_appRdEn (v : Violation) : (raise v s).appRdEn = s.appRdEn := rfl
@[simp] theorem raise_irqs (v : Violation) : (raise v s).irqs = s.irqs := rfl
@[simp] theorem raise_seq (v : Violation) : (raise v s).seq = s.seq := rfl
@[simp] theorem raise_hold (v : Violation) : (raise v s).hold = s.hold := rfl
@[simp] theorem raise_frames (v : Violation) : (raise v s).frames = s.frames := rfl
@[simp] theorem raise_rx (v : Violation) : (raise v s).rx = s.rx := rfl
@[simp] theorem raise_bidx (v : Violation) : (raise v s).bidx = s.bidx := rfl
@[simp] theorem raise_savedIe (v : Violation) : (raise v s).savedIe = s.savedIe := rfl
@[simp] theorem raise_wbuf (v : Violation) : (raise v s).wbuf = s.wbuf := rfl
@[simp] theorem raise_widx (v : Violation) : (raise v s).widx = s.widx := rfl
@[simp] theorem raise_flashBusy (v : Violation) : (raise v s).flashBusy = s.flashBusy := rfl
@[simp] theorem raise_flashOp (v : Violation) : (raise v s).flashOp = s.flashOp := rfl
@[simp] theorem raise_chip (v : Violation) : (raise v s).chip = s.chip := rfl
@[simp] theorem raise_xbus (v : Violation) : (raise v s).xbus = s.xbus := rfl
@[simp] theorem raise_faults (v : Violation) : (raise v s).faults = (addFault (.violation v) s).faults := rfl
@[simp] theorem raise_hist (v : Violation) : (raise v s).hist = s.hist := rfl
@[simp] theorem raise_draws (v : Violation) : (raise v s).draws = s.draws := rfl
@[simp] theorem raise_turns (v : Violation) : (raise v s).turns = s.turns := rfl
@[simp] theorem raise_host (v : Violation) : (raise v s).host = s.host := rfl

/-! ### endCommand -/

@[simp] theorem endCommand_cfg : (endCommand s).cfg = s.cfg := rfl
@[simp] theorem endCommand_cmd : (endCommand s).cmd = s.cmd := rfl
@[simp] theorem endCommand_busy : (endCommand s).busy = false := rfl
@[simp] theorem endCommand_err : (endCommand s).err = s.err := rfl
@[simp] theorem endCommand_errCode : (endCommand s).errCode = s.errCode := rfl
@[simp] theorem endCommand_addr : (endCommand s).addr = s.addr := rfl
@[simp] theorem endCommand_wdata : (endCommand s).wdata = s.wdata := rfl
@[simp] theorem endCommand_rdata : (endCommand s).rdata = s.rdata := rfl
@[simp] theorem endCommand_paddr : (endCommand s).paddr = s.paddr := rfl
@[simp] theorem endCommand_nbuf : (endCommand s).nbuf = s.nbuf := rfl
@[simp] theorem endCommand_fbuf : (endCommand s).fbuf = s.fbuf := rfl
@[simp] theorem endCommand_pins : (endCommand s).pins = s.pins := rfl
@[simp] theorem endCommand_nmi : (endCommand s).nmi = s.nmi := rfl
@[simp] theorem endCommand_link : (endCommand s).link = s.link := rfl
@[simp] theorem endCommand_gie : (endCommand s).gie = s.gie := rfl
@[simp] theorem endCommand_pm : (endCommand s).pm = s.pm := rfl
@[simp] theorem endCommand_appRdEn : (endCommand s).appRdEn = s.appRdEn := rfl
@[simp] theorem endCommand_irqs : (endCommand s).irqs = s.irqs := rfl
@[simp] theorem endCommand_seq : (endCommand s).seq = .idle := rfl
@[simp] theorem endCommand_hold : (endCommand s).hold = s.hold := rfl
@[simp] theorem endCommand_frames : (endCommand s).frames = s.frames := rfl
@[simp] theorem endCommand_rx : (endCommand s).rx = s.rx := rfl
@[simp] theorem endCommand_bidx : (endCommand s).bidx = s.bidx := rfl
@[simp] theorem endCommand_savedIe : (endCommand s).savedIe = s.savedIe := rfl
@[simp] theorem endCommand_wbuf : (endCommand s).wbuf = s.wbuf := rfl
@[simp] theorem endCommand_widx : (endCommand s).widx = s.widx := rfl
@[simp] theorem endCommand_flashBusy : (endCommand s).flashBusy = s.flashBusy := rfl
@[simp] theorem endCommand_flashOp : (endCommand s).flashOp = s.flashOp := rfl
@[simp] theorem endCommand_chip : (endCommand s).chip = s.chip := rfl
@[simp] theorem endCommand_xbus : (endCommand s).xbus = s.xbus := rfl
@[simp] theorem endCommand_faults : (endCommand s).faults = s.faults := rfl
@[simp] theorem endCommand_hist : (endCommand s).hist = s.hist := rfl
@[simp] theorem endCommand_draws : (endCommand s).draws = s.draws := rfl
@[simp] theorem endCommand_turns : (endCommand s).turns = s.turns := rfl
@[simp] theorem endCommand_host : (endCommand s).host = s.host := rfl

/-! ### faultIf -/

@[simp] theorem faultIf_cfg (c : Bool) (f : ModelFault) : (faultIf c f s).cfg = s.cfg := by cases c <;> rfl
@[simp] theorem faultIf_cmd (c : Bool) (f : ModelFault) : (faultIf c f s).cmd = s.cmd := by cases c <;> rfl
@[simp] theorem faultIf_busy (c : Bool) (f : ModelFault) : (faultIf c f s).busy = s.busy := by cases c <;> rfl
@[simp] theorem faultIf_err (c : Bool) (f : ModelFault) : (faultIf c f s).err = s.err := by cases c <;> rfl
@[simp] theorem faultIf_errCode (c : Bool) (f : ModelFault) : (faultIf c f s).errCode = s.errCode := by cases c <;> rfl
@[simp] theorem faultIf_addr (c : Bool) (f : ModelFault) : (faultIf c f s).addr = s.addr := by cases c <;> rfl
@[simp] theorem faultIf_wdata (c : Bool) (f : ModelFault) : (faultIf c f s).wdata = s.wdata := by cases c <;> rfl
@[simp] theorem faultIf_rdata (c : Bool) (f : ModelFault) : (faultIf c f s).rdata = s.rdata := by cases c <;> rfl
@[simp] theorem faultIf_paddr (c : Bool) (f : ModelFault) : (faultIf c f s).paddr = s.paddr := by cases c <;> rfl
@[simp] theorem faultIf_nbuf (c : Bool) (f : ModelFault) : (faultIf c f s).nbuf = s.nbuf := by cases c <;> rfl
@[simp] theorem faultIf_fbuf (c : Bool) (f : ModelFault) : (faultIf c f s).fbuf = s.fbuf := by cases c <;> rfl
@[simp] theorem faultIf_pins (c : Bool) (f : ModelFault) : (faultIf c f s).pins = s.pins := by cases c <;> rfl
@[simp] theorem faultIf_nmi (c : Bool) (f : ModelFault) : (faultIf c f s).nmi = s.nmi := by cases c <;> rfl
@[simp] theorem faultIf_link (c : Bool) (f : ModelFault) : (faultIf c f s).link = s.link := by cases c <;> rfl
@[simp] theorem faultIf_gie (c : Bool) (f : ModelFault) : (faultIf c f s).gie = s.gie := by cases c <;> rfl
@[simp] theorem faultIf_pm (c : Bool) (f : ModelFault) : (faultIf c f s).pm = s.pm := by cases c <;> rfl
@[simp] theorem faultIf_appRdEn (c : Bool) (f : ModelFault) : (faultIf c f s).appRdEn = s.appRdEn := by cases c <;> rfl
@[simp] theorem faultIf_irqs (c : Bool) (f : ModelFault) : (faultIf c f s).irqs = s.irqs := by cases c <;> rfl
@[simp] theorem faultIf_seq (c : Bool) (f : ModelFault) : (faultIf c f s).seq = s.seq := by cases c <;> rfl
@[simp] theorem faultIf_hold (c : Bool) (f : ModelFault) : (faultIf c f s).hold = s.hold := by cases c <;> rfl
@[simp] theorem faultIf_frames (c : Bool) (f : ModelFault) : (faultIf c f s).frames = s.frames := by cases c <;> rfl
@[simp] theorem faultIf_rx (c : Bool) (f : ModelFault) : (faultIf c f s).rx = s.rx := by cases c <;> rfl
@[simp] theorem faultIf_bidx (c : Bool) (f : ModelFault) : (faultIf c f s).bidx = s.bidx := by cases c <;> rfl
@[simp] theorem faultIf_savedIe (c : Bool) (f : ModelFault) : (faultIf c f s).savedIe = s.savedIe := by cases c <;> rfl
@[simp] theorem faultIf_wbuf (c : Bool) (f : ModelFault) : (faultIf c f s).wbuf = s.wbuf := by cases c <;> rfl
@[simp] theorem faultIf_widx (c : Bool) (f : ModelFault) : (faultIf c f s).widx = s.widx := by cases c <;> rfl
@[simp] theorem faultIf_flashBusy (c : Bool) (f : ModelFault) : (faultIf c f s).flashBusy = s.flashBusy := by cases c <;> rfl
@[simp] theorem faultIf_flashOp (c : Bool) (f : ModelFault) : (faultIf c f s).flashOp = s.flashOp := by cases c <;> rfl
@[simp] theorem faultIf_chip (c : Bool) (f : ModelFault) : (faultIf c f s).chip = s.chip := by cases c <;> rfl
@[simp] theorem faultIf_xbus (c : Bool) (f : ModelFault) : (faultIf c f s).xbus = s.xbus := by cases c <;> rfl
theorem faultIf_faults (c : Bool) (f : ModelFault) : (faultIf c f s).faults = if c then (addFault f s).faults else s.faults := by
  cases c <;> rfl
@[simp] theorem faultIf_hist (c : Bool) (f : ModelFault) : (faultIf c f s).hist = s.hist := by cases c <;> rfl
@[simp] theorem faultIf_draws (c : Bool) (f : ModelFault) : (faultIf c f s).draws = s.draws := by cases c <;> rfl
@[simp] theorem faultIf_turns (c : Bool) (f : ModelFault) : (faultIf c f s).turns = s.turns := by cases c <;> rfl
@[simp] theorem faultIf_host (c : Bool) (f : ModelFault) : (faultIf c f s).host = s.host := by cases c <;> rfl

@[simp] theorem faultIf_false (f : ModelFault) : faultIf false f s = s := rfl

@[simp] theorem faultIf_true (f : ModelFault) : faultIf true f s = addFault f s := rfl

end Sys2Proof.Machine
end

