-- ==== Sys2Proof/Laws/Step.lean ====
section
/-! SUPPORT. What a step comes to for each agent, what a step can do at all, and how runs compose. -/

namespace Sys2Proof.Machine

/-! ### One step with a listed turn -/

@[simp] theorem takeTurn_agentTurn (t : Turn) (s : State) : takeTurn (agentTurn t s) = (t, s) := rfl

@[simp] theorem agentTurn_cfg (t : Turn) (s : State) : (agentTurn t s).cfg = s.cfg := rfl

@[simp] theorem hostTurn_cfg (st : HostStmt) (s : State) : (hostTurn st s).cfg = s.cfg := rfl

theorem nextMove_agentTurn (t : Turn) (s : State) (h : s.cfg.ok = true) : nextMove (agentTurn t s) = agentMove t s := by
  simp [nextMove, h]

theorem step_seq (s : State) (h : s.cfg.ok = true) : step (agentTurn .seq s) = seqStep s := by
  simp [step, nextMove_agentTurn _ s h, agentMove]

theorem step_flash (s : State) (h : s.cfg.ok = true) : step (agentTurn .flash s) = .next (flashStep s) := by
  simp [step, nextMove_agentTurn _ s h, agentMove]

theorem step_nvmChip (s : State) (h : s.cfg.ok = true) : step (agentTurn .nvmChip s) = .next (chipStep s) := by
  simp [step, nextMove_agentTurn _ s h, agentMove]

theorem step_reset (s : State) (h : s.cfg.ok = true) : step (agentTurn .reset s) = .next (resetStep s) := by
  simp [step, nextMove_agentTurn _ s h, agentMove]

/-- The host's turn, with its next statement in front. -/
theorem step_hostTurn (st : HostStmt) (s : State) (h : s.cfg.ok = true) :
    step (hostTurn st s) =
      match hostMove { s with host := st :: s.host } with
      | .run i s' => exec i s'
      | .done o => o := by
  simp only [step, nextMove, hostTurn_cfg, h, if_true]
  rfl

/-- A host write that is no instruction. -/
theorem step_hostTurn_wr (off : Off) (v : Byte) (s : State) (h : s.cfg.ok = true) {e : Reject}
    (hd : decode (.write off v) = .error e) : step (hostTurn (.wr off v) s) = .next (hostWrite off v s) := by
  rw [step_hostTurn _ _ h]
  simp [hostMove, access, hd]

/-- A host read that is no instruction. -/
theorem step_hostTurn_rd (off : Off) (s : State) (h : s.cfg.ok = true) {e : Reject}
    (hd : decode (.read off) = .error e) : step (hostTurn (.rd off) s) = .next (hostRead off s) := by
  rw [step_hostTurn _ _ h]
  simp [hostMove, access, hd]

/-- A host access that is an instruction. -/
theorem step_hostTurn_instr (a : Access) (i : Instr) (s : State) (h : s.cfg.ok = true) (hd : decode a = .ok i) :
    step (hostTurn (accessStmt a) s) = exec i s := by
  rw [step_hostTurn _ _ h]
  cases a <;> simp [hostMove, access, accessStmt, hd]

/-! ### What a step can do -/

/-- Every step with a next state is one of these: an instruction of the host, another host statement, or another agent's
move, from the state after the turn was taken. -/
theorem step_cases {s t : State} (h : step s = .next t) :
    s.cfg.ok = true ∧
      ((∃ i s', (takeTurn s).1 = .host ∧ hostMove (takeTurn s).2 = .run i s' ∧ exec i s' = .next t) ∨
       ((takeTurn s).1 = .host ∧ hostMove (takeTurn s).2 = .done (.next t)) ∨
       ((takeTurn s).1 = .seq ∧ seqStep (takeTurn s).2 = .next t) ∨
       (∃ b, (takeTurn s).1 = .xbusNmi b ∧ t = { (takeTurn s).2 with nmi := b }) ∨
       (∃ src, (takeTurn s).1 = .irq src ∧ t = requestIrq src (takeTurn s).2) ∨
       ((takeTurn s).1 = .nvmChip ∧ t = chipStep (takeTurn s).2) ∨
       ((takeTurn s).1 = .flash ∧ t = flashStep (takeTurn s).2) ∨
       ((takeTurn s).1 = .reset ∧ t = resetStep (takeTurn s).2)) := by
  unfold step nextMove at h
  by_cases hok : s.cfg.ok = true
  · refine ⟨hok, ?_⟩
    rw [if_pos hok] at h
    cases ht : (takeTurn s).1 with
    | host =>
      rw [ht] at h
      simp only [agentMove] at h
      cases hm : hostMove (takeTurn s).2 with
      | run i s' =>
        rw [hm] at h
        exact .inl ⟨i, s', rfl, rfl, h⟩
      | done o =>
        rw [hm] at h
        exact .inr (.inl ⟨rfl, by rw [← h]⟩)
    | seq =>
      rw [ht] at h
      exact .inr (.inr (.inl ⟨rfl, h⟩))
    | xbusNmi b =>
      rw [ht] at h
      exact .inr (.inr (.inr (.inl ⟨b, rfl, (Host.Outcome.next.inj h).symm⟩)))
    | irq src =>
      rw [ht] at h
      exact .inr (.inr (.inr (.inr (.inl ⟨src, rfl, (Host.Outcome.next.inj h).symm⟩))))
    | nvmChip =>
      rw [ht] at h
      exact .inr (.inr (.inr (.inr (.inr (.inl ⟨rfl, (Host.Outcome.next.inj h).symm⟩)))))
    | flash =>
      rw [ht] at h
      exact .inr (.inr (.inr (.inr (.inr (.inr (.inl ⟨rfl, (Host.Outcome.next.inj h).symm⟩))))))
    | reset =>
      rw [ht] at h
      exact .inr (.inr (.inr (.inr (.inr (.inr (.inr ⟨rfl, (Host.Outcome.next.inj h).symm⟩))))))
  · rw [if_neg hok] at h
    cases h

/-! ### Taking a turn changes only the model's own fields -/

/-- A state with other bookkeeping of the model's own. -/
def withOwn (d : Nat) (ts : List Turn) (hs : List HostStmt) (s : State) : State :=
  { s with draws := d, turns := ts, host := hs }

theorem takeTurn_snd (s : State) : ∃ d ts, (takeTurn s).2 = withOwn d ts s.host s := by
  unfold takeTurn
  split
  · exact ⟨s.draws, _, rfl⟩
  · exact ⟨_, s.turns, rfl⟩

/-! ### Runs -/

@[simp] theorem runTurns_nil (s : State) : runTurns [] s = .next s := rfl

/-- One listed turn, then the others. -/
theorem runTurns_cons {t : Turn} {s u : State} (ts : List Turn) (h : step (agentTurn t s) = .next u) :
    runTurns (t :: ts) s = runTurns ts u := by
  simp only [runTurns, h]

/-- A run of two lists of turns is the one after the other. -/
theorem runTurns_append : ∀ (ts ts' : List Turn) {s u : State}, runTurns ts s = .next u →
    runTurns (ts ++ ts') s = runTurns ts' u
  | [], ts', s, u, h => by
    have : s = u := by simpa using h
    rw [List.nil_append, this]
  | t :: rest, ts', s, u, h => by
    simp only [runTurns] at h
    cases hs : step (agentTurn t s) with
    | next v =>
      rw [hs] at h
      rw [List.cons_append, runTurns_cons _ hs]
      exact runTurns_append rest ts' h
    | fault r => rw [hs] at h; cases h
    | refused r => rw [hs] at h; cases h

/-- A SEQ step, then `k` more. -/
theorem runSeq_succ {s u : State} (k : Nat) (hok : s.cfg.ok = true) (h : seqStep s = .next u) :
    runTurns (List.replicate (k + 1) .seq) s = runTurns (List.replicate k .seq) u := by
  rw [List.replicate_succ]
  exact runTurns_cons _ (by rw [step_seq s hok, h])

/-- `j` SEQ steps, then `k` more. -/
theorem runSeq_add {s u : State} (j k : Nat) (h : runTurns (List.replicate j .seq) s = .next u) :
    runTurns (List.replicate (j + k) .seq) s = runTurns (List.replicate k .seq) u := by
  rw [List.replicate_add]
  exact runTurns_append _ _ h

end Sys2Proof.Machine
end

