-- ==== Sys2Proof/Laws/Ops.lean ====
section
/-! SUPPORT. What each shared operation can do, said once: accepting a command, host writes and reads, the window. -/

namespace Sys2Proof.Machine

/-! ### Violations -/

theorem raise_eq_violated (v : Violation) (s : State) : raise v s = violated v (violationCode v) s := rfl

theorem addFault_eq (f : ModelFault) (s : State) : addFault f s = { s with faults := withFault f s.faults } := rfl

theorem faultIf_eq (c : Bool) (f : ModelFault) (s : State) :
    faultIf c f s = { s with faults := if c then withFault f s.faults else s.faults } := by
  cases c <;> rfl

theorem mem_withFault {f g : ModelFault} {l : List ModelFault} : g ∈ withFault f l ↔ g ∈ l ∨ g = f := by
  unfold withFault
  split
  · rename_i h
    exact ⟨.inl, fun h' => h'.elim id (fun e => e ▸ h)⟩
  · simp

theorem withFault_nodup {f : ModelFault} {l : List ModelFault} (h : l.Nodup) : (withFault f l).Nodup := by
  unfold withFault
  split
  · exact h
  · rename_i hf
    rw [List.nodup_append]
    exact ⟨h, List.nodup_singleton f, fun a ha b hb => by
      rintro rfl
      exact hf (List.mem_singleton.1 hb ▸ ha)⟩

/-! ### Commands -/

/-- A CMD write while BUSY = 1. -/
theorem issue_busy (v : Byte) (check : State → Option Violation) (start : State → State) (s : State)
    (h : s.busy = true) : issue v check start s = .next (raise .overlap (record (.hostWrite offCmd v) s)) := by
  show (if s.busy = true then _ else _) = _
  rw [if_pos h]

/-- A CMD write whose check fails. -/
theorem issue_refused (v : Byte) (check : State → Option Violation) (start : State → State) (s : State) (bad : Violation)
    (h : s.busy = false) (hc : check (record (.hostWrite offCmd v) s) = some bad) :
    issue v check start s = .next (raise bad (record (.hostWrite offCmd v) s)) := by
  show (if s.busy = true then _ else _) = _
  rw [if_neg (by simp [h]), hc]

/-- A CMD write that starts its command. -/
theorem issue_accepted (v : Byte) (check : State → Option Violation) (start : State → State) (s : State)
    (h : s.busy = false) (hc : check (record (.hostWrite offCmd v) s) = none) :
    issue v check start s = .next (start { record (.hostWrite offCmd v) s with cmd := v, busy := true }) := by
  show (if s.busy = true then _ else _) = _
  rw [if_neg (by simp [h]), hc]

/-- Everything a CMD write can come to. -/
theorem issue_cases {v : Byte} {check : State → Option Violation} {start : State → State} {s t : State}
    (h : issue v check start s = .next t) :
    (s.busy = true ∧ t = raise .overlap (record (.hostWrite offCmd v) s)) ∨
    (s.busy = false ∧ ∃ bad, check (record (.hostWrite offCmd v) s) = some bad ∧
      t = raise bad (record (.hostWrite offCmd v) s)) ∨
    (s.busy = false ∧ check (record (.hostWrite offCmd v) s) = none ∧
      t = start { record (.hostWrite offCmd v) s with cmd := v, busy := true }) := by
  cases hb : s.busy with
  | true =>
    rw [issue_busy v check start s hb] at h
    exact .inl ⟨rfl, (Host.Outcome.next.inj h).symm⟩
  | false =>
    cases hc : check (record (.hostWrite offCmd v) s) with
    | some bad =>
      rw [issue_refused v check start s bad hb hc] at h
      exact .inr (.inl ⟨rfl, bad, rfl, (Host.Outcome.next.inj h).symm⟩)
    | none =>
      rw [issue_accepted v check start s hb hc] at h
      exact .inr (.inr ⟨rfl, rfl, (Host.Outcome.next.inj h).symm⟩)

/-! ### Host accesses -/

theorem hostWrite_overlap (off : Off) (v : Byte) (s : State) (hb : s.busy = true)
    (hg : isGuarded (winReg s.cfg off) = true) :
    hostWrite off v s = raise .overlap (record (.hostWrite off v) s) := by
  show (if (s.busy && isGuarded (winReg s.cfg off)) = true then _ else _) = _
  rw [if_pos (by rw [hb, hg]; rfl)]

theorem hostWrite_illegal (off : Off) (v : Byte) (s : State) (hb : s.busy = false) (hr : winReg s.cfg off = .cmd) :
    hostWrite off v s = raise .illegalCmd (record (.hostWrite off v) s) := by
  show (if (s.busy && isGuarded (winReg s.cfg off)) = true then _ else _) = _
  rw [if_neg (by rw [hb]; simp)]
  show (if winReg s.cfg off = .cmd then _ else _) = _
  rw [if_pos hr]

theorem hostWrite_plain (off : Off) (v : Byte) (s : State) (hb : s.busy = false ∨ isGuarded (winReg s.cfg off) = false)
    (hr : winReg s.cfg off ≠ .cmd) :
    hostWrite off v s = writeReg (winReg s.cfg off) v (record (.hostWrite off v) s) := by
  show (if (s.busy && isGuarded (winReg s.cfg off)) = true then _ else _) = _
  rw [if_neg (by rcases hb with h | h <;> rw [h] <;> simp)]
  show (if winReg s.cfg off = .cmd then _ else _) = _
  rw [if_neg hr]

/-- Everything a host write that is no instruction can come to. -/
theorem hostWrite_cases (off : Off) (v : Byte) (s : State) :
    (s.busy = true ∧ isGuarded (winReg s.cfg off) = true ∧
      hostWrite off v s = raise .overlap (record (.hostWrite off v) s)) ∨
    (s.busy = false ∧ winReg s.cfg off = .cmd ∧
      hostWrite off v s = raise .illegalCmd (record (.hostWrite off v) s)) ∨
    ((s.busy = false ∨ isGuarded (winReg s.cfg off) = false) ∧ winReg s.cfg off ≠ .cmd ∧
      hostWrite off v s = writeReg (winReg s.cfg off) v (record (.hostWrite off v) s)) := by
  by_cases hr : winReg s.cfg off = .cmd
  · cases hb : s.busy with
    | true =>
      have hg : isGuarded (winReg s.cfg off) = true := by rw [hr]; rfl
      exact .inl ⟨rfl, hg, hostWrite_overlap off v s hb hg⟩
    | false => exact .inr (.inl ⟨rfl, hr, hostWrite_illegal off v s hb hr⟩)
  · cases hg : isGuarded (winReg s.cfg off) with
    | false => exact .inr (.inr ⟨.inr rfl, hr, hostWrite_plain off v s (.inr hg) hr⟩)
    | true =>
      cases hb : s.busy with
      | true => exact .inl ⟨rfl, rfl, hostWrite_overlap off v s hb hg⟩
      | false => exact .inr (.inr ⟨.inl rfl, hr, hostWrite_plain off v s (.inl hb) hr⟩)

theorem hostRead_free (off : Off) (s : State) (hb : s.busy = true) (hr : isResult (winReg s.cfg off) = true) :
    hostRead off s = record (.hostRead off (Config.freeByte s.draws 0)) (drew 1 s) := by
  show (if (s.busy && isResult (winReg s.cfg off)) = true then _ else _) = _
  rw [if_pos (by rw [hb, hr]; rfl)]

theorem hostRead_plain (off : Off) (s : State) (h : s.busy = false ∨ isResult (winReg s.cfg off) = false) :
    hostRead off s = record (.hostRead off (readReg (winReg s.cfg off) s)) s := by
  show (if (s.busy && isResult (winReg s.cfg off)) = true then _ else _) = _
  rw [if_neg (by rcases h with h | h <;> rw [h] <;> simp)]

/-- A host read changes HIST, and the count of free values at most. -/
theorem hostRead_cases (off : Off) (s : State) :
    ∃ v d, hostRead off s = { s with hist := s.hist ++ [.hostRead off v], draws := d } := by
  by_cases h : s.busy = true ∧ isResult (winReg s.cfg off) = true
  · exact ⟨_, _, hostRead_free off s h.1 h.2⟩
  · refine ⟨readReg (winReg s.cfg off) s, s.draws, hostRead_plain off s ?_⟩
    cases hb : s.busy
    · exact .inl rfl
    · cases hr : isResult (winReg s.cfg off)
      · exact .inr rfl
      · exact absurd ⟨hb, hr⟩ h

/-! ### The window -/

theorem winReg_cmd (c : Config) : winReg c 0x0000 = .cmd := rfl
theorem winReg_status (c : Config) : winReg c 0x0001 = .status := rfl
theorem winReg_addrL (c : Config) : winReg c 0x0002 = .addrL := rfl
theorem winReg_addrH (c : Config) : winReg c 0x0003 = .addrH := rfl
theorem winReg_wdata (c : Config) : winReg c 0x0004 = .wdata := rfl
theorem winReg_rdata (c : Config) : winReg c 0x0005 = .rdata := rfl

theorem winReg_paddr (c : Config) (off : Off) (k : Nat) (hk : k < 4) (h : off.toNat = 0x0008 + k) :
    winReg c off = .paddr k := by
  unfold winReg
  dsimp only
  repeat' split
  any_goals omega
  exact congrArg WinReg.paddr (by omega)

theorem winReg_nbuf (c : Config) (off : Off) (k : Nat) (hk : k < 256) (h : off.toNat = 0x0100 + k) :
    winReg c off = .nbuf k := by
  unfold winReg
  dsimp only
  repeat' split
  any_goals omega
  exact congrArg WinReg.nbuf (by omega)

theorem winReg_fbuf (c : Config) (off : Off) (k : Nat) (hk : k < c.pmPageSize) (h : off.toNat = 0x2000 + k) :
    winReg c off = .fbuf k := by
  unfold winReg
  dsimp only
  repeat' split
  any_goals omega
  exact congrArg WinReg.fbuf (by omega)

theorem winReg_reserved (c : Config) (off : Off) (h : reservedOffset c off) : winReg c off = .reserved := by
  unfold reservedOffset at h
  unfold winReg
  dsimp only
  repeat' split
  any_goals omega
  rfl

theorem isGuarded_winReg (c : Config) (off : Off) : isGuarded (winReg c off) = true ↔ guardedOffset c off := by
  unfold winReg guardedOffset
  simp only
  repeat' split
  all_goals
    simp only [isGuarded, true_iff, Bool.false_eq_true, false_iff]
    omega

/-! ### Bytes -/

theorem loByte_pair (hi lo : Byte) : loByte (pair hi lo) = lo := by
  unfold loByte pair
  rw [BitVec.cast_eq]
  exact BitVec.extractLsb'_append_eq_right

theorem hiByte_pair (hi lo : Byte) : hiByte (pair hi lo) = hi := by
  unfold hiByte pair
  rw [BitVec.cast_eq]
  exact BitVec.extractLsb'_append_eq_left

theorem pair_toNat (hi lo : Byte) : (pair hi lo).toNat = hi.toNat * 256 + lo.toNat := by
  unfold pair
  rw [BitVec.toNat_cast, BitVec.toNat_append, Nat.shiftLeft_eq, ← Nat.mul_comm (2 ^ 8), ← Nat.two_pow_add_eq_or_of_lt lo.isLt]

theorem pair_hi_lo (x : Half) : pair (hiByte x) (loByte x) = x := by
  apply BitVec.eq_of_toNat_eq
  rw [pair_toNat]
  simp only [hiByte, loByte, BitVec.extractLsb'_toNat, Nat.shiftRight_eq_div_pow]
  have := x.isLt
  omega

end Sys2Proof.Machine
end

