-- ==== Sys2Proof/Laws/Bus.lean ====
section
/-! SUPPORT. The bus engine: what XBUS answers, and what the sequencer's steps of a transaction come to, group by group
of phases. -/

namespace Sys2Proof.Machine

/-! ### What XBUS answers -/

theorem sample_answer {s : State} {v : Byte} {rest : List Byte} (sp : Space) (h : s.xbus = .answers (v :: rest)) :
    sample sp s = (v, { s with xbus := .answers rest }) := by
  simp only [sample, h]

theorem sample_free {s : State} (sp : Space) (h : s.xbus = .answers []) :
    sample sp s = (Config.freeByte s.draws 0, drew 1 s) := by
  simp only [sample, h]

theorem sample_echo {s : State} {v : Byte} (sp : Space) (h : s.xbus = .echo)
    (hl : lastWrite sp s.addr s.hist = some v) : sample sp s = (v, s) := by
  simp only [sample, h, hl]

theorem sample_echo_free {s : State} (sp : Space) (h : s.xbus = .echo) (hl : lastWrite sp s.addr s.hist = none) :
    sample sp s = (Config.freeByte s.draws 0, drew 1 s) := by
  simp only [sample, h, hl]

/-- An answer changes the responder and the draws at most. -/
theorem sample_snd (sp : Space) (s : State) : ∃ x d, (sample sp s).2 = { s with xbus := x, draws := d } := by
  unfold sample
  split
  · exact ⟨_, _, rfl⟩
  · exact ⟨_, _, rfl⟩
  · split <;> exact ⟨_, _, rfl⟩

/-- An answer depends on the responder, ADDR, HIST and the draws alone. -/
theorem sample_with (sp : Space) (s : State) (p : Pins) (h : Nat) (a : Activity) :
    sample sp { s with pins := p, hold := h, seq := a } =
      ((sample sp s).1, { (sample sp s).2 with pins := p, hold := h, seq := a }) := by
  obtain ⟨x, hx⟩ : ∃ x, s.xbus = x := ⟨_, rfl⟩
  obtain ⟨o, hl⟩ : ∃ o, lastWrite sp s.addr s.hist = o := ⟨_, rfl⟩
  rcases x with (_ | ⟨v, rest⟩) | _
  · rw [sample_free sp hx]
    exact sample_free (s := { s with pins := p, hold := h, seq := a }) sp hx
  · rw [sample_answer sp hx]
    exact sample_answer (s := { s with pins := p, hold := h, seq := a }) sp hx
  · cases o with
    | none =>
      rw [sample_echo_free sp hx hl]
      exact sample_echo_free (s := { s with pins := p, hold := h, seq := a }) sp hx hl
    | some v =>
      rw [sample_echo sp hx hl]
      exact sample_echo (s := { s with pins := p, hold := h, seq := a }) sp hx hl

theorem lastWrite_append_bus (sp : Space) (a : Half) (h : List Event) (d : Byte) :
    lastWrite sp a (h ++ [.bus .write sp a d]) = some d := by
  induction h with
  | nil => simp [lastWrite]
  | cons e rest ih => simp only [List.cons_append, lastWrite, ih]

theorem lastWrite_append_host (sp : Space) (a : Half) (h : List Event) (o : Off) (v : Byte) :
    lastWrite sp a (h ++ [.hostWrite o v]) = lastWrite sp a h := by
  induction h with
  | nil => rfl
  | cons e rest ih => simp only [List.cons_append, lastWrite, ih]

theorem lastWrite_none {sp : Space} {a : Half} : ∀ {h : List Event}, (∀ w, Event.bus .write sp a w ∉ h) →
    lastWrite sp a h = none
  | [], _ => rfl
  | e :: rest, h => by
    have ih := lastWrite_none fun w hw => h w (List.mem_cons_of_mem _ hw)
    simp only [lastWrite, ih]
    split
    · split
      · rename_i he
        obtain ⟨rfl, rfl⟩ := he
        exact absurd List.mem_cons_self (h _)
      · rfl
    · rfl

/-- The latest write is the one after which no other comes. -/
theorem lastWrite_latest (sp : Space) (a : Half) (v : Byte) {newer : List Event}
    (h : ∀ w, Event.bus .write sp a w ∉ newer) : ∀ older : List Event,
    lastWrite sp a (older ++ .bus .write sp a v :: newer) = some v
  | [] => by simp [lastWrite, lastWrite_none h]
  | e :: rest => by simp only [List.cons_append, lastWrite, lastWrite_latest sp a v h rest]

/-! ### The phases -/

theorem seqStep_bte {d : Dir} {sp : Space} {ph : BtePhase} {s : State} (h : s.seq = .bte d sp ph) :
    seqStep s = .next (bteStep d sp ph s) := by
  rw [seqStep, h]

theorem run_bte {d : Dir} {sp : Space} {ph : BtePhase} {s : State} (k : Nat) (h : s.seq = .bte d sp ph)
    (hok : s.cfg.ok = true) :
    runTurns (List.replicate (k + 1) .seq) s = runTurns (List.replicate k .seq) (bteStep d sp ph s) :=
  runSeq_succ k hok (seqStep_bte h)

theorem pinTrace_bte {d : Dir} {sp : Space} {ph : BtePhase} {s : State} (k : Nat) (h : s.seq = .bte d sp ph)
    (hok : s.cfg.ok = true) :
    pinTrace (List.replicate (k + 1) .seq) s =
      (bteStep d sp ph s).pins :: pinTrace (List.replicate k .seq) (bteStep d sp ph s) := by
  simp only [List.replicate_succ, pinTrace, step_seq s hok, seqStep_bte h]

/-- The trace of a phase (R136): its pin state, if the step starts the phase, and the BusEvents it records. -/
theorem busTrace_bte {d : Dir} {sp : Space} {ph : BtePhase} {s : State} (k : Nat) (h : s.seq = .bte d sp ph)
    (hok : s.cfg.ok = true) :
    busTrace (List.replicate (k + 1) .seq) s =
      { states := (if startsPhase s = true then [pinState (bteStep d sp ph s).pins] else []) ++
          (busTrace (List.replicate k .seq) (bteStep d sp ph s)).states
        events := ((bteStep d sp ph s).hist.drop s.hist.length).filter isBusEvent ++
          (busTrace (List.replicate k .seq) (bteStep d sp ph s)).events } := by
  simp only [List.replicate_succ, busTrace, step_seq s hok, seqStep_bte h, true_and]

/-- A step that starts a phase and records `es` puts one pin state in front. -/
theorem busTrace_phase {d : Dir} {sp : Space} {ph : BtePhase} {s u : State} {es : List Event} (k : Nat)
    (h : s.seq = .bte d sp ph) (hok : s.cfg.ok = true) (hp : startsPhase s = true) (hu : bteStep d sp ph s = u)
    (he : u.hist = s.hist ++ es) :
    busTrace (List.replicate (k + 1) .seq) s =
      { states := pinState u.pins :: (busTrace (List.replicate k .seq) u).states
        events := es.filter isBusEvent ++ (busTrace (List.replicate k .seq) u).events } := by
  rw [busTrace_bte k h hok, hu, if_pos hp, he, List.drop_left]
  rfl

/-- B1 to B6 of a write. -/
theorem run_b1_b6_write {s : State} (sp : Space) (h : s.seq = .bte .write sp .b1) (hok : s.cfg.ok = true) :
    runTurns (List.replicate 6 .seq) s = .next { s with
      pins := ⟨false, true, (selOf sp).1, (selOf sp).2, false, true, s.wdata, hiByte s.addr, loByte s.addr⟩
      hist := s.hist ++ [.bus .write sp s.addr s.wdata]
      seq := .bte .write sp .b7 } := by
  refine Eq.trans (run_bte 5 h hok) ?_
  show runTurns _ { s with pins := { s.pins with rd := false, wr := false }, seq := .bte .write sp .b2 } = _
  refine Eq.trans (run_bte 4 rfl hok) ?_
  show runTurns _ { s with
    pins := ⟨false, false, (selOf sp).1, (selOf sp).2, true, s.pins.ddir, s.pins.dout, s.pins.ah, s.pins.al⟩
    seq := .bte .write sp .b3 } = _
  refine Eq.trans (run_bte 3 rfl hok) ?_
  show runTurns _ { s with
    pins := ⟨false, false, (selOf sp).1, (selOf sp).2, true, true, s.wdata, s.pins.ah, s.pins.al⟩
    seq := .bte .write sp .b4 } = _
  refine Eq.trans (run_bte 2 rfl hok) ?_
  show runTurns _ { s with
    pins := ⟨false, false, (selOf sp).1, (selOf sp).2, true, true, s.wdata, hiByte s.addr, loByte s.addr⟩
    seq := .bte .write sp .b5 } = _
  refine Eq.trans (run_bte 1 rfl hok) ?_
  show runTurns _ { s with
    pins := ⟨false, false, (selOf sp).1, (selOf sp).2, false, true, s.wdata, hiByte s.addr, loByte s.addr⟩
    seq := .bte .write sp .b6 } = _
  refine Eq.trans (run_bte 0 rfl hok) ?_
  rfl

/-- B1 to B6 of a read. -/
theorem run_b1_b6_read {s : State} (sp : Space) (h : s.seq = .bte .read sp .b1) (hok : s.cfg.ok = true) :
    runTurns (List.replicate 6 .seq) s = .next { s with
      pins := ⟨true, false, (selOf sp).1, (selOf sp).2, false, false, s.pins.dout, hiByte s.addr, loByte s.addr⟩
      seq := .bte .read sp .b7 } := by
  refine Eq.trans (run_bte 5 h hok) ?_
  show runTurns _ { s with pins := { s.pins with rd := false, wr := false }, seq := .bte .read sp .b2 } = _
  refine Eq.trans (run_bte 4 rfl hok) ?_
  show runTurns _ { s with
    pins := ⟨false, false, (selOf sp).1, (selOf sp).2, true, s.pins.ddir, s.pins.dout, s.pins.ah, s.pins.al⟩
    seq := .bte .read sp .b3 } = _
  refine Eq.trans (run_bte 3 rfl hok) ?_
  show runTurns _ { s with
    pins := ⟨false, false, (selOf sp).1, (selOf sp).2, true, false, s.pins.dout, s.pins.ah, s.pins.al⟩
    seq := .bte .read sp .b4 } = _
  refine Eq.trans (run_bte 2 rfl hok) ?_
  show runTurns _ { s with
    pins := ⟨false, false, (selOf sp).1, (selOf sp).2, true, false, s.pins.dout, hiByte s.addr, loByte s.addr⟩
    seq := .bte .read sp .b5 } = _
  refine Eq.trans (run_bte 1 rfl hok) ?_
  show runTurns _ { s with
    pins := ⟨false, false, (selOf sp).1, (selOf sp).2, false, false, s.pins.dout, hiByte s.addr, loByte s.addr⟩
    seq := .bte .read sp .b6 } = _
  refine Eq.trans (run_bte 0 rfl hok) ?_
  rfl

theorem holds_pos {c : Config} (h : c.ok = true) (d : Dir) : 1 ≤ holdCycles c d := by
  simp only [Config.ok, Config.holdsOk, Bool.and_eq_true, decide_eq_true_eq] at h
  cases d
  · exact h.2.2
  · exact h.2.1

/-- One clock of B7. -/
theorem bteStep_b7 (d : Dir) (sp : Space) (s : State) : bteStep d sp .b7 s = { s with
    hold := s.hold + 1
    seq := if holdCycles s.cfg d ≤ s.hold + 1 then .bte d sp (afterHold d) else .bte d sp .b7 } := rfl

/-- The clocks of B7 that are left. -/
theorem run_b7 : ∀ (n : Nat) (d : Dir) (sp : Space) (s : State), s.seq = .bte d sp .b7 → s.cfg.ok = true →
    holdCycles s.cfg d = s.hold + (n + 1) →
    runTurns (List.replicate (n + 1) .seq) s =
      .next { s with hold := holdCycles s.cfg d, seq := .bte d sp (afterHold d) }
  | 0, d, sp, s, hs, hok, hh => by
    rw [run_bte 0 hs hok, bteStep_b7, if_pos (by omega), hh]
    rfl
  | n + 1, d, sp, s, hs, hok, hh => by
    rw [run_bte (n + 1) hs hok, bteStep_b7, if_neg (by omega)]
    refine Eq.trans (run_b7 n d sp _ rfl hok ?_) rfl
    show holdCycles s.cfg d = s.hold + 1 + (n + 1)
    omega

/-- B7 of a transaction that has just asserted its strobe. -/
theorem run_hold {s : State} (d : Dir) (sp : Space) (k : Nat) (h : s.seq = .bte d sp .b7) (hk : holdCycles s.cfg d = k)
    (hok : s.cfg.ok = true) (hh : s.hold = 0) :
    runTurns (List.replicate k .seq) s = .next { s with hold := k, seq := .bte d sp (afterHold d) } := by
  obtain ⟨n, rfl⟩ : ∃ n, k = n + 1 := ⟨k - 1, by have := holds_pos hok d; omega⟩
  rw [run_b7 n d sp s h hok (by omega), hk]

/-- The pins during B7. -/
theorem pinTrace_b7 (d : Dir) (sp : Space) (k : Nat) : ∀ (n : Nat) (s : State), s.seq = .bte d sp .b7 →
    s.cfg.ok = true → holdCycles s.cfg d = s.hold + (n + 1) →
    pinTrace (List.replicate (n + 1 + k) .seq) s = List.replicate (n + 1) s.pins ++
      pinTrace (List.replicate k .seq) { s with hold := holdCycles s.cfg d, seq := .bte d sp (afterHold d) }
  | 0, s, hs, hok, hh => by
    rw [show 0 + 1 + k = k + 1 by omega, pinTrace_bte k hs hok, bteStep_b7, if_pos (by omega), hh]
    rfl
  | n + 1, s, hs, hok, hh => by
    rw [show n + 1 + 1 + k = n + 1 + k + 1 by omega, pinTrace_bte _ hs hok, bteStep_b7, if_neg (by omega)]
    refine congrArg₂ List.cons rfl (Eq.trans (pinTrace_b7 d sp k n _ rfl hok ?_) rfl)
    show holdCycles s.cfg d = s.hold + 1 + (n + 1)
    omega

/-- The later clocks of B7 are no part of the trace. -/
theorem busTrace_b7_later (d : Dir) (sp : Space) (k : Nat) : ∀ (n : Nat) (s : State), s.seq = .bte d sp .b7 →
    s.cfg.ok = true → holdCycles s.cfg d = s.hold + (n + 1) → s.hold ≠ 0 →
    busTrace (List.replicate (n + 1 + k) .seq) s =
      busTrace (List.replicate k .seq) { s with hold := holdCycles s.cfg d, seq := .bte d sp (afterHold d) }
  | n, s, hs, hok, hh, h0 => by
    have hp : startsPhase s ≠ true := by simp [startsPhase, hs, h0]
    rw [show n + 1 + k = n + k + 1 by omega, busTrace_bte (n + k) hs hok, if_neg hp, bteStep_b7, List.drop_length]
    cases n with
    | zero =>
      rw [if_pos (by omega), hh]
      simp only [Nat.zero_add]
      rfl
    | succ n =>
      rw [if_neg (by omega)]
      refine Eq.trans (busTrace_b7_later d sp k n { s with hold := s.hold + 1, seq := .bte d sp .b7 } rfl hok ?_
        (Nat.succ_ne_zero _)) rfl
      show holdCycles s.cfg d = s.hold + 1 + (n + 1)
      omega

/-- B7 is one pin state of the trace, whatever the hold count is. -/
theorem busTrace_b7 {d : Dir} {sp : Space} {s : State} (k n : Nat) (h : s.seq = .bte d sp .b7) (hok : s.cfg.ok = true)
    (h0 : s.hold = 0) (hn : holdCycles s.cfg d = n + 1) :
    busTrace (List.replicate (n + 1 + k) .seq) s =
      { states := pinState s.pins ::
          (busTrace (List.replicate k .seq) { s with hold := n + 1, seq := .bte d sp (afterHold d) }).states
        events :=
          (busTrace (List.replicate k .seq) { s with hold := n + 1, seq := .bte d sp (afterHold d) }).events } := by
  have hp : startsPhase s = true := by simp [startsPhase, h, h0]
  rw [show n + 1 + k = n + k + 1 by omega, busTrace_phase (es := []) (n + k) h hok hp (bteStep_b7 d sp s) (by simp)]
  cases n with
  | zero =>
    rw [if_pos (by omega), h0]
    simp only [Nat.zero_add]
    rfl
  | succ n =>
    rw [if_neg (by omega), busTrace_b7_later d sp k n { s with hold := s.hold + 1, seq := .bte d sp .b7 } rfl hok
      (show holdCycles s.cfg d = s.hold + 1 + (n + 1) by omega) (Nat.succ_ne_zero _)]
    show BusTrace.mk _ (_ ++ _) = _
    rw [List.filter_nil, List.nil_append, ← hn]

/-- B9a to B9c of a write. -/
theorem run_b9_write {s : State} (sp : Space) (h : s.seq = .bte .write sp .b9a) (hok : s.cfg.ok = true) :
    runTurns (List.replicate 3 .seq) s = .next { s with
      busy := false
      seq := .idle
      hold := 0
      pins := ⟨false, false, s.cfg.selIdle.1, s.cfg.selIdle.2, s.pins.aux, true, s.pins.dout, s.pins.ah, s.pins.al⟩ } := by
  refine Eq.trans (run_bte 2 h hok) ?_
  refine Eq.trans (run_bte 1 rfl hok) ?_
  refine Eq.trans (run_bte 0 rfl hok) ?_
  rfl

/-- B9a to B9c of a read. -/
theorem run_b9_read {s : State} (sp : Space) (h : s.seq = .bte .read sp .b9a) (hok : s.cfg.ok = true) :
    runTurns (List.replicate 3 .seq) s = .next { s with
      busy := false
      seq := .idle
      hold := 0
      draws := s.draws + 1
      pins := ⟨false, false, s.cfg.selIdle.1, s.cfg.selIdle.2, s.pins.aux, true, Config.freeByte s.draws 0, s.pins.ah,
        s.pins.al⟩ } := by
  refine Eq.trans (run_bte 2 h hok) ?_
  refine Eq.trans (run_bte 1 rfl hok) ?_
  refine Eq.trans (run_bte 0 rfl hok) ?_
  rfl

/-- B8 of a read. -/
theorem bteStep_b8_read (sp : Space) (s : State) : ∃ x d, bteStep .read sp .b8 s = { s with
    rdata := (sample sp s).1
    xbus := x
    draws := d
    seq := .bte .read sp .b9a
    hist := s.hist ++ [.bus .read sp s.addr (sample sp s).1] } := by
  obtain ⟨x, d, e⟩ := sample_snd sp s
  exact ⟨x, d, by simp only [bteStep, e, record]⟩

end Sys2Proof.Machine
end

