-- ==== Sys2Proof/Laws/Flash.lean ====
section
/-! SUPPORT. The flash rewrite sequencer: its checks, what a page rewrite leaves in PM, and what the waiting and filling
phases come to. -/

namespace Sys2Proof.Machine

/-! ### Pages and checks -/

theorem pageSize_even {c : Config} (h : c.ok = true) : c.pmPageSize = 2 * pageWords c ∧ 0 < pageWords c := by
  simp only [Config.ok, Config.pageSizeOk, Bool.and_eq_true, List.any_eq_true, List.mem_range, beq_iff_eq] at h
  obtain ⟨⟨⟨⟨-, k, -, hk⟩, -⟩, -⟩, -⟩ := h
  have : 0 < 2 ^ k := Nat.pos_of_ne_zero (by simp)
  rw [Nat.pow_succ] at hk
  simp only [pageWords]
  omega

theorem flashCheck_none {s : State} (h : flashTargetOk s) (hok : s.cfg.ok = true) : flashCheck s = none := by
  obtain ⟨h1, h2, h3⟩ := h
  have := pageSize_even hok
  simp only [flashCheck]
  repeat' split
  any_goals omega
  rfl

/-- What the passed checks say about the page. -/
theorem flashCheck_ok {s : State} (h : flashCheck s = none) :
    flashPage s * s.cfg.pmPageSize = s.paddr.toNat ∧ s.paddr.toNat + s.cfg.pmPageSize ≤ s.cfg.pmSize ∧
      ¬(max s.paddr.toNat s.cfg.resBase < min (s.paddr.toNat + s.cfg.pmPageSize) (s.cfg.resBase + s.cfg.resSize)) := by
  simp only [flashCheck] at h
  split at h
  · cases h
  rename_i h1
  split at h
  · cases h
  rename_i h2
  split at h
  · cases h
  rename_i h3
  exact ⟨Nat.div_mul_cancel (Nat.dvd_of_mod_eq_zero (by omega)), by omega, h3⟩

/-- An address outside a page is outside the page's bytes. -/
theorem outside_page {n page a : Nat} (h : a / n ≠ page) : ¬(page * n ≤ a ∧ a < page * n + n) := by
  rintro ⟨h1, h2⟩
  have hn : 0 < n := by omega
  rw [← Nat.succ_mul] at h2
  exact h (Nat.le_antisymm (Nat.le_of_lt_succ ((Nat.div_lt_iff_lt_mul hn).2 h2)) ((Nat.le_div_iff_mul_le hn).2 h1))

/-! ### What is written to PM -/

theorem forgetPage_read (page d : Nat) (s : State) (hm : Memory.wf s.pm = true) (a : Nat)
    (ha : a / s.cfg.pmPageSize ≠ page) : (forgetPage page d s).read a = s.pm.read a := by
  show Cells.read (s.pm.writeList _ _) a = _
  rw [Cells.read_writeList _ _ _ _ hm, if_neg]
  rw [freeBytes_length]
  exact outside_page ha

theorem forgetPage_wf {s : State} (p d : Nat) (h : Memory.wf s.pm = true) : Memory.wf (forgetPage p d s) = true :=
  Cells.writeList_wf _ _ _ h

theorem wordBytes_length : ∀ ws : List Half, (wordBytes ws).length = 2 * ws.length
  | [] => rfl
  | w :: rest => by
    simp only [wordBytes, List.length_cons, wordBytes_length rest]
    omega

/-- Each word gives its low byte, then its high byte (R214). -/
theorem wordBytes_getD : ∀ (ws : List Half) (i : Nat), i < ws.length →
    (wordBytes ws).getD (2 * i) 0 = loByte (ws.getD i 0) ∧ (wordBytes ws).getD (2 * i + 1) 0 = hiByte (ws.getD i 0)
  | [], i, h => by simp at h
  | w :: rest, 0, _ => ⟨rfl, rfl⟩
  | w :: rest, i + 1, h => wordBytes_getD rest i (by simpa using h)

theorem wbufWords_length {s : State} (h : s.cfg.ok = true) : (wordBytes (wbufWords s)).length = s.cfg.pmPageSize := by
  rw [wordBytes_length, wbufWords, Cells.readList_length, ← (pageSize_even h).1]

/-! ### The phases -/

theorem seqStep_frs {ph : FrsPhase} {s : State} (h : s.seq = .frs ph) : seqStep s = .next (frsStep ph s) := by
  rw [seqStep, h]

theorem run_frs {ph : FrsPhase} {s : State} (k : Nat) (h : s.seq = .frs ph) (hok : s.cfg.ok = true) :
    runTurns (List.replicate (k + 1) .seq) s = runTurns (List.replicate k .seq) (frsStep ph s) :=
  runSeq_succ k hok (seqStep_frs h)

/-- F4 and F7 while FLASH_BUSY = 1. -/
theorem run_wait {ph : FrsPhase} {s : State} (hp : ph = .f4 ∨ ph = .f7) (h : s.seq = .frs ph) (hok : s.cfg.ok = true)
    (hb : s.flashBusy = true) : ∀ k, runTurns (List.replicate k .seq) s = .next s
  | 0 => rfl
  | k + 1 => by
    have : frsStep ph s = s := by rcases hp with rfl | rfl <;> exact if_pos hb
    rw [run_frs k h hok, this]
    exact run_wait hp h hok hb k

/-- One word of F5. -/
theorem frsStep_f5 (s : State) : frsStep .f5 s = { s with
    wbuf := s.wbuf.write s.widx (fillWord s s.widx)
    widx := s.widx + 1
    seq := if pageWords s.cfg ≤ s.widx + 1 then .frs .f6 else .frs .f5 } := rfl

/-- The words of F5 that are left. -/
theorem run_fill : ∀ (n : Nat) (s : State), s.seq = .frs .f5 → s.cfg.ok = true → s.widx + (n + 1) = pageWords s.cfg →
    runTurns (List.replicate (n + 1) .seq) s = .next { s with
      wbuf := s.wbuf.writeList s.widx ((List.range (n + 1)).map fun i => fillWord s (s.widx + i))
      widx := pageWords s.cfg
      seq := .frs .f6 }
  | 0, s, hs, hok, hw => by
    rw [run_frs 0 hs hok, frsStep_f5, if_pos (by omega), ← hw]
    rfl
  | n + 1, s, hs, hok, hw => by
    have e : (List.range (n + 1 + 1)).map (fun i => fillWord s (s.widx + i)) =
        fillWord s s.widx :: (List.range (n + 1)).map (fun i => fillWord s (s.widx + 1 + i)) := by
      rw [List.range_succ_eq_map, List.map_cons, List.map_map]
      refine congrArg₂ List.cons rfl (List.map_congr_left fun i _ => ?_)
      show fillWord s (s.widx + (i + 1)) = fillWord s (s.widx + 1 + i)
      rw [show s.widx + (i + 1) = s.widx + 1 + i by omega]
    rw [run_frs (n + 1) hs hok, frsStep_f5, if_neg (by omega)]
    refine Eq.trans (run_fill n _ rfl hok ?_) ?_
    · show s.widx + 1 + (n + 1) = pageWords s.cfg
      omega
    · rw [e]
      rfl

end Sys2Proof.Machine
end

