-- ==== Sys2Proof/Laws/Host.lean ====
section
/-! SUPPORT. The host: each instruction as the CMD write it is, reads of program memory, and everything a host statement
can come to. -/

namespace Sys2Proof.Machine

/-! ### The instructions as CMD writes -/

theorem exec_busWr (sp : Space) (s : State) :
    exec (.busWr sp) s = issue (encodeCmd (.busWr sp)) noCheck (startBus .write sp) s := rfl
theorem exec_busRd (sp : Space) (s : State) :
    exec (.busRd sp) s = issue (encodeCmd (.busRd sp)) noCheck (startBus .read sp) s := rfl
theorem exec_nvmWren (b : Bool) (s : State) :
    exec (.nvmWren b) s = issue (encodeCmd (.nvmWren b)) noCheck startWren s := rfl
theorem exec_nvmWrByte (b : Bool) (s : State) :
    exec (.nvmWrByte b) s = issue (encodeCmd (.nvmWrByte b)) noCheck startWrByte s := rfl
theorem exec_nvmRdByte (b : Bool) (s : State) :
    exec (.nvmRdByte b) s = issue (encodeCmd (.nvmRdByte b)) noCheck startRdByte s := rfl
theorem exec_nvmWrPage (b : Bool) (s : State) :
    exec (.nvmWrPage b) s = issue (encodeCmd (.nvmWrPage b)) noCheck startWrPage s := rfl
theorem exec_nvmRdPage (b : Bool) (s : State) :
    exec (.nvmRdPage b) s = issue (encodeCmd (.nvmRdPage b)) noCheck startRdPage s := rfl
theorem exec_stoWrite (b : Bool) (s : State) :
    exec (.stoWrite b) s = issue (encodeCmd (.stoWrite b)) noCheck startStoWrite s := rfl
theorem exec_stoRead (b : Bool) (s : State) :
    exec (.stoRead b) s = issue (encodeCmd (.stoRead b)) noCheck startStoRead s := rfl
theorem exec_flashProg (b : Bool) (s : State) :
    exec (.flashProg b) s = issue (encodeCmd (.flashProg b)) flashCheck startFlash s := rfl
theorem exec_getNmi (s : State) : exec .getNmi s = .next (hostRead offStatus s) := rfl

/-- Every instruction but GETNMI is a CMD write. -/
theorem exec_issue (i : Instr) (s : State) (h : i ≠ .getNmi) :
    ∃ check start, exec i s = issue (encodeCmd i) check start s := by
  cases i
  · exact ⟨_, _, exec_busWr _ s⟩
  · exact ⟨_, _, exec_busRd _ s⟩
  · exact ⟨_, _, exec_nvmWren _ s⟩
  · exact ⟨_, _, exec_nvmWrByte _ s⟩
  · exact ⟨_, _, exec_nvmRdByte _ s⟩
  · exact ⟨_, _, exec_nvmWrPage _ s⟩
  · exact ⟨_, _, exec_nvmRdPage _ s⟩
  · exact ⟨_, _, exec_stoWrite _ s⟩
  · exact ⟨_, _, exec_stoRead _ s⟩
  · exact ⟨_, _, exec_flashProg _ s⟩
  · exact absurd rfl h

/-! ### Program memory -/

theorem inResident_iff (c : Config) (a : Nat) : inResident c a = true ↔ c.resBase ≤ a ∧ a < c.resBase + c.resSize := by
  simp [inResident]

theorem hostPm_outside (ev : Word → Byte → Event) (a : Word) (s : State) (h : s.cfg.pmSize ≤ a.toNat) :
    hostPm ev a s = .fault .pmOutside := by
  unfold hostPm
  rw [if_pos h]

theorem hostPm_shown (ev : Word → Byte → Event) (a : Word) (s : State) (h : a.toNat < s.cfg.pmSize)
    (hr : ¬(s.appRdEn = false ∧ inResident s.cfg a.toNat = false)) :
    hostPm ev a s = .next (record (ev a (s.pm.read a.toNat)) s) := by
  unfold hostPm
  rw [if_neg (Nat.not_le.2 h), if_neg hr]

theorem hostPm_hidden (ev : Word → Byte → Event) (a : Word) (s : State) (h : a.toNat < s.cfg.pmSize)
    (hr : s.appRdEn = false ∧ inResident s.cfg a.toNat = false) :
    hostPm ev a s = .next (record (ev a (Config.freeByte s.draws 0)) (drew 1 (addFault .appAccess s))) := by
  unfold hostPm
  rw [if_neg (Nat.not_le.2 h), if_pos hr]

/-! ### Host statements -/

/-- A window access is an instruction, or a plain write or read. -/
theorem access_cases (a : Access) (s : State) :
    (∃ i, access a s = .run i s) ∨ (∃ off v, access a s = .done (.next (hostWrite off v s))) ∨
      (∃ off, access a s = .done (.next (hostRead off s))) := by
  unfold access
  split
  · exact .inl ⟨_, rfl⟩
  · cases a
    · exact .inr (.inl ⟨_, _, rfl⟩)
    · exact .inr (.inr ⟨_, rfl⟩)

/-- Everything the host's turn can come to, from the state without the statement. -/
theorem hostMove_cases (s : State) : hostMove s = .done (.next s) ∨ ∃ rest,
    (∃ i, hostMove s = .run i { s with host := rest }) ∨
    (∃ off v, hostMove s = .done (.next (hostWrite off v { s with host := rest }))) ∨
    (∃ off, hostMove s = .done (.next (hostRead off { s with host := rest }))) ∨
    (∃ v, hostMove s = .done (.next (hostSetGie v { s with host := rest }))) ∨
    (∃ ev a, (s.host = .pmRead a :: rest ∨ s.host = .pmFetch a :: rest) ∧
      hostMove s = .done (hostPm ev a { s with host := rest })) ∨
    hostMove s = .done (.next (hostWide { s with host := rest })) ∨
    (∃ src, hostMove s = .done (.next (hostTakeIrq src { s with host := rest }))) := by
  have widen : ∀ {A B C D : Prop}, A ∨ B ∨ C → A ∨ B ∨ C ∨ D := fun h => h.imp id fun h => h.imp id Or.inl
  have window : ∀ a u, hostMove s = access a u → (∃ i, hostMove s = .run i u) ∨
      (∃ off v, hostMove s = .done (.next (hostWrite off v u))) ∨
      (∃ off, hostMove s = .done (.next (hostRead off u))) := by
    intro a u e
    rw [e]
    exact access_cases a u
  obtain ⟨h, hh⟩ : ∃ h, s.host = h := ⟨_, rfl⟩
  cases h with
  | nil => exact .inl (by unfold hostMove; rw [hh])
  | cons st rest =>
    right
    cases st with
    | wr off v => exact ⟨rest, widen (window (.write off v) _ (by simp only [hostMove, hh]))⟩
    | rd off => exact ⟨rest, widen (window (.read off) _ (by simp only [hostMove, hh]))⟩
    | wait =>
      have e : hostMove s = access (.read offStatus) (if s.busy = true then s else { s with host := rest }) := by
        simp only [hostMove, hh]
      by_cases hb : s.busy = true
      · rw [if_pos hb] at e
        exact ⟨s.host, widen (window (.read offStatus) s e)⟩
      · rw [if_neg hb] at e
        exact ⟨rest, widen (window (.read offStatus) _ e)⟩
    | sei => exact ⟨rest, .inr (.inr (.inr (.inl ⟨true, by simp only [hostMove, hh]⟩)))⟩
    | cli => exact ⟨rest, .inr (.inr (.inr (.inl ⟨false, by simp only [hostMove, hh]⟩)))⟩
    | pmRead a =>
      exact ⟨rest, .inr (.inr (.inr (.inr (.inl ⟨.pmRead, a, .inl hh, by simp only [hostMove, hh]⟩))))⟩
    | pmFetch a =>
      exact ⟨rest, .inr (.inr (.inr (.inr (.inl ⟨.pmFetch, a, .inr hh, by simp only [hostMove, hh]⟩))))⟩
    | wide off => exact ⟨rest, .inr (.inr (.inr (.inr (.inr (.inl (by simp only [hostMove, hh]))))))⟩
    | takeIrq src => exact ⟨rest, .inr (.inr (.inr (.inr (.inr (.inr ⟨src, by simp only [hostMove, hh]⟩)))))⟩

end Sys2Proof.Machine
end

