-- ==== Sys2Proof/Laws/Nvm.lean ====
section
/-! SUPPORT. The NVM controller and the chip: bounds, one byte of a frame, the chip at a frame's end, and what the bytes
of a frame come to. -/

namespace Sys2Proof.Machine

/-! ### Bounds and frames -/

theorem inStorage_iff (s : State) : inStorage s = true ↔ s.addr.toNat < s.cfg.nvmCapacity / 256 := decide_eq_true_iff

theorem pageOutside_iff (s : State) :
    pageOutside s = true ↔ s.cfg.nvmCapacity / 256 ≤ (s.addr.extractLsb' 0 8).toNat := decide_eq_true_iff

theorem byteOutside_iff (s : State) : byteOutside s = true ↔ s.cfg.nvmCapacity ≤ s.addr.toNat := decide_eq_true_iff

theorem frameAddr_cons (op hi lo : Byte) (l : List Byte) :
    frameAddr (op :: hi :: lo :: l) = hi.toNat * 256 + lo.toNat := pair_toNat hi lo

theorem frameTooLong_takes {c : Config} (t : List Byte) (h : chipPageTakes c (frameData t).length) :
    frameTooLong c t = false := by
  unfold chipPageTakes at h
  simp only [frameTooLong, Bool.and_eq_false_iff, decide_eq_false_iff_not]
  omega

theorem frameTooLong_fits {c : Config} (t : List Byte) (h : chipPageFits c) : frameTooLong c t = false :=
  frameTooLong_takes t (h.imp id Or.inl)

/-- One data byte exceeds no page: a nonzero page has at least one byte (R188). -/
theorem chipPageTakes_one (c : Config) : chipPageTakes c 1 := by
  unfold chipPageTakes
  omega

theorem isReadFrame_of_write {t : List Byte} (h : isWriteFrame t = true) : isReadFrame t = false := by
  simp only [isReadFrame, isWriteFrame, beq_iff_eq] at *
  rw [h]
  rfl

theorem isWriteFrame_of_read {t : List Byte} (h : isReadFrame t = true) : isWriteFrame t = false := by
  simp only [isReadFrame, isWriteFrame, beq_iff_eq] at *
  rw [h]
  rfl

/-! ### The steps of a frame -/

theorem seqStep_nvc {cap : Capture} {ph : NvcPhase} {s : State} (h : s.seq = .nvc cap ph) :
    seqStep s = nvcStep cap ph s := by
  rw [seqStep, h]

theorem nvcStep_cs {cap : Capture} {t : List Byte} {rest : List (List Byte)} {s : State} (hf : s.frames = t :: rest)
    (hw : wireFrameOk t = true) : nvcStep cap .cs s =
      .next (chipSelect t { s with link := { s.link with cs := true }, rx := [], seq := .nvc cap .x }) := by
  simp only [nvcStep, hf, hw, if_true]

theorem nvcStep_x {cap : Capture} {t : List Byte} {rest : List (List Byte)} {s : State} (hf : s.frames = t :: rest)
    (hw : wireFrameOk t = true) : nvcStep cap .x s = .next (exchange cap t s) := by
  simp only [nvcStep, hf, hw, if_true]

theorem nvcStep_ds {cap : Capture} {t : List Byte} {rest : List (List Byte)} {s : State} (hf : s.frames = t :: rest)
    (hw : wireFrameOk t = true) : nvcStep cap .ds s = .next (finishFrame cap t rest s) := by
  simp only [nvcStep, hf, hw, if_true]

theorem nvcStep_gap {cap : Capture} {t : List Byte} {rest : List (List Byte)} {s : State} (hf : s.frames = t :: rest)
    (hw : wireFrameOk t = true) : nvcStep cap .gap s = .next { s with seq := .nvc cap .cs } := by
  simp only [nvcStep, hf, hw, if_true]

theorem run_nvc {cap : Capture} {ph : NvcPhase} {s u : State} (k : Nat) (h : s.seq = .nvc cap ph)
    (hok : s.cfg.ok = true) (hs : nvcStep cap ph s = .next u) :
    runTurns (List.replicate (k + 1) .seq) s = runTurns (List.replicate k .seq) u :=
  runSeq_succ k hok (by rw [seqStep_nvc h, hs])

/-! ### The chip -/

theorem chipSelect_ready {t : List Byte} {s : State} (hr : chipReady s) (hl : frameTooLong s.cfg t = false) :
    chipSelect t s = { s with chip := { s.chip with garbled := false } } := by
  have : (s.cfg.nvmWriteCycle && s.chip.busy) = false := by
    cases h : s.cfg.nvmWriteCycle with
    | false => rfl
    | true =>
      rw [hr h]
      rfl
  simp only [chipSelect, this, faultIf_eq]
  simp only [hl, Bool.false_eq_true, if_false]

/-- A write frame at its end, WEL = 1. -/
theorem chipDeselect_write {t : List Byte} {s : State} (hg : s.chip.garbled = false)
    (hin : frameOutside s.cfg t = false) (hw : isWriteFrame t = true) (hwel : s.chip.wel = true)
    (hl : frameTooLong s.cfg t = false) :
    chipDeselect t s = { s with
      chip := { s.chip with
        mem := s.chip.mem.writeList (frameAddr t) (frameData t), wel := false, busy := s.cfg.nvmWriteCycle } } := by
  simp only [chipDeselect, hg, hin, hw, chipCommit, hwel, hl, Bool.or_false, Bool.false_eq_true, if_false, if_true]

/-- A write frame at its end, WEL = 0. -/
theorem chipDeselect_disabled {t : List Byte} {s : State} (hg : s.chip.garbled = false)
    (hin : frameOutside s.cfg t = false) (hw : isWriteFrame t = true) (hwel : s.chip.wel = false) :
    chipDeselect t s = s := by
  simp only [chipDeselect, hg, hin, hw, chipCommit, hwel, Bool.or_false, Bool.false_eq_true, if_false, if_true]

/-- A read frame at its end. -/
theorem chipDeselect_read {t : List Byte} {s : State} (hg : s.chip.garbled = false)
    (hin : frameOutside s.cfg t = false) (hr : isReadFrame t = true) : chipDeselect t s = s := by
  simp only [chipDeselect, hg, hin, hr, isWriteFrame_of_read hr, Bool.or_false, Bool.false_eq_true, if_false, if_true]

/-- What a frame's end changes at most. -/
theorem chipDeselect_frame (t : List Byte) (s : State) : ∃ c d, chipDeselect t s = { s with chip := c, draws := d } ∧
    (Memory.wf s.chip.mem = true → Memory.wf c.mem = true) ∧
    (Cells.below s.cfg.nvmCapacity s.chip.mem = true → Cells.below s.cfg.nvmCapacity c.mem = true) := by
  unfold chipDeselect
  split
  · exact ⟨_, _, rfl, freeWrites_wf _ _ _, freeWrites_below _ _ _⟩
  · rename_i hc
    split
    · rename_i hw
      unfold chipCommit
      split
      · split
        · exact ⟨_, _, rfl, freeWrites_wf _ _ _, freeWrites_below _ _ _⟩
        · refine ⟨_, _, rfl, Cells.writeList_wf _ _ _, Cells.writeList_below _ _ _ _ ?_⟩
          have : frameOutside s.cfg t = false := by
            cases hh : frameOutside s.cfg t with
            | false => rfl
            | true =>
              rw [hh] at hc
              simp at hc
          simp only [frameOutside, hw, Bool.true_or, Bool.true_and, decide_eq_false_iff_not] at this
          omega
      · exact ⟨s.chip, s.draws, rfl, id, id⟩
    · split
      · exact ⟨s.chip, s.draws, rfl, id, id⟩
      · exact ⟨{ s.chip with wel := true }, s.draws, rfl, id, id⟩

/-! ### The bytes of a frame -/

/-- What one byte changes. -/
theorem exchange_frame (cap : Capture) (t : List Byte) (s : State) : ∃ v d, exchange cap t s = { s with
    link := { s.link with sck := s.cfg.serIdleHigh, mosi := t.getD s.rx.length 0, miso := v }
    bidx := s.rx.length
    rx := s.rx ++ [v]
    draws := d
    nbuf := if cap = .nbuf ∧ 3 ≤ s.rx.length then s.nbuf.write (s.rx.length - 3) v else s.nbuf
    seq := if t.length ≤ s.rx.length + 1 then .nvc cap .ds else .nvc cap .x } := by
  have : ∃ v d, chipAnswer t s.rx.length s = (v, { s with draws := d }) := by
    unfold chipAnswer
    split <;> exact ⟨_, _, rfl⟩
  obtain ⟨v, d, e⟩ := this
  exact ⟨v, d, by simp only [exchange, e]⟩

/-- One byte whose response is a free value. -/
theorem exchange_free {cap : Capture} {t : List Byte} {s : State} (hc : cap ≠ .nbuf ∨ s.rx.length < 3)
    (hr : isReadFrame t = false ∨ s.rx.length < 3) :
    exchange cap t s = { s with
      link := { s.link with
        sck := s.cfg.serIdleHigh, mosi := t.getD s.rx.length 0, miso := Config.freeByte s.draws 0 }
      bidx := s.rx.length
      rx := s.rx ++ [Config.freeByte s.draws 0]
      draws := s.draws + 1
      seq := if t.length ≤ s.rx.length + 1 then .nvc cap .ds else .nvc cap .x } := by
  have h1 : chipAnswer t s.rx.length s = (Config.freeByte s.draws 0, drew 1 s) := by
    rw [chipAnswer, if_neg]
    rintro ⟨h, h3, -⟩
    rcases hr with hr | hr
    · rw [h] at hr
      cases hr
    · omega
  have h2 : ¬(cap = .nbuf ∧ 3 ≤ s.rx.length) := by
    rintro ⟨h, h3⟩
    rcases hc with hc | hc
    · exact hc h
    · omega
  simp only [exchange, h1, if_neg h2]
  rfl

/-- One data byte of a read frame inside the chip. -/
theorem exchange_data {cap : Capture} {t : List Byte} {s : State} (hr : isReadFrame t = true) (h3 : 3 ≤ s.rx.length)
    (hin : frameAddr t + (s.rx.length - 3) < s.cfg.nvmCapacity) (hg : s.chip.garbled = false) :
    exchange cap t s = { s with
      link := { s.link with
        sck := s.cfg.serIdleHigh, mosi := t.getD s.rx.length 0
        miso := s.chip.mem.read (frameAddr t + (s.rx.length - 3)) }
      bidx := s.rx.length
      rx := s.rx ++ [s.chip.mem.read (frameAddr t + (s.rx.length - 3))]
      nbuf := if cap = .nbuf then s.nbuf.write (s.rx.length - 3) (s.chip.mem.read (frameAddr t + (s.rx.length - 3)))
        else s.nbuf
      seq := if t.length ≤ s.rx.length + 1 then .nvc cap .ds else .nvc cap .x } := by
  have h1 : chipAnswer t s.rx.length s = (s.chip.mem.read (frameAddr t + (s.rx.length - 3)), s) := by
    rw [chipAnswer, if_pos ⟨hr, h3, hin, hg⟩]
  simp only [exchange, h1, h3, and_true]

/-- The bytes that are left of a frame that is no read frame. -/
theorem run_exchange_free {cap : Capture} {t : List Byte} {rest : List (List Byte)} (hc : cap ≠ .nbuf)
    (hr : isReadFrame t = false) (hw : wireFrameOk t = true) : ∀ (k : Nat) (s : State), s.seq = .nvc cap .x →
    s.cfg.ok = true → s.frames = t :: rest → s.rx.length + (k + 1) = t.length →
    ∃ r x, r.length = k + 1 ∧ r.getLast? = some x ∧ runTurns (List.replicate (k + 1) .seq) s = .next { s with
      link := ⟨s.link.cs, s.cfg.serIdleHigh, t.getD (t.length - 1) 0, x⟩
      bidx := t.length - 1
      rx := s.rx ++ r
      draws := s.draws + (k + 1)
      seq := .nvc cap .ds }
  | 0, s, hs, hok, hf, hl => by
    refine ⟨[Config.freeByte s.draws 0], _, rfl, rfl, Eq.trans (run_nvc 0 hs hok (nvcStep_x hf hw)) ?_⟩
    rw [exchange_free (.inl hc) (.inl hr), if_pos (Nat.le_of_eq hl.symm), show t.length - 1 = s.rx.length by omega]
    rfl
  | k + 1, s, hs, hok, hf, hl => by
    have hlt : ¬(t.length ≤ s.rx.length + 1) := by omega
    have e := exchange_free (s := s) (.inl hc) (.inl hr)
    rw [if_neg hlt] at e
    obtain ⟨r, x, h1, h2, h3⟩ := run_exchange_free hc hr hw k (exchange cap t s) (by rw [e]) (by rw [e]; exact hok)
      (by rw [e]; exact hf) (by rw [e]; simp only [List.length_append, List.length_singleton]; omega)
    refine ⟨Config.freeByte s.draws 0 :: r, x, by simp [h1], by rw [List.getLast?_cons, h2]; rfl, ?_⟩
    refine Eq.trans (run_nvc (k + 1) hs hok (nvcStep_x hf hw)) ?_
    rw [h3, e]
    simp only [List.append_assoc, List.singleton_append, Nat.add_assoc, Nat.add_comm 1]

/-- The data bytes that are left of a read frame inside the chip. -/
theorem run_exchange_data {cap : Capture} {t : List Byte} {rest : List (List Byte)} (hr : isReadFrame t = true)
    (hw : wireFrameOk t = true) : ∀ (k : Nat) (s : State), s.seq = .nvc cap .x → s.cfg.ok = true →
    s.frames = t :: rest → s.rx.length + (k + 1) = t.length → 3 ≤ s.rx.length →
    frameAddr t + (t.length - 3) ≤ s.cfg.nvmCapacity → s.chip.garbled = false →
    let got := s.chip.mem.readList (frameAddr t + (s.rx.length - 3)) (k + 1)
    ∃ n, (cap ≠ .nbuf → n = s.nbuf) ∧ (cap = .nbuf → n = s.nbuf.writeList (s.rx.length - 3) got) ∧
      runTurns (List.replicate (k + 1) .seq) s = .next { s with
        link := ⟨s.link.cs, s.cfg.serIdleHigh, t.getD (t.length - 1) 0,
          s.chip.mem.read (frameAddr t + (t.length - 4))⟩
        bidx := t.length - 1
        rx := s.rx ++ got
        nbuf := n
        seq := .nvc cap .ds }
  | 0, s, hs, hok, hf, hl, h3, hin, hg => by
    have e := exchange_data (cap := cap) hr h3 (by omega) hg
    rw [if_pos (Nat.le_of_eq hl.symm)] at e
    refine ⟨(exchange cap t s).nbuf, fun h => ?_, fun h => ?_, Eq.trans (run_nvc 0 hs hok (nvcStep_x hf hw)) ?_⟩
    · rw [e]
      exact if_neg h
    · rw [e]
      exact if_pos h
    · rw [e, show t.length - 1 = s.rx.length by omega, show t.length - 4 = s.rx.length - 3 by omega]
      rfl
  | k + 1, s, hs, hok, hf, hl, h3, hin, hg => by
    have hlt : ¬(t.length ≤ s.rx.length + 1) := by omega
    have e := exchange_data (cap := cap) hr h3 (by omega) hg
    rw [if_neg hlt] at e
    obtain ⟨n, h1, h2, h4⟩ := run_exchange_data hr hw k (exchange cap t s) (by rw [e]) (by rw [e]; exact hok)
      (by rw [e]; exact hf) (by rw [e]; simp only [List.length_append, List.length_singleton]; omega)
      (by rw [e]; simp only [List.length_append, List.length_singleton]; omega)
      (by rw [e]; exact hin) (by rw [e]; exact hg)
    have e2 : s.rx.length + 1 - 3 = s.rx.length - 3 + 1 := by omega
    refine ⟨n, fun h => ?_, fun h => ?_, Eq.trans (run_nvc (k + 1) hs hok (nvcStep_x hf hw)) ?_⟩
    · rw [h1 h, e]
      exact if_neg h
    · rw [h2 h, e]
      simp only [if_pos h, List.length_append, List.length_singleton, e2]
      rw [Cells.readList_succ _ _ (k + 1)]
      rfl
    · rw [h4, e]
      simp only [List.length_append, List.length_singleton, e2]
      rw [Cells.readList_succ _ _ (k + 1), List.append_assoc]
      rfl

end Sys2Proof.Machine
end

