-- ==== Sys2Proof/Laws/PerInstr.lean ====
section
/-! SUPPORT. Per-instruction facts about the encoding. `Encoding`: the access that is the instruction is a write of CMD
whose reserved bits are 000, or the read of STATUS (30_encoding.md R95, R99; 41_bus_engine.md R129). -/

namespace Sys2Proof.Laws.Encoding

/-- The instruction's access, and RSV = 000 where it is a CMD byte. -/
def Statement (i : Instr) : Prop :=
  (i = .getNmi ∧ encode i = .read offStatus) ∨ (encode i = .write offCmd (encodeCmd i) ∧ cmdRsv (encodeCmd i) = 0)

theorem busWr (sp : Space) : Statement (.busWr sp) := by cases sp <;> exact .inr ⟨rfl, rfl⟩
theorem busRd (sp : Space) : Statement (.busRd sp) := by cases sp <;> exact .inr ⟨rfl, rfl⟩
theorem nvmWren (b : Bool) : Statement (.nvmWren b) := by cases b <;> exact .inr ⟨rfl, rfl⟩
theorem nvmWrByte (b : Bool) : Statement (.nvmWrByte b) := by cases b <;> exact .inr ⟨rfl, rfl⟩
theorem nvmRdByte (b : Bool) : Statement (.nvmRdByte b) := by cases b <;> exact .inr ⟨rfl, rfl⟩
theorem nvmWrPage (b : Bool) : Statement (.nvmWrPage b) := by cases b <;> exact .inr ⟨rfl, rfl⟩
theorem nvmRdPage (b : Bool) : Statement (.nvmRdPage b) := by cases b <;> exact .inr ⟨rfl, rfl⟩
theorem stoWrite (b : Bool) : Statement (.stoWrite b) := by cases b <;> exact .inr ⟨rfl, rfl⟩
theorem stoRead (b : Bool) : Statement (.stoRead b) := by cases b <;> exact .inr ⟨rfl, rfl⟩
theorem flashProg (b : Bool) : Statement (.flashProg b) := by cases b <;> exact .inr ⟨rfl, rfl⟩
theorem getNmi : Statement .getNmi := .inl ⟨rfl, rfl⟩

end Sys2Proof.Laws.Encoding
end

