-- ==== Sys2Proof/Tests/Slice0.lean ====
section
/-! SUPPORT. Small tests: the encodings of 30_encoding.md R96 written out bit by bit, the checks of WellFormed, and the
vectors of 95_test_vectors.md, each on one step. -/

namespace Sys2Proof.Machine.Test

/-- A field of the next state, if there is one. -/
def get {α : Type} (o : Outcome) (f : State → α) : Option α :=
  match o with
  | .next t => some (f t)
  | .fault _ => none
  | .refused _ => none

/-- What a step is refused for. -/
def refusal (o : Outcome) : Option Refusal :=
  match o with
  | .next _ => none
  | .fault _ => none
  | .refused r => some r

/-- What a step faults for. -/
def faultOf (o : Outcome) : Option Fault :=
  match o with
  | .next _ => none
  | .fault r => some r
  | .refused _ => none

/-- A state in which the host performs one statement next. -/
def doing (st : HostStmt) (s : State) : State := { s with turns := [.host], host := [st] }

/-- A state in which an agent moves next. -/
def turn (t : Turn) (s : State) : State := { s with turns := [t] }

def idle : State := State.reset

/-- A BUS_RD in I/O space under way, about to perform a phase. -/
def reading (ph : BtePhase) : State := { idle with busy := true, cmd := 0x12, addr := 0x8001, seq := .bte .read .io ph }

/-- A BUS_WR in I/O space under way (95_test_vectors.md 3.1). -/
def writing (ph : BtePhase) : State :=
  { idle with busy := true, cmd := 0x11, addr := 0x1234, wdata := 0x5A, seq := .bte .write .io ph }

/-- FLASH_PROG of page 1 under way (95_test_vectors.md 5.1). -/
def flashing (ph : FrsPhase) : State :=
  { idle with busy := true, cmd := 0x0B, paddr := 0x100, fbuf := [(0, 0x34), (1, 0x12)], seq := .frs ph }

/-- A chip about to see a frame's end. -/
def ending (wel : Bool) (t rx : List Byte) : State :=
  { idle with
    busy := true
    seq := .nvc .rdata .ds
    frames := [t]
    rx := rx
    chip := { mem := [(0x10, 0x01)], wel := wel, busy := false, garbled := false } }

/-! ### WellFormed: R6, R163, R181 -/

theorem test_reference_ok : Config.reference.ok = true := by decide
theorem test_capacity_refused : ({ Config.reference with nvmCapacity := 300 } : Config).ok = false := by decide
theorem test_pageSize_refused : ({ Config.reference with pmPageSize := 96 } : Config).ok = false := by decide
theorem test_pageSize_one_refused : ({ Config.reference with pmPageSize := 1 } : Config).ok = false := by decide
theorem test_pmSize_refused : ({ Config.reference with pmSize := 0x8001 } : Config).ok = false := by decide
theorem test_resident_refused : ({ Config.reference with resBase := 0x7100 } : Config).ok = false := by decide
theorem test_holds_refused : ({ Config.reference with readHold := 0 } : Config).ok = false := by decide
theorem test_step_refuses_parameters :
    refusal (step (turn .seq { idle with cfg := { Config.reference with writeHold := 0 } })) = some .badParameters := by
  decide
theorem test_frame_opcode_refused : wireFrameOk [0x05] = false ∧ wireFrameOk [] = false := by decide
theorem test_short_write_refused : wireFrameOk [0x02, 0x00, 0x10] = false := by decide
theorem test_step_refuses_frame :
    refusal (step (turn .seq { idle with busy := true, seq := .nvc .discard .x, frames := [[0x05]] })) = some .badFrame := by
  decide

/-! ### Decoding: R95, R96, R99 -/

theorem test_dec_busWr_mem : decodeCmd 0b00000001#8 = .ok (.busWr .memory) := by decide
theorem test_dec_busWr_io : decodeCmd 0b00010001#8 = .ok (.busWr .io) := by decide
theorem test_dec_busRd_mem : decodeCmd 0b00000010#8 = .ok (.busRd .memory) := by decide
theorem test_dec_busRd_io : decodeCmd 0b00010010#8 = .ok (.busRd .io) := by decide
theorem test_dec_nvmWren : decodeCmd 0b00000100#8 = .ok (.nvmWren false) := by decide
theorem test_dec_nvmWren_bit4 : decodeCmd 0b00010100#8 = .ok (.nvmWren true) := by decide
theorem test_dec_nvmWrByte : decodeCmd 0b00000101#8 = .ok (.nvmWrByte false) := by decide
theorem test_dec_nvmRdByte : decodeCmd 0b00000110#8 = .ok (.nvmRdByte false) := by decide
theorem test_dec_nvmWrPage : decodeCmd 0b00000111#8 = .ok (.nvmWrPage false) := by decide
theorem test_dec_nvmRdPage : decodeCmd 0b00001000#8 = .ok (.nvmRdPage false) := by decide
theorem test_dec_stoWrite : decodeCmd 0b00001001#8 = .ok (.stoWrite false) := by decide
theorem test_dec_stoRead : decodeCmd 0b00001010#8 = .ok (.stoRead false) := by decide
theorem test_dec_flashProg : decodeCmd 0b00011011#8 = .ok (.flashProg true) := by decide
theorem test_dec_getNmi : decode (.read 0x0001) = .ok .getNmi := by decide
theorem test_dec_illegal_op : decodeCmd 0x00 = .error .reservedOp ∧ decodeCmd 0x03 = .error .reservedOp ∧
    decodeCmd 0x0C = .error .reservedOp ∧ decodeCmd 0x0F = .error .reservedOp := by decide
theorem test_dec_illegal_rsv : decodeCmd 0x21 = .error .reservedBits ∧ decodeCmd 0x41 = .error .reservedBits ∧
    decodeCmd 0x8B = .error .reservedBits := by decide
theorem test_dec_other_offset : decode (.write 0x0002 0x01) = .error .notACommand := by decide
theorem test_table_rows : decodeTableWord 8 0x0B = some (.flashProg false) ∧ decodeTableWord 8 0x20 = some .getNmi ∧
    decodeTableWord 8 0x0C = none := by decide

/-! ### The first step after reset runs the placed word -/

theorem test_fetch_busWr : get (step (State.reset.withFetchWord 8 0x01)) State.seq = some (.bte .write .memory .b1) := by
  decide
theorem test_fetch_flashProg : get (step (State.reset.withFetchWord 8 0x0B)) State.seq = some (.frs .f1) := by decide
theorem test_fetch_getNmi :
    get (step (State.reset.withFetchWord 8 0x20)) State.hist = some [.hostRead 0x0001 0x00] := by decide

/-! ### Violations and host accesses: 95_test_vectors.md section 2 -/

theorem test_E1 : get (step (doing (.wr 0 0x00) idle)) statusByte = some 0x06 := by decide
theorem test_E4 : get (step (doing (.wr 0 0x21) idle)) (fun t => (t.errCode, t.cmd, t.busy)) = some (1, 0x00, false) := by
  decide
theorem test_E5 : get (step (doing (.wr 0 0x14) idle)) (fun t => (t.cmd, t.busy, t.frames)) =
    some (0x14, true, [[0x06]]) := by decide
theorem test_E6 : get (step (doing (.wr 0 0x1B) { idle with paddr := 0x100 })) (fun t => (t.cmd, t.seq)) =
    some (0x1B, .frs .f1) := by decide
theorem test_E8 : get (step (doing (.wr 0 0x00) (reading .b7))) (fun t => (statusByte t, t.seq, t.cmd)) =
    some (0x0B, .bte .read .io .b7, 0x12) := by decide
theorem test_E9 : get (step (doing (.wr 2 0x55) (reading .b7))) (fun t => (t.addr, t.errCode)) = some (0x8001, 2) := by
  decide
theorem test_E11 : get (step (doing (.wr 5 0x00) (reading .b7))) (fun t => (t.err, t.faults)) = some (false, []) := by
  decide
theorem test_E12 : get (step (doing (.wr 0 0x00) { idle with err := true, errCode := 2 })) (fun t => (t.err, t.errCode)) =
    some (true, 2) := by decide
theorem test_E14 : get (step (doing (.rd 0x2100) { idle with fbuf := [(0xFF, 0x77)] })) State.hist =
    some [.hostRead 0x2100 0x00] := by decide
theorem test_E15 : get (step (doing (.rd 3) { idle with addr := 0xBEEF })) State.hist = some [.hostRead 3 0xBE] := by decide
theorem test_E16 : get (step (doing (.rd 9) { idle with paddr := 0x00012300 })) State.hist = some [.hostRead 9 0x23] := by
  decide
theorem test_paddr2_write : get (step (doing (.wr 0x000A 0xAB) { idle with paddr := 0x11223344 })) State.paddr =
    some 0x11AB3344 := by decide
theorem test_fbuf_last : get (step (doing (.wr 0x20FF 0x9C) idle)) State.fbuf = some [(0xFF, 0x9C)] := by decide
theorem test_status_value : statusByte { idle with busy := true, err := true, errCode := 2, nmi := true } = 0x2B := by
  decide
theorem test_status_region : statusByte { idle with err := true, errCode := 5 } = 0x16 := by decide
theorem test_R129 : get (exec .getNmi { idle with busy := true, nmi := true }) State.hist =
    some [.hostRead 0x0001 0x21] := by decide
theorem test_B9_no_latch : get (step (turn (.xbusNmi false) { idle with nmi := true })) statusByte = some 0x00 := by decide
theorem test_wide : get (step (doing (.wide 2) idle)) (fun t => (t.faults, t.addr)) = some ([.hostWidth], 0) := by decide

/-! ### Bus engine: 95_test_vectors.md section 3 -/

theorem test_busWr_b2 : get (step (turn .seq (writing .b2))) (fun t => (t.pins.selm, t.pins.seli, t.pins.aux)) =
    some (false, true, true) := by decide
theorem test_busWr_b4 : get (step (turn .seq (writing .b4))) (fun t => (t.pins.ah, t.pins.al)) = some (0x12, 0x34) := by
  decide
theorem test_busWr_b6 : get (step (turn .seq (writing .b6))) (fun t => (t.pins.wr, t.hist)) =
    some (true, [.bus .write .io 0x1234 0x5A]) := by decide
theorem test_busRd_b7_stays : get (step (turn .seq (reading .b7))) (fun t => (t.hold, t.seq)) =
    some (1, .bte .read .io .b7) := by decide
theorem test_busRd_b8 : get (step (turn .seq { reading .b8 with xbus := .answers [0x3C, 0x42] }))
    (fun t => (t.rdata, t.hist, t.xbus)) = some (0x3C, [.bus .read .io 0x8001 0x3C], .answers [0x42]) := by decide
theorem test_echo_space : get (step (turn .seq { reading .b8 with
    xbus := .echo, hist := [.bus .write .io 0x8001 0x77, .bus .write .memory 0x8001 0x88] })) State.rdata = some 0x77 := by
  decide
theorem test_busRd_b9c : get (step (turn .seq (reading .b9c))) (fun t => (t.busy, t.pins.ddir, t.seq)) =
    some (false, true, .idle) := by decide

/-! ### NVM controller and chip: 95_test_vectors.md section 4 -/

theorem test_N2_frames : get (exec (.nvmWrByte false) { idle with addr := 0x0102, wdata := 0xAB }) State.frames =
    some [[0x06], [0x02, 0x01, 0x02, 0xAB]] := by decide
theorem test_N3_frames : get (exec (.nvmRdByte false) { idle with addr := 0x0102 }) State.frames =
    some [[0x03, 0x01, 0x02, 0xFF]] := by decide
theorem test_N5 : get (exec (.nvmRdByte false) { idle with addr := 0x7FFF }) State.faults = some [] := by decide
theorem test_N6 : get (exec (.nvmRdByte false) { idle with addr := 0x8000 }) (fun t => (t.faults, t.err)) =
    some ([.nvmRange], false) := by decide
theorem test_N8 : get (exec (.nvmWrPage false) { idle with addr := 0x0105 }) (fun t => (t.frames.map (List.take 3), t.faults)) =
    some ([[0x06], [0x02, 0x05, 0x00]], []) := by decide
theorem test_N10_frames : get (exec (.nvmRdPage false) { idle with addr := 0x0003 }) (fun t => t.frames.map (List.take 4)) =
    some [[0x03, 0x03, 0x00, 0xFF]] := by decide
theorem test_N7_length : (wrPageFrame idle).length = 259 := by simp [wrPageFrame, Cells.readList]
theorem test_N12 : get (exec (.stoWrite false) { idle with addr := 0x007F }) (fun t => t.frames.map (List.take 3)) =
    some [[0x06], [0x02, 0x7F, 0x00]] := by decide
theorem test_N15 : get (exec (.stoWrite false) { idle with addr := 0x0100 }) (fun t => (t.frames, t.faults, t.seq)) =
    some ([], [], .nvc .discard .noop) := by decide
theorem test_N18 : get (exec (.stoRead false) { idle with addr := 0x0200 }) (fun t => (t.frames, t.seq)) =
    some ([], .nvc .discard .noop) := by decide
theorem test_noop_ends : get (step (turn .seq { idle with busy := true, seq := .nvc .discard .noop }))
    (fun t => (t.busy, t.hist)) = some (false, []) := by decide
theorem test_N17_byte : get (step (turn .seq { idle with
    busy := true, seq := .nvc .nbuf .x, frames := [[0x03, 0x03, 0x00, 0xFF, 0xFF, 0xFF]]
    rx := [0, 0, 0, 0], chip := ⟨[(0x301, 0x5E)], false, false, false⟩ })) (fun t => (t.nbuf, t.bidx)) =
    some ([(1, 0x5E)], 4) := by decide
theorem test_N22 : get (step (turn .seq { idle with
    cfg := { Config.reference with nvmWriteCycle := true }
    busy := true, seq := .nvc .rdata .cs, frames := [[0x03, 0x01, 0x02, 0xFF]]
    chip := ⟨[], false, true, false⟩ })) State.faults = some [.nvmChipBusy] := by decide
theorem test_N23 : get (step (turn .seq { idle with
    cfg := { Config.reference with nvmChipPage := 2 }
    busy := true, seq := .nvc .discard .cs, frames := [[0x02, 0x01, 0x00, 0xFF, 0xFF, 0xFF]] }))
    State.faults = some [.nvmChipPage] := by decide
theorem test_M1 : get (step (turn .seq (ending false [0x02, 0x00, 0x10, 0xAA] [0, 0, 0, 0])))
    (fun t => (t.chip.mem, t.chip.wel)) = some ([(0x10, 0x01)], false) := by decide
theorem test_M2 : get (step (turn .seq (ending true [0x02, 0x00, 0x10, 0xAA, 0xBB] [0, 0, 0, 0, 0])))
    (fun t => (t.chip.mem, t.chip.wel)) = some ([(0x10, 0xAA), (0x11, 0xBB)], false) := by decide
theorem test_M3 : get (step (turn .seq (ending true [0x03, 0x00, 0x10, 0xFF] [0, 0, 0, 0x77])))
    (fun t => (t.rdata, t.chip.wel, t.busy)) = some (0x77, true, false) := by decide
theorem test_M4 : get (step (turn .seq (ending false [0x06] [0]))) (fun t => t.chip.wel) = some true := by decide

/-! ### Flash: 95_test_vectors.md section 5 -/

theorem test_F3 : get (exec (.flashProg false) { idle with paddr := 0x180 }) (fun t => (t.errCode, t.busy, t.cmd)) =
    some (3, false, 0x00) := by decide
theorem test_F4 : get (exec (.flashProg false) { idle with paddr := 0x8000 }) State.errCode = some 4 := by decide
theorem test_F5 : get (exec (.flashProg false) { idle with paddr := 0x6F00 }) State.busy = some true := by decide
theorem test_F7 : get (exec (.flashProg false) { idle with paddr := 0x7F00 }) State.errCode = some 5 := by decide
theorem test_F8 : get (exec (.flashProg false) { idle with paddr := 0xFFFFFFFF }) State.errCode = some 3 := by decide
theorem test_F9 : get (exec (.flashProg false) { idle with paddr := 0xFFFFFF00 }) State.errCode = some 4 := by decide
theorem test_f1_f2 : get (step (turn .seq { flashing .f1 with gie := true })) (fun t => (t.savedIe, t.gie)) =
    some (true, true) ∧ get (step (turn .seq { flashing .f2 with gie := true })) State.gie = some false := by decide
theorem test_f3 : get (step (turn .seq (flashing .f3))) (fun t => (t.appRdEn, t.flashBusy, t.hist)) =
    some (false, true, [.flashErase 1]) := by decide
theorem test_f4_waits : get (step (turn .seq { flashing .f4 with flashBusy := true })) State.seq = some (.frs .f4) := by
  decide
theorem test_f5 : get (step (turn .seq (flashing .f5))) (fun t => (t.wbuf, t.widx)) = some ([(0, 0x1234)], 1) := by decide
theorem test_write_completes : get (step (turn .flash { flashing .f7 with
    cfg := { Config.reference with pmPageSize := 4 }
    flashBusy := true, flashOp := some (.write 0x40), wbuf := [(0, 0x1234), (1, 0x0056)] })) (fun t => (t.pm, t.flashBusy)) =
    some ([(0x100, 0x34), (0x101, 0x12), (0x102, 0x56)], false) := by decide
theorem test_f9 : get (step (turn .seq { flashing .f9 with savedIe := true, widx := 128 }))
    (fun t => (t.gie, t.busy, t.widx)) = some (true, false, 0) := by decide
theorem test_F12 : get (step (doing (.pmFetch 0x0400) { flashing .f5 with appRdEn := false })) State.faults =
    some [.appAccess] := by decide
theorem test_F13 : get (step (doing (.pmFetch 0x7100) { flashing .f5 with appRdEn := false })) State.faults = some [] := by
  decide
theorem test_F14 : get (step (doing .sei (flashing .f6))) (fun t => (t.faults, t.gie)) = some ([.gieWrite], true) := by decide
theorem test_F16 : get (step (doing (.takeIrq .timer) { idle with irqs := [.timer] })) State.irqs = some [.timer] := by decide
theorem test_F15 : get (step (doing (.takeIrq .timer) { idle with irqs := [.timer], gie := true })) State.irqs = some [] := by
  decide
theorem test_pm_outside : faultOf (step (doing (.pmRead 0x8000) idle)) = some .pmOutside := by decide

/-! ### Reset: 95_test_vectors.md section 6 -/

theorem test_X2 : get (step (turn .reset (writing .b7))) (fun t => (t.pins.wr, t.pins.ddir, t.busy, t.cmd)) =
    some (false, true, false, 0x00) := by decide
theorem test_X5 : get (step (turn .reset { idle with
    busy := true, seq := .nvc .discard .x, frames := [[0x06], [0x02, 0x05, 0x00, 0x01]], chip := ⟨[(0x500, 1)], false, false, false⟩ }))
    (fun t => (t.chip.mem, t.link.cs)) = some ([(0x500, 1)], false) := by decide
theorem test_X6 : get (step (turn .reset { flashing .f3 with pm := [(0x100, 0x7E)], savedIe := true }))
    (fun t => (t.pm, t.gie)) = some ([(0x100, 0x7E)], false) := by decide
theorem test_X8 : get (step (turn .reset { flashing .f9 with pm := [(0x100, 0x34)] })) State.pm = some [(0x100, 0x34)] := by
  decide
theorem test_X9 : get (step (turn .reset { idle with err := true, errCode := 1, faults := [.violation .illegalCmd] }))
    (fun t => (statusByte t, t.faults)) = some (0x00, [.violation .illegalCmd]) := by decide

/-! ### Pseudo-instructions: R107 -/

theorem test_expand_busr : expand (.busr .io 0x8001) =
    [.wr 0x0002 0x01, .wr 0x0003 0x80, .wr 0x0000 0x12, .wait, .rd 0x0005] := by decide
theorem test_expand_fprog : expand (.fprog 0x00012300) =
    [.wr 0x0008 0x00, .wr 0x0009 0x23, .wr 0x000A 0x01, .wr 0x000B 0x00, .wr 0x0000 0x0B, .wait] := by decide

/-! ### Witnesses: states and operands that meet the hypotheses of the obligations, clause by clause -/

/-- A chip with a write cycle, ready. -/
def cycling : State := { idle with cfg := { Config.reference with nvmWriteCycle := true, nvmChipPage := 256 } }

theorem witness_StepRunsDecodedInstruction : idle.cfg.ok = true ∧ decode (.write 0x0000 0x0B) = .ok (.flashProg false) ∧
    decode (.read 0x0001) = .ok .getNmi ∧ idle.busy = false ∧ (reading .b7).cfg.ok = true ∧ (reading .b7).busy = true := by
  decide
theorem witness_PlacedWordRunsNext : idle.cfg.ok = true ∧ decodeTableWord 8 0x01 = some (.busWr .memory) ∧
    decodeTableWord 8 0x3F = some .getNmi := by decide
theorem witness_DecodeEncodeAgree : decode (.write 0x0000 0x1B) = .ok (.flashProg true) ∧
    decode (.write 0x0000 0x01) = .ok (.busWr .memory) := by decide
theorem witness_BadParametersRefused :
    let c := { Config.reference with writeHold := 0 }
    ¬(c.nvmCapacity % 256 = 0 ∧ 256 ≤ c.nvmCapacity ∧ c.nvmCapacity ≤ 65536 ∧
      (∃ k, 1 ≤ k ∧ k ≤ 13 ∧ c.pmPageSize = 2 ^ k) ∧ c.pmSize % c.pmPageSize = 0 ∧ c.resBase % c.pmPageSize = 0 ∧
      c.resSize % c.pmPageSize = 0 ∧ c.resBase + c.resSize ≤ c.pmSize ∧ 1 ≤ c.readHold ∧ 1 ≤ c.writeHold) :=
  fun h => absurd h.2.2.2.2.2.2.2.2.2 (by decide)
theorem witness_IllegalCommandByteRefused : idle.cfg.ok = true ∧ (0x21#8).extractLsb' 5 3 ≠ 0 ∧
    ((0x00#8).extractLsb' 0 4).toNat = 0x0 ∧ ((0x13#8).extractLsb' 0 4).toNat = 0x3 ∧
    0xC ≤ ((0x0C#8).extractLsb' 0 4).toNat ∧ 0xC ≤ ((0x1F#8).extractLsb' 0 4).toNat := by decide
theorem witness_OverlapRefused_guarded : (reading .b7).cfg.ok = true ∧ (reading .b7).busy = true ∧
    ∀ off ∈ [0x0000, 0x0002, 0x0004, 0x0008, 0x000B, 0x0100, 0x01FF, 0x2000, 0x20FF],
      guardedOffset (reading .b7).cfg off := by
  refine ⟨by decide, by decide, ?_⟩
  simp [guardedOffset, reading, idle, State.reset, Config.reference]
theorem witness_OverlapRefused_other :
    ∀ off ∈ [0x0001, 0x0005, 0x0007, 0x000C, 0x00FF, 0x0200, 0x1FFF, 0x2100, 0x3FFF],
      ¬guardedOffset (reading .b7).cfg off := by
  simp [guardedOffset, reading, idle, State.reset, Config.reference]
theorem witness_OperandWritesChangeOneByte : idle.cfg.ok = true ∧ idle.busy = false ∧
    (0x0008#14).toNat = 0x0008 + 0 ∧ (0x000B#14).toNat = 0x0008 + 3 := by decide
theorem witness_BufferWritesChangeOneByte : idle.cfg.ok = true ∧ idle.busy = false ∧ Memory.wf idle.nbuf = true ∧
    Memory.wf idle.fbuf = true ∧ (0x0100#14).toNat = 0x0100 + 0 ∧ (0x01FF#14).toNat = 0x0100 + 255 ∧
    255 < idle.cfg.pmPageSize ∧ (0x2000#14).toNat = 0x2000 + 0 ∧ (0x20FF#14).toNat = 0x2000 + 255 := by decide
theorem witness_ReservedOffsetsInert : idle.cfg.ok = true ∧
    ∀ off ∈ [0x0006, 0x0007, 0x000C, 0x00FF, 0x0200, 0x1FFF, 0x2100, 0x3FFF], reservedOffset idle.cfg off := by
  refine ⟨by decide, ?_⟩
  simp [reservedOffset, idle, State.reset, Config.reference]
theorem witness_HostReadColumn : idle.cfg.ok = true ∧ idle.busy = false ∧ (0x0008#14).toNat = 0x0008 + 0 ∧
    (0x000B#14).toNat = 0x0008 + 3 ∧ (0x0100#14).toNat = 0x0100 + 0 ∧ (0x01FF#14).toNat = 0x0100 + 255 ∧
    (0x20FF#14).toNat = 0x2000 + 255 ∧ 255 < idle.cfg.pmPageSize := by decide
theorem witness_ResultsUnspecifiedWhileBusy : (reading .b7).cfg.ok = true ∧ (reading .b7).busy = true ∧
    0x0100 ≤ (0x0100#14).toNat ∧ (0x01FF#14).toNat ≤ 0x01FF := by decide
theorem witness_CommandsRefusedWhileBusy : Instr.busWr .io ≠ .getNmi ∧ (reading .b7).busy = true := by decide
theorem witness_GieChangeFaults : (flashing .f3).cfg.ok = true ∧ (flashing .f3).gie ≠ true ∧
    (flashing .f3).seq = .frs .f3 ∧ (flashing .f9).seq = .frs .f9 := by decide
theorem witness_ProgramMemoryReads : idle.cfg.ok = true ∧ idle.cfg.pmSize ≤ (0x8000#32).toNat ∧
    (0x7FFF#32).toNat < idle.cfg.pmSize ∧ idle.appRdEn = true ∧ idle.cfg.resBase ≤ (0x7000#32).toNat ∧
    (0x7FFF#32).toNat < idle.cfg.resBase + idle.cfg.resSize ∧
    ({ flashing .f4 with appRdEn := false } : State).appRdEn = false ∧ ¬idle.cfg.resBase ≤ (0x6FFF#32).toNat := by decide
/-- POL inverts the pins it calls active low, each by its own field (R5, R34). -/
theorem test_physicalPins :
    physicalPins { Config.reference.pol with ah := false, wr := false } ⟨false, true, false, true, false, true, 0x5A, 0x12, 0x34⟩ =
      ⟨false, false, false, true, false, true, 0x5A, 0xED, 0x34⟩ := by decide
theorem witness_OutsideEvents : idle.cfg.ok = true ∧ idle.gie = false ∧ ({ idle with gie := true } : State).gie = true := by
  decide
theorem witness_BusWriteRuns : idle.cfg.ok = true ∧ idle.busy = false ∧ idle.hold = 0 := by decide
theorem witness_BusReadRuns : idle.cfg.ok = true ∧ idle.busy = false ∧ idle.hold = 0 ∧ idle.xbus = .answers [] ∧
    ({ idle with xbus := .answers [0x3C] } : State).xbus = .answers [0x3C] ∧
    (∀ w, Event.bus .write .io idle.addr w ∉ idle.hist) := by
  exact ⟨by decide, rfl, rfl, rfl, rfl, fun _ => List.not_mem_nil⟩
theorem witness_BusReadRuns_echo :
    let e : Event := .bus .write .io 0x8001 0x5A
    let s := { idle with xbus := .echo, addr := 0x8001, hist := [.bus .write .io 0x8001 0x11, e, .hostWrite 0x0000 0x12] }
    s.cfg.ok = true ∧ s.busy = false ∧ s.hold = 0 ∧ s.xbus = .echo ∧
      s.hist = [.bus .write .io 0x8001 0x11] ++ .bus .write .io s.addr 0x5A :: [.hostWrite 0x0000 0x12] ∧
      ∀ w, Event.bus .write .io s.addr w ∉ [Event.hostWrite 0x0000 0x12] :=
  ⟨by decide, rfl, rfl, rfl, rfl, fun _ h => by simp at h⟩
theorem witness_BusWriteTrace : (writing .b1).cfg.ok = true ∧ (writing .b1).hold = 0 ∧
    (writing .b1).seq = .bte .write .io .b1 := by decide
theorem witness_BusReadTrace : (reading .b1).cfg.ok = true ∧ (reading .b1).hold = 0 ∧
    (reading .b1).seq = .bte .read .io .b1 := by decide
theorem witness_BusWriteObservable : (writing .b1).cfg.ok = true ∧ (writing .b1).hold = 0 ∧
    (writing .b1).seq = .bte .write .io .b1 ∧ (writing .b1).pins.ddir = true := by decide
theorem witness_BusReadObservable : (reading .b1).cfg.ok = true ∧ (reading .b1).hold = 0 ∧
    (reading .b1).seq = .bte .read .io .b1 ∧ (reading .b1).pins.ddir = true := by decide
theorem witness_EchoRoundTrip :
    let s := { idle with xbus := .echo }
    s.cfg.ok = true ∧ s.busy = false ∧ s.hold = 0 ∧ s.xbus = .echo := by decide
theorem witness_NvmWriteEnableRuns : cycling.cfg.ok = true ∧ cycling.busy = false ∧ chipReady cycling ∧ chipReady idle := by
  unfold chipReady; decide
theorem witness_NvmWriteByteRuns :
    let s := { cycling with addr := 0x7FFF }
    s.cfg.ok = true ∧ s.busy = false ∧ chipReady s ∧ s.addr.toNat < s.cfg.nvmCapacity ∧
      Memory.wf s.chip.mem = true := by unfold chipReady; decide
theorem witness_NvmReadByteRuns :
    let s := { cycling with addr := 0x7FFF }
    s.cfg.ok = true ∧ s.busy = false ∧ chipReady s ∧ s.addr.toNat < s.cfg.nvmCapacity := by unfold chipReady; decide
theorem witness_NvmWritePageRuns :
    let s := { cycling with addr := 0x007F }
    let s' := { cycling with addr := 0xFF7F }
    s.cfg.ok = true ∧ s.busy = false ∧ chipReady s ∧ chipPageFits s.cfg ∧ Memory.wf s.chip.mem = true ∧
      (s.addr.extractLsb' 0 8).toNat < s.cfg.nvmCapacity / 256 ∧ s.addr.toNat < s.cfg.nvmCapacity / 256 ∧
      (s'.addr.extractLsb' 0 8).toNat < s'.cfg.nvmCapacity / 256 := by unfold chipReady chipPageFits; decide
theorem witness_NvmReadPageRuns :
    let s := { cycling with addr := 0x007F }
    s.cfg.ok = true ∧ s.busy = false ∧ chipReady s ∧ Memory.wf s.nbuf = true ∧
      (s.addr.extractLsb' 0 8).toNat < s.cfg.nvmCapacity / 256 ∧ s.addr.toNat < s.cfg.nvmCapacity / 256 := by
  unfold chipReady; decide
theorem witness_StorageOutOfRangeIsNoOp :
    let s := { idle with addr := 0x0080 }
    s.cfg.ok = true ∧ s.busy = false ∧ s.frames = [] ∧ s.rx = [] ∧ s.bidx = 0 ∧
      s.cfg.nvmCapacity / 256 ≤ s.addr.toNat := by decide
theorem witness_RawCommandsOutsideChip :
    let s := { idle with addr := 0x8000 }
    let s' := { idle with addr := 0x0080 }
    s.busy = false ∧ s.cfg.nvmCapacity ≤ s.addr.toNat ∧ s'.busy = false ∧
      s'.cfg.nvmCapacity / 256 ≤ (s'.addr.extractLsb' 0 8).toNat := by decide
theorem witness_ChipCommitsOnlyWhenEnabled :
    let s := ending true [0x02, 0x7F, 0xFF, 0xAA] [0, 0, 0, 0]
    s.cfg.ok = true ∧ s.seq = .nvc .rdata .ds ∧ s.frames = [[0x02, 0x7F, 0xFF, 0xAA]] ∧ s.chip.garbled = false ∧
      chipPageTakes s.cfg 1 ∧ chipPageTakes { s.cfg with nvmChipPage := 1 } 1 ∧
      (0x7F#8).toNat * 256 + (0xFF#8).toNat + 0 < s.cfg.nvmCapacity ∧ Memory.wf s.chip.mem = true ∧ s.chip.wel = true ∧
      (ending false [0x02, 0x7F, 0xFF, 0xAA] [0, 0, 0, 0]).chip.wel = false := by unfold chipPageTakes; decide
theorem witness_FrameStartFaults :
    let s := { idle with seq := .nvc .discard .cs, frames := [[0x02, 0x00, 0x10, 0xAA, 0xBB]]
                         cfg := { Config.reference with nvmWriteCycle := true, nvmChipPage := 1 }
                         chip := ⟨[], true, true, false⟩ }
    s.cfg.ok = true ∧ s.seq = .nvc .discard .cs ∧ s.frames = [[0x02, 0x00, 0x10, 0xAA, 0xBB]] ∧
      wireFrameOk [0x02, 0x00, 0x10, 0xAA, 0xBB] = true ∧ s.chip.busy = true ∧ s.cfg.nvmChipPage + 3 < 5 := by decide
theorem witness_ChipCycleEnds : cycling.cfg.ok = true := by decide
theorem witness_StorageRoundTrip :
    let s := { cycling with addr := 0x007F, nbuf := [(0, 0x01), (255, 0xFF)] }
    s.cfg.ok = true ∧ s.busy = false ∧ chipReady s ∧ chipPageFits s.cfg ∧ Memory.wf s.chip.mem = true ∧
      Memory.wf [(3, 0x07#8)] = true ∧ s.addr.toNat < s.cfg.nvmCapacity / 256 := by unfold chipReady chipPageFits; decide
theorem witness_FlashProgramRuns :
    let s := { idle with paddr := 0x6F00 }
    s.cfg.ok = true ∧ s.busy = false ∧ s.widx = 0 ∧ Memory.wf s.pm = true ∧ Cells.wf s.wbuf = true ∧ flashTargetOk s := by
  unfold flashTargetOk; decide
theorem witness_FlashChecksRefuse : idle.cfg.ok = true ∧ idle.busy = false ∧ ¬flashTargetOk { idle with paddr := 0x180 } ∧
    ¬flashTargetOk { idle with paddr := 0x8000 } ∧ ¬flashTargetOk { idle with paddr := 0x7000 } := by
  unfold flashTargetOk; decide
theorem witness_FlashWaitPhases : (flashing .f1).cfg.ok = true ∧ (flashing .f1).seq = .frs .f1 ∧
    (flashing .f4).seq = .frs .f4 ∧ (flashing .f4).flashBusy = false ∧ (flashing .f7).seq = .frs .f7 ∧
    ({ flashing .f7 with flashBusy := true } : State).flashBusy = true := by decide
theorem witness_FlashActionPhases : (flashing .f2).cfg.ok = true ∧ (flashing .f2).seq = .frs .f2 ∧
    (flashing .f3).seq = .frs .f3 ∧ Memory.wf (flashing .f3).pm = true ∧ (flashing .f6).seq = .frs .f6 ∧
    (flashing .f8).seq = .frs .f8 ∧ (flashing .f9).seq = .frs .f9 := by decide
theorem witness_FlashAgentCompletes :
    let s := { flashing .f7 with flashBusy := true, flashOp := some (.write 1) }
    let s' := { flashing .f4 with flashBusy := true, flashOp := some (.erase 1) }
    s.cfg.ok = true ∧ s.flashBusy = true ∧ Memory.wf s.pm = true ∧ s.flashOp = some (.write 1) ∧
      s'.flashOp = some (.erase 1) := by decide
theorem witness_ResetSetsControlState : (writing .b7).cfg.ok = true := by decide
theorem witness_ResetLeavesBlockIdle : (flashing .f5).cfg.ok = true := by decide
theorem witness_ResetDuringFlash : (flashing .f4).cfg.ok = true ∧ Memory.wf (flashing .f4).pm = true ∧
    (0x200 : Nat) / 256 ≠ (flashing .f4).paddr.toNat / 256 ∧ (flashing .f3).seq ≠ .frs .f4 ∧
    (flashing .f9).seq ≠ .frs .f8 := by decide
theorem witness_ResetDuringNvm :
    let s := { ending true [0x02, 0x7F, 0xFE, 0xAA, 0xBB] [0, 0, 0, 0] with seq := .nvc .discard .x }
    let s' := ending true [0x06] [0]
    s.cfg.ok = true ∧ Memory.wf s.chip.mem = true ∧ s.frames = [[0x02, 0x7F, 0xFE, 0xAA, 0xBB]] ∧
      s.chip.garbled = false ∧ chipPageTakes s.cfg 2 ∧ chipPageTakes { s.cfg with nvmChipPage := 2 } 2 ∧
      (0x7F#8).toNat * 256 + (0xFE#8).toNat + 2 ≤ s.cfg.nvmCapacity ∧ s'.frames = [[0x06]] ∧
      ([0x06] : List Byte).head? ≠ some 0x02 := by unfold chipPageTakes; decide
theorem witness_ResetDuringNvm_none : (writing .b7).cfg.ok = true ∧ Memory.wf (writing .b7).chip.mem = true ∧
    (writing .b7).frames = [] ∧ ∀ cap, (writing .b7).seq ≠ .nvc cap .x ∧ (writing .b7).seq ≠ .nvc cap .ds :=
  ⟨by decide, by decide, rfl, fun _ => ⟨by simp [writing], by simp [writing]⟩⟩

/-- A bus write holding its strobe. -/
def strobing : State := { writing .b7 with pins := ⟨false, true, false, true, false, true, 0x5A, 0x12, 0x34⟩, turns := [.seq] }

/-- A FLASH_PROG that has erased its page and waits. -/
def erasing : State :=
  { flashing .f4 with appRdEn := false, flashBusy := true, flashOp := some (.erase 1), turns := [.flash] }

theorem witness_Inv_bus : Inv strobing where
  params := by decide
  busy := by unfold BusyInv; decide
  pins := ⟨by decide, fun _ _ _ _ _ => ⟨by decide, by decide⟩⟩
  link := ⟨(fun h => by cases h), (fun h => by obtain ⟨_, h | h⟩ := h <;> cases h)⟩
  hold := by
    show strobing.hold < holdCycles strobing.cfg .write
    decide
  frames := ⟨by decide, rfl⟩
  flash := ⟨by decide, by decide, by decide, by decide, rfl⟩
  err := ⟨fun _ => rfl, (fun h => by cases h)⟩
  mask := fun h => by cases h
  mem := by unfold MemInv; decide
  bounds := by unfold BoundsInv; decide
  faults := List.nodup_nil
  irqs := List.nodup_nil

theorem witness_Inv_flash : Inv erasing where
  params := by decide
  busy := by unfold BusyInv; decide
  pins := ⟨by decide, fun _ _ _ h => by cases h⟩
  link := ⟨(fun h => by cases h), (fun h => by obtain ⟨_, h | h⟩ := h <;> cases h)⟩
  hold := rfl
  frames := ⟨by decide, rfl⟩
  flash := ⟨by decide, by decide, by decide, by decide, rfl⟩
  err := ⟨fun _ => rfl, (fun h => by cases h)⟩
  mask := fun _ => .inl rfl
  mem := by unfold MemInv; decide
  bounds := by unfold BoundsInv; decide
  faults := List.nodup_nil
  irqs := List.nodup_nil

theorem witness_StepKeepsInv : Inv strobing ∧ ∃ t, step strobing = .next t := ⟨witness_Inv_bus, _, rfl⟩
theorem witness_InvariantStatesRun : Inv strobing ∧ Inv erasing := ⟨witness_Inv_bus, witness_Inv_flash⟩
theorem witness_ResidentRegionNeverChanges : Inv erasing ∧ (∃ t, step erasing = .next t) ∧
    erasing.cfg.resBase ≤ 0x7000 ∧ 0x7FFF < erasing.cfg.resBase + erasing.cfg.resSize :=
  ⟨witness_Inv_flash, ⟨_, rfl⟩, by decide, by decide⟩
theorem witness_OnlyTargetPageChanges : Inv erasing ∧ (∃ t, step erasing = .next t) ∧
    (0x200 : Nat) / erasing.cfg.pmPageSize ≠ erasing.paddr.toNat / erasing.cfg.pmPageSize ∧
    unitOf strobing.seq ≠ .frs := ⟨witness_Inv_flash, ⟨_, rfl⟩, by decide, by decide⟩
theorem witness_RecordsOnlyGrow : ∃ t, step (turn .seq (writing .b6)) = .next t := ⟨_, rfl⟩
theorem witness_ErrorIsSticky :
    let s := doing (.wr 0 0x00) { idle with err := true, errCode := 2 }
    (∃ t, step s = .next t) ∧ (takeTurn s).1 ≠ .reset ∧ s.err = true := ⟨⟨_, rfl⟩, by decide, by decide⟩
theorem witness_OperandsFixedWhileBusy :
    let s := doing (.wr 2 0x55) (reading .b7)
    (∃ t, step s = .next t) ∧ (takeTurn s).1 ≠ .reset ∧ s.busy = true ∧ s.seq ≠ .nvc .nbuf .x :=
  ⟨⟨_, rfl⟩, by decide, by decide, by decide⟩
theorem witness_UnitsAreSeparate : (ending true [0x06] [0]).cfg.ok = true ∧
    (∃ t, step (agentTurn .seq (ending true [0x06] [0])) = .next t) ∧ unitOf (ending true [0x06] [0]).seq = .nvc ∧
    (∃ t, step (agentTurn .seq (flashing .f6)) = .next t) ∧ unitOf (flashing .f6).seq = .frs ∧
    (∃ t, step (agentTurn .seq (reading .b3)) = .next t) ∧ unitOf (reading .b3).seq = .bte ∧
    (∃ t, step (agentTurn .seq idle) = .next t) ∧ unitOf idle.seq = .none :=
  ⟨by decide, ⟨_, rfl⟩, rfl, ⟨_, rfl⟩, rfl, ⟨_, rfl⟩, rfl, ⟨_, rfl⟩, rfl⟩
theorem witness_NvcKeepsOthers : (ending true [0x06] [0]).cfg.ok = true ∧ unitOf (ending true [0x06] [0]).seq = .nvc ∧
    (∃ t, step (agentTurn .seq (ending true [0x06] [0])) = .next t) ∧ Instr.stoRead true ∈ [Instr.stoRead true] :=
  ⟨by decide, rfl, ⟨_, rfl⟩, List.mem_cons_self⟩
theorem witness_StrobesFollowPhases : Inv strobing ∧ strobing.pins.wr = true := ⟨witness_Inv_bus, rfl⟩

end Sys2Proof.Machine.Test
end

section
/-! SUPPORT. What R6's check of the parameters says, and the step of a machine whose parameters fail it. -/

namespace Sys2Proof

theorem Config.capacityOk_iff (c : Config) :
    c.capacityOk = true ↔ c.nvmCapacity % 256 = 0 ∧ 256 ≤ c.nvmCapacity ∧ c.nvmCapacity ≤ 65536 := by
  simp [Config.capacityOk, and_assoc]

/-- The model counts the exponents from 0 to 12, R6 from 1 to 13. -/
theorem Config.pageSizeOk_iff (c : Config) :
    c.pageSizeOk = true ↔ ∃ k, 1 ≤ k ∧ k ≤ 13 ∧ c.pmPageSize = 2 ^ k := by
  simp only [Config.pageSizeOk, List.any_eq_true, List.mem_range, beq_iff_eq]
  constructor
  · rintro ⟨k, hk, hsize⟩
    exact ⟨k + 1, by omega, by omega, hsize⟩
  · rintro ⟨k, hlow, hhigh, hsize⟩
    exact ⟨k - 1, by omega, by rwa [Nat.sub_add_cancel hlow]⟩

theorem Config.pmSizeOk_iff (c : Config) :
    c.pmSizeOk = true ↔ c.pmSize % c.pmPageSize = 0 ∧ c.pmSize ≤ 2 ^ 32 := by
  simp [Config.pmSizeOk]

theorem Config.residentOk_iff (c : Config) :
    c.residentOk = true ↔ c.resBase % c.pmPageSize = 0 ∧ c.resSize % c.pmPageSize = 0 ∧
      c.resBase + c.resSize ≤ c.pmSize := by
  simp [Config.residentOk, and_assoc]

theorem Config.holdsOk_iff (c : Config) : c.holdsOk = true ↔ 1 ≤ c.readHold ∧ 1 ≤ c.writeHold := by
  simp [Config.holdsOk]

/-- The check is R6's ten constraints together with R4's bound on PM_SIZE. -/
theorem Config.ok_iff (c : Config) :
    c.ok = true ↔
      (c.nvmCapacity % 256 = 0 ∧ 256 ≤ c.nvmCapacity ∧ c.nvmCapacity ≤ 65536) ∧
      (∃ k, 1 ≤ k ∧ k ≤ 13 ∧ c.pmPageSize = 2 ^ k) ∧
      (c.pmSize % c.pmPageSize = 0 ∧ c.pmSize ≤ 2 ^ 32) ∧
      (c.resBase % c.pmPageSize = 0 ∧ c.resSize % c.pmPageSize = 0 ∧ c.resBase + c.resSize ≤ c.pmSize) ∧
      1 ≤ c.readHold ∧ 1 ≤ c.writeHold := by
  simp only [Config.ok, Bool.and_eq_true, capacityOk_iff, pageSizeOk_iff, pmSizeOk_iff, residentOk_iff, holdsOk_iff,
    and_assoc]

namespace Machine

/-- R6: whichever agent moves, a parameter set that fails the check is refused. -/
theorem step_of_not_ok (s : State) (h : ¬s.cfg.ok = true) : step s = .refused .badParameters := by
  simp only [step, nextMove, if_neg h]

/-- Settles O5: parameters that pass the model's check obey R6, so parameters that break R6 fail it. -/
theorem badParametersRefused : Obligations.BadParametersRefused := by
  intro s hbreak
  refine step_of_not_ok s fun hok => hbreak ?_
  obtain ⟨⟨hmod, hlow, hhigh⟩, hpage, ⟨hpm, -⟩, ⟨hbase, hsize, hend⟩, hread, hwrite⟩ := (Config.ok_iff _).1 hok
  exact ⟨hmod, hlow, hhigh, hpage, hpm, hbase, hsize, hend, hread, hwrite⟩

end Machine
end Sys2Proof
end

section
/-! SUPPORT. A property that every move of every agent keeps is kept by every step. -/

namespace Sys2Proof.Machine

/-- What a step can be made of (`step_cases`, `hostMove_cases`), each part keeping `P`. -/
structure KeptByMoves (P : State → Prop) : Prop where
  own : ∀ {u : State} (d : Nat) (ts : List Turn) (hs : List HostStmt), P u → P (withOwn d ts hs u)
  exec : ∀ {u t : State} {i : Instr}, P u → exec i u = .next t → P t
  write : ∀ {u : State} (off : Off) (v : Byte), P u → P (hostWrite off v u)
  read : ∀ {u : State} (off : Off), P u → P (hostRead off u)
  setGie : ∀ {u : State} (v : Bool), P u → P (hostSetGie v u)
  pm : ∀ {u t : State} {ev : Word → Byte → Event} {a : Word}, P u → hostPm ev a u = .next t → P t
  wide : ∀ {u : State}, P u → P (hostWide u)
  takeIrq : ∀ {u : State} (src : IrqSource), P u → P (hostTakeIrq src u)
  seq : ∀ {u t : State}, P u → seqStep u = .next t → P t
  nmi : ∀ {u : State} (b : Bool), P u → P { u with nmi := b }
  irq : ∀ {u : State} (src : IrqSource), P u → P (requestIrq src u)
  chip : ∀ {u : State}, P u → P (chipStep u)
  flash : ∀ {u : State}, P u → P (flashStep u)
  reset : ∀ {u : State}, P u → P (resetStep u)

namespace KeptByMoves

variable {P : State → Prop} {s t u : State}

/-- The state in which the host's instruction runs. -/
theorem hostRun (k : KeptByMoves P) (h : P s) {i : Instr} (hm : hostMove s = .run i u) : P u := by
  obtain e | ⟨rest, ⟨j, e⟩ | ⟨off, v, e⟩ | ⟨off, e⟩ | ⟨v, e⟩ | ⟨ev, a, -, e⟩ | e | ⟨src, e⟩⟩ := hostMove_cases s
  case inr.inl =>
    rw [e] at hm
    cases hm
    exact k.own s.draws s.turns rest h
  all_goals
    rw [e] at hm
    cases hm

/-- The state a host statement that is no instruction leaves. -/
theorem hostDone (k : KeptByMoves P) (h : P s) (hm : hostMove s = .done (.next t)) : P t := by
  have hrest (rest : List HostStmt) : P { s with host := rest } := k.own s.draws s.turns rest h
  obtain e | ⟨rest, ⟨i, e⟩ | ⟨off, v, e⟩ | ⟨off, e⟩ | ⟨v, e⟩ | ⟨ev, a, -, e⟩ | e | ⟨src, e⟩⟩ := hostMove_cases s
  all_goals rw [e] at hm
  · cases hm
    exact h
  · cases hm
  · cases hm
    exact k.write off v (hrest rest)
  · cases hm
    exact k.read off (hrest rest)
  · cases hm
    exact k.setGie v (hrest rest)
  · exact k.pm (hrest rest) (Move.done.inj hm)
  · cases hm
    exact k.wide (hrest rest)
  · cases hm
    exact k.takeIrq src (hrest rest)

theorem step (k : KeptByMoves P) (h : P s) (hstep : step s = .next t) : P t := by
  have hturn : P (takeTurn s).2 := by
    obtain ⟨d, ts, e⟩ := takeTurn_snd s
    exact e ▸ k.own d ts s.host h
  obtain ⟨-, ⟨i, u, -, hm, he⟩ | ⟨-, hm⟩ | ⟨-, hq⟩ | ⟨b, -, rfl⟩ | ⟨src, -, rfl⟩ | ⟨-, rfl⟩ | ⟨-, rfl⟩ | ⟨-, rfl⟩⟩ :=
    step_cases hstep
  · exact k.exec (k.hostRun hturn hm) he
  · exact k.hostDone hturn hm
  · exact k.seq hturn hq
  · exact k.nmi b hturn
  · exact k.irq src hturn
  · exact k.chip hturn
  · exact k.flash hturn
  · exact k.reset hturn

end KeptByMoves
end Sys2Proof.Machine
end

section
/-! SUPPORT. What one step of each unit can come to, phase by phase where a phase has a choice, and what it may
change. -/

namespace Sys2Proof.Machine

variable {s u : State}

/-! ### The bus engine -/

/-- The hold of B7 (R121): one more clock, or the phase after it. -/
theorem bteStep_b7_cases (d : Dir) (sp : Space) (s : State) :
    (holdCycles s.cfg d ≤ s.hold + 1 ∧
      bteStep d sp .b7 s = { s with hold := s.hold + 1, seq := .bte d sp (afterHold d) }) ∨
    (s.hold + 1 < holdCycles s.cfg d ∧ bteStep d sp .b7 s = { s with hold := s.hold + 1, seq := .bte d sp .b7 }) := by
  rw [bteStep_b7]
  split
  · exact .inl ⟨‹_›, rfl⟩
  · exact .inr ⟨by omega, rfl⟩

/-- B8 moves no pin (R121). -/
theorem bteStep_b8_eq (d : Dir) (sp : Space) (s : State) : ∃ r x n l,
    bteStep d sp .b8 s = { s with rdata := r, xbus := x, draws := n, hist := s.hist ++ l, seq := .bte d sp .b9a } := by
  cases d with
  | write => exact ⟨s.rdata, s.xbus, s.draws, [], by simp [bteStep]⟩
  | read =>
    obtain ⟨x, n, e⟩ := bteStep_b8_read sp s
    exact ⟨_, x, n, _, e⟩

/-- What a phase may change (R132); everything else it leaves unchanged, and HIST is only appended to. -/
theorem bteStep_frame (d : Dir) (sp : Space) (ph : BtePhase) (s : State) : ∃ b a n p r x l k,
    bteStep d sp ph s =
      { s with busy := b, seq := a, hold := n, pins := p, rdata := r, xbus := x, hist := s.hist ++ l, draws := k } := by
  cases ph
  case b8 =>
    obtain ⟨r, x, k, l, e⟩ := bteStep_b8_eq d sp s
    exact ⟨_, _, _, _, r, x, l, k, e⟩
  case b6 =>
    cases d with
    | write => exact ⟨_, _, _, _, _, _, [.bus .write sp s.addr s.wdata], _, rfl⟩
    | read => exact ⟨_, _, _, _, _, _, [], s.draws, by rw [List.append_nil]; rfl⟩
  all_goals cases d <;> exact ⟨_, _, _, _, _, _, [], _, by rw [List.append_nil]; rfl⟩

/-! ### The NVM controller -/

/-- Everything a step of an NVM command can come to (R162). -/
theorem nvcStep_cases {cap : Capture} {ph : NvcPhase} (h : nvcStep cap ph s = .next u) :
    ((s.frames = [] ∨ ph = .noop) ∧ u = endNvc s) ∨
    ∃ t rest, s.frames = t :: rest ∧ wireFrameOk t = true ∧
      ((ph = .cs ∧
          u = chipSelect t { s with link := { s.link with cs := true }, rx := [], seq := .nvc cap .x }) ∨
        (ph = .x ∧ u = exchange cap t s) ∨
        (ph = .ds ∧ u = finishFrame cap t rest s) ∨
        (ph = .gap ∧ u = { s with seq := .nvc cap .cs })) := by
  unfold nvcStep at h
  split at h
  · rename_i hf
    cases h
    exact .inl ⟨.inl hf, rfl⟩
  · rename_i t rest hf
    split at h
    · rename_i hwire
      cases ph <;> cases h
      · exact .inr ⟨t, rest, hf, hwire, .inl ⟨rfl, rfl⟩⟩
      · exact .inr ⟨t, rest, hf, hwire, .inr (.inl ⟨rfl, rfl⟩)⟩
      · exact .inr ⟨t, rest, hf, hwire, .inr (.inr (.inl ⟨rfl, rfl⟩))⟩
      · exact .inr ⟨t, rest, hf, hwire, .inr (.inr (.inr ⟨rfl, rfl⟩))⟩
      · exact .inl ⟨.inr rfl, rfl⟩
    · cases h

/-- What one byte changes, by whether it is the frame's last and whether it goes to NBUF. -/
theorem exchange_cases {t : List Byte} (cap : Capture) (hlt : s.rx.length < t.length) : ∃ ph v d l m,
    exchange cap t s = { s with
      link := l, bidx := s.rx.length, rx := s.rx ++ [v], draws := d, nbuf := m, seq := .nvc cap ph } ∧
    l.cs = s.link.cs ∧
    (ph = .x ∧ s.rx.length + 1 < t.length ∨ ph = .ds ∧ s.rx.length + 1 = t.length) ∧
    (m = s.nbuf ∨ m = s.nbuf.write (s.rx.length - 3) v) := by
  obtain ⟨v, d, e⟩ := exchange_frame cap t s
  have hm : ∀ (p : Prop) [Decidable p] (m m' : Memory), (if p then m' else m) = m ∨ (if p then m' else m) = m' := by
    intro p _ m m'
    split <;> simp
  by_cases hlast : t.length ≤ s.rx.length + 1
  · rw [if_pos hlast] at e
    exact ⟨.ds, v, d, _, _, e, rfl, .inr ⟨rfl, by omega⟩, hm _ _ _⟩
  · rw [if_neg hlast] at e
    exact ⟨.x, v, d, _, _, e, rfl, .inl ⟨rfl, by omega⟩, hm _ _ _⟩

/-- What the end of a frame changes, by whether another frame follows. -/
theorem finishFrame_cases (cap : Capture) (t : List Byte) (rest : List (List Byte)) (s : State) : ∃ l c r k,
    ((rest = [] ∧ finishFrame cap t rest s = { s with
        busy := false, seq := .idle, frames := [], rx := [], bidx := 0, link := l, chip := c, rdata := r
        hist := s.hist ++ [.frame t s.rx], draws := k }) ∨
      (rest ≠ [] ∧ finishFrame cap t rest s = { s with
        seq := .nvc cap .gap, frames := rest, rx := [], link := l, chip := c, rdata := r
        hist := s.hist ++ [.frame t s.rx], draws := k })) ∧
    l.cs = false ∧
    (Memory.wf s.chip.mem = true → Memory.wf c.mem = true) ∧
    (Cells.below s.cfg.nvmCapacity s.chip.mem = true → Cells.below s.cfg.nvmCapacity c.mem = true) := by
  obtain ⟨c, k, e, hwf, hbelow⟩ := chipDeselect_frame t (record (.frame t s.rx) { s with
    link := { s.link with cs := false }
    rdata := if cap = .rdata then s.rx.getD 3 0 else s.rdata })
  refine ⟨{ s.link with cs := false }, c, if cap = .rdata then s.rx.getD 3 0 else s.rdata, k, ?_, rfl, hwf, hbelow⟩
  unfold finishFrame
  dsimp only
  rw [e]
  cases rest with
  | nil => exact .inl ⟨rfl, rfl⟩
  | cons next more => exact .inr ⟨by simp, rfl⟩

/-! ### The flash sequencer -/

/-- F4 waits while FLASH_BUSY = 1 (R206). -/
theorem frsStep_f4_cases (s : State) :
    (s.flashBusy = true ∧ frsStep .f4 s = s) ∨ (s.flashBusy = false ∧ frsStep .f4 s = { s with seq := .frs .f5 }) := by
  cases hb : s.flashBusy <;> simp [frsStep, hb]

/-- F7 waits likewise (R209). -/
theorem frsStep_f7_cases (s : State) :
    (s.flashBusy = true ∧ frsStep .f7 s = s) ∨ (s.flashBusy = false ∧ frsStep .f7 s = { s with seq := .frs .f8 }) := by
  cases hb : s.flashBusy <;> simp [frsStep, hb]

/-- F5 (R207): one word more, or the last one. -/
theorem frsStep_f5_cases (s : State) : ∃ ph,
    frsStep .f5 s = { s with
      wbuf := s.wbuf.write s.widx (fillWord s s.widx), widx := s.widx + 1, seq := .frs ph } ∧
    ((ph = .f5 ∧ s.widx + 1 < pageWords s.cfg) ∨ (ph = .f6 ∧ pageWords s.cfg ≤ s.widx + 1)) := by
  rw [frsStep_f5]
  split
  · exact ⟨.f6, rfl, .inr ⟨rfl, ‹_›⟩⟩
  · exact ⟨.f5, rfl, .inl ⟨rfl, by omega⟩⟩

/-- What a phase may change (R200); HIST is only appended to. -/
theorem frsStep_frame (ph : FrsPhase) (s : State) : ∃ b a g v en fb op m w n l k,
    frsStep ph s = { s with
      busy := b, seq := a, gie := g, savedIe := v, appRdEn := en, flashBusy := fb, flashOp := op, pm := m, wbuf := w
      widx := n, hist := s.hist ++ l, draws := k } := by
  cases ph
  case f3 | f6 => exact ⟨_, _, _, _, _, _, _, _, _, _, [_], _, rfl⟩
  case f4 =>
    obtain ⟨-, e⟩ | ⟨-, e⟩ := frsStep_f4_cases s <;>
      exact ⟨_, _, _, _, _, _, _, _, _, _, [], _, by rw [List.append_nil]; exact e⟩
  case f7 =>
    obtain ⟨-, e⟩ | ⟨-, e⟩ := frsStep_f7_cases s <;>
      exact ⟨_, _, _, _, _, _, _, _, _, _, [], _, by rw [List.append_nil]; exact e⟩
  all_goals exact ⟨_, _, _, _, _, _, _, _, _, _, [], _, by rw [List.append_nil]; rfl⟩

end Sys2Proof.Machine
end

section
/-! SUPPORT. The parts of the invariant: what each says of a unit at rest, and the updates that keep them. -/

namespace Sys2Proof.Machine

variable {s t : State}

/-! ### Units at rest -/

theorem pinsInv_iff_of_not_bte (h : unitOf s.seq ≠ .bte) :
    PinsInv s ↔ controlOf s.pins = expectedControl s.cfg .idle := by
  have hc : expectedControl s.cfg s.seq = expectedControl s.cfg .idle := by
    cases hs : s.seq <;> simp_all [unitOf, expectedControl]
  rw [PinsInv, hc, and_iff_left]
  intro d sp ph hs
  simp [hs, unitOf] at h

theorem holdInv_iff_of_not_bte (h : unitOf s.seq ≠ .bte) : HoldInv s ↔ s.hold = 0 := by
  unfold HoldInv
  cases hs : s.seq <;> simp_all [unitOf]

theorem linkInv_iff_of_not_nvc (h : unitOf s.seq ≠ .nvc) : LinkInv s ↔ s.link.cs = false := by
  unfold LinkInv
  cases hs : s.seq <;> simp_all [unitOf]

theorem framesInv_iff_of_not_nvc (h : unitOf s.seq ≠ .nvc) : FramesInv s ↔ s.bidx ≤ 258 ∧ s.frames = [] := by
  unfold FramesInv
  cases hs : s.seq <;> simp_all [unitOf]

theorem flashInv_iff_of_not_frs (h : unitOf s.seq ≠ .frs) :
    FlashInv s ↔ s.appRdEn = true ∧ s.flashBusy = false ∧ s.flashOp = none ∧ s.widx = 0 := by
  unfold FlashInv
  cases hs : s.seq <;> cases hb : s.flashBusy <;> cases ho : s.flashOp <;> simp_all [unitOf, pageInFlight]

theorem maskInv_of_not_frs (h : unitOf s.seq ≠ .frs) : MaskInv s := by
  unfold MaskInv
  cases hs : s.seq <;> simp_all [unitOf, interruptsMasked]

/-- The bus engine's parts pass from one state to another in both of which it is at rest. -/
theorem Inv.bteAtRest (h : Inv s) (hs : unitOf s.seq ≠ .bte) (ht : unitOf t.seq ≠ .bte) (hcfg : t.cfg = s.cfg)
    (hpins : t.pins = s.pins) (hhold : t.hold = s.hold) : PinsInv t ∧ HoldInv t := by
  rw [pinsInv_iff_of_not_bte ht, holdInv_iff_of_not_bte ht, hcfg, hpins, hhold]
  exact ⟨(pinsInv_iff_of_not_bte hs).1 h.pins, (holdInv_iff_of_not_bte hs).1 h.hold⟩

/-- The NVM controller's parts, likewise. -/
theorem Inv.nvcAtRest (h : Inv s) (hs : unitOf s.seq ≠ .nvc) (ht : unitOf t.seq ≠ .nvc) (hlink : t.link = s.link)
    (hbidx : t.bidx = s.bidx) (hframes : t.frames = s.frames) : LinkInv t ∧ FramesInv t := by
  rw [linkInv_iff_of_not_nvc ht, framesInv_iff_of_not_nvc ht, hlink, hbidx, hframes]
  exact ⟨(linkInv_iff_of_not_nvc hs).1 h.link, (framesInv_iff_of_not_nvc hs).1 h.frames⟩

/-- The flash sequencer's parts, likewise. -/
theorem Inv.frsAtRest (h : Inv s) (hs : unitOf s.seq ≠ .frs) (ht : unitOf t.seq ≠ .frs) (hen : t.appRdEn = s.appRdEn)
    (hbusy : t.flashBusy = s.flashBusy) (hop : t.flashOp = s.flashOp) (hwidx : t.widx = s.widx) :
    FlashInv t ∧ MaskInv t := by
  rw [flashInv_iff_of_not_frs ht, hen, hbusy, hop, hwidx]
  exact ⟨(flashInv_iff_of_not_frs hs).1 h.flash, maskInv_of_not_frs ht⟩

theorem unitOf_eq_none {a : Activity} : unitOf a = .none ↔ a = .idle := by cases a <;> simp [unitOf]

theorem Inv.idle_of_not_busy (h : Inv s) (hb : s.busy = false) : s.seq = .idle := by
  by_contra hs
  have := h.busy.2 (mt unitOf_eq_none.1 hs)
  simp [hb] at this

/-! ### A unit's step -/

/-- Unit `u` goes on with its command, or the command ends. -/
def GoesOnOrEnds (u : UnitName) (s t : State) : Prop :=
  (unitOf t.seq = u ∧ t.busy = s.busy) ∨ (t.seq = .idle ∧ t.busy = false)

theorem GoesOnOrEnds.busyInv {u : UnitName} (h : GoesOnOrEnds u s t) (hs : unitOf s.seq = u) (hb : BusyInv s) :
    BusyInv t := by
  obtain ⟨hu, hbusy⟩ | ⟨hidle, hbusy⟩ := h
  · rw [BusyInv, hbusy, hu, ← hs]
    exact hb
  · simp [BusyInv, hbusy, hidle, unitOf]

theorem GoesOnOrEnds.unit_ne {u v : UnitName} (h : GoesOnOrEnds u s t) (hu : u ≠ v) (hn : UnitName.none ≠ v) :
    unitOf t.seq ≠ v := by
  obtain ⟨hu', -⟩ | ⟨hidle, -⟩ := h
  · rwa [hu']
  · rwa [hidle]

/-! ### Updates that keep the invariant -/

theorem Inv.withOwn (h : Inv s) (d : Nat) (ts : List Turn) (hs : List HostStmt) : Inv (withOwn d ts hs s) := { h with }

theorem Inv.record (h : Inv s) (e : Event) : Inv (record e s) := { h with }

theorem Inv.drew (h : Inv s) (n : Nat) : Inv (drew n s) := { h with }

/-- ERR's part looks at FAULTS only for what is recorded. -/
theorem ErrInv.mono (h : ErrInv s) (herr : t.err = s.err) (hcode : t.errCode = s.errCode)
    (hf : ∀ f ∈ s.faults, f ∈ t.faults) : ErrInv t := by
  rw [ErrInv, herr, hcode]
  refine ⟨h.1, fun he => ?_⟩
  obtain ⟨v, hv, hrec⟩ := h.2 he
  exact ⟨v, hv, hf _ hrec⟩

theorem Inv.addFault (h : Inv s) (f : ModelFault) : Inv (addFault f s) where
  __ := h
  err := h.err.mono rfl rfl fun _ hg => mem_withFault.2 (.inl hg)
  mask := fun hm => (h.mask hm).imp_right fun hg => mem_withFault.2 (.inl hg)
  faults := withFault_nodup h.faults

theorem Inv.faultIf (h : Inv s) (c : Bool) (f : ModelFault) : Inv (faultIf c f s) := by
  cases c
  · exact h
  · exact h.addFault f

theorem Inv.raise (h : Inv s) (v : Violation) : Inv (raise v s) where
  __ := h.addFault (.violation v)
  err := by
    refine ⟨nofun, fun _ => ?_⟩
    cases he : s.err with
    | false => exact ⟨v, by simp [he], mem_withFault.2 (.inr rfl)⟩
    | true =>
      obtain ⟨w, hw, hrec⟩ := h.err.2 he
      exact ⟨w, by simp [he, hw], mem_withFault.2 (.inl hrec)⟩

end Sys2Proof.Machine
end

section
/-! SUPPORT. The host's statements and the outside events keep the invariant. -/

namespace Sys2Proof.Machine

variable {s t : State}

/-! ### The window -/

theorem lt_of_winReg_nbuf {c : Config} {off : Off} {k : Nat} : winReg c off = .nbuf k → k < 256 := by
  unfold winReg
  dsimp only
  repeat' split
  all_goals simp only [reduceCtorEq, WinReg.nbuf.injEq, false_imp_iff]
  omega

theorem lt_of_winReg_fbuf {c : Config} {off : Off} {k : Nat} : winReg c off = .fbuf k → k < c.pmPageSize := by
  unfold winReg
  dsimp only
  repeat' split
  all_goals simp only [reduceCtorEq, WinReg.fbuf.injEq, false_imp_iff]
  omega

/-- With the block idle any register may be written: no unit relies on ADDR or PADDR. -/
theorem Inv.writeReg (h : Inv s) (hb : s.busy = false) (off : Off) (v : Byte) :
    Inv (writeReg (winReg s.cfg off) v s) := by
  have hidle := h.idle_of_not_busy hb
  have hbte : unitOf s.seq ≠ .bte := by simp [hidle, unitOf]
  have hfrs : unitOf s.seq ≠ .frs := by simp [hidle, unitOf]
  obtain ⟨hnbuf, hfbuf, hmem⟩ := h.mem
  obtain ⟨hnbufB, hfbufB, hbounds⟩ := h.bounds
  cases hr : winReg s.cfg off with
  | addrL | addrH =>
    exact { h with pins := (pinsInv_iff_of_not_bte (by exact hbte)).2 ((pinsInv_iff_of_not_bte hbte).1 h.pins) }
  | paddr k =>
    exact { h with flash := (flashInv_iff_of_not_frs (by exact hfrs)).2 ((flashInv_iff_of_not_frs hfrs).1 h.flash) }
  | nbuf k =>
    exact { h with
      mem := ⟨Cells.write_wf _ _ _ hnbuf, hfbuf, hmem⟩
      bounds := ⟨Cells.write_below _ _ _ _ (lt_of_winReg_nbuf hr) hnbufB, hfbufB, hbounds⟩ }
  | fbuf k =>
    exact { h with
      mem := ⟨hnbuf, Cells.write_wf _ _ _ hfbuf, hmem⟩
      bounds := ⟨hnbufB, Cells.write_below _ _ _ _ (lt_of_winReg_fbuf hr) hfbufB, hbounds⟩ }
  | wdata => exact { h with }
  | cmd | status | rdata | reserved => exact h

/-- A write the window does not guard changes nothing. -/
theorem writeReg_unguarded {r : WinReg} (hr : isGuarded r = false) (v : Byte) (s : State) : writeReg r v s = s := by
  cases r
  case status | rdata | reserved => rfl
  all_goals cases hr

theorem Inv.hostWrite (h : Inv s) (off : Off) (v : Byte) : Inv (hostWrite off v s) := by
  have hrec := h.record (.hostWrite off v)
  obtain ⟨-, -, e⟩ | ⟨-, -, e⟩ | ⟨hfree, -, e⟩ := hostWrite_cases off v s
  · exact e ▸ hrec.raise _
  · exact e ▸ hrec.raise _
  · rw [e]
    obtain hb | hg := hfree
    · exact hrec.writeReg hb off v
    · rwa [writeReg_unguarded hg]

theorem Inv.hostRead (h : Inv s) (off : Off) : Inv (hostRead off s) := by
  obtain ⟨v, d, e⟩ := hostRead_cases off s
  exact e ▸ { h with }

/-! ### Other statements -/

theorem Inv.hostSetGie (h : Inv s) (v : Bool) : Inv (hostSetGie v s) := by
  rw [Machine.hostSetGie]
  cases hc : interruptsMasked s.seq && s.gie != v with
  | true => exact { (h.addFault .gieWrite) with mask := fun _ => .inr (mem_withFault.2 (.inr rfl)) }
  | false =>
    refine { h with mask := fun hm => (h.mask hm).imp_left fun hg => ?_ }
    have hm : interruptsMasked s.seq = true := hm
    simpa [hm, hg] using hc

theorem Inv.hostPm (h : Inv s) {ev : Word → Byte → Event} {a : Word} (ht : hostPm ev a s = .next t) : Inv t := by
  unfold Machine.hostPm at ht
  split at ht
  · cases ht
  split at ht
  · cases ht
    exact ((h.addFault _).drew 1).record _
  · cases ht
    exact h.record _

theorem Inv.hostTakeIrq (h : Inv s) (src : IrqSource) : Inv (hostTakeIrq src s) := by
  unfold Machine.hostTakeIrq
  split
  · exact { h with irqs := h.irqs.filter _ }
  · exact h

theorem Inv.requestIrq (h : Inv s) (src : IrqSource) : Inv (requestIrq src s) := by
  refine { h with irqs := ?_ }
  show (if src ∈ s.irqs then s.irqs else s.irqs ++ [src]).Nodup
  split
  · exact h.irqs
  · rename_i hsrc
    exact List.concat_eq_append ▸ h.irqs.concat hsrc

end Sys2Proof.Machine
end

section
/-! SUPPORT. The bus engine's steps keep the invariant. -/

namespace Sys2Proof.Machine

variable {s : State} {d : Dir} {sp : Space} {ph : BtePhase}

/-- After B9c the command ends; every other phase is followed by one of the same transaction. -/
theorem bteStep_goesOnOrEnds (d : Dir) (sp : Space) (ph : BtePhase) (s : State) :
    GoesOnOrEnds .bte s (bteStep d sp ph s) := by
  cases ph
  case b7 => obtain ⟨-, e⟩ | ⟨-, e⟩ := bteStep_b7_cases d sp s <;> exact e ▸ .inl ⟨rfl, rfl⟩
  case b8 =>
    obtain ⟨r, x, n, l, e⟩ := bteStep_b8_eq d sp s
    exact e ▸ .inl ⟨rfl, rfl⟩
  case b9c => cases d <;> exact .inr ⟨rfl, rfl⟩
  all_goals cases d <;> exact .inl ⟨rfl, rfl⟩

/-- Each phase drives the control pins to the levels that R121 gives the next one. -/
theorem bteStep_control (h : controlOf s.pins = expectedControl s.cfg (.bte d sp ph)) :
    controlOf (bteStep d sp ph s).pins = expectedControl s.cfg (bteStep d sp ph s).seq := by
  cases ph
  case b7 =>
    have hnext : expectedControl s.cfg (.bte d sp (afterHold d)) = expectedControl s.cfg (.bte d sp .b7) := by
      cases d <;> rfl
    obtain ⟨-, e⟩ | ⟨-, e⟩ := bteStep_b7_cases d sp s <;> rw [e]
    · exact h.trans hnext.symm
    · exact h
  case b8 =>
    obtain ⟨r, x, n, l, e⟩ := bteStep_b8_eq d sp s
    rw [e]
    exact h
  all_goals
    cases d <;> simp_all [bteStep, controlOf, expectedControl, strobeOn, spaceOn, auxOn, dataIn]

/-- B4 puts ADDR on the address pins, and no later phase moves them. -/
theorem bteStep_address {d' : Dir} {sp' : Space} {ph' : BtePhase}
    (h : addressOn ph = true → s.pins.ah = hiByte s.addr ∧ s.pins.al = loByte s.addr)
    (hnext : (bteStep d sp ph s).seq = .bte d' sp' ph') (hon : addressOn ph' = true) :
    (bteStep d sp ph s).pins.ah = hiByte s.addr ∧ (bteStep d sp ph s).pins.al = loByte s.addr := by
  cases ph
  case b1 | b2 | b3 => cases d <;> cases hnext <;> cases hon
  case b4 => exact ⟨rfl, rfl⟩
  case b7 => obtain ⟨-, e⟩ | ⟨-, e⟩ := bteStep_b7_cases d sp s <;> exact e ▸ h rfl
  case b8 =>
    obtain ⟨r, x, n, l, e⟩ := bteStep_b8_eq d sp s
    exact e ▸ h rfl
  all_goals cases d <;> exact h rfl

theorem bteStep_pinsInv (hs : s.seq = .bte d sp ph) (h : PinsInv s) : PinsInv (bteStep d sp ph s) := by
  obtain ⟨hcontrol, haddr⟩ := h
  rw [hs] at hcontrol
  obtain ⟨_, _, _, _, _, _, _, _, e⟩ := bteStep_frame d sp ph s
  have hcfg : (bteStep d sp ph s).cfg = s.cfg := by rw [e]
  have hreg : (bteStep d sp ph s).addr = s.addr := by rw [e]
  rw [PinsInv, hcfg, hreg]
  exact ⟨bteStep_control hcontrol, fun d' sp' ph' hnext hon => bteStep_address (haddr d sp ph hs) hnext hon⟩

/-- HOLD counts the clocks of B7, and B9c clears it (R121). -/
theorem bteStep_holdInv (hok : s.cfg.ok = true) (hs : s.seq = .bte d sp ph) (h : HoldInv s) :
    HoldInv (bteStep d sp ph s) := by
  unfold HoldInv at h
  rw [hs] at h
  cases ph
  case b6 =>
    have := holds_pos hok d
    have h0 : s.hold = 0 := h
    have hlt : s.hold < holdCycles s.cfg d := by omega
    cases d <;> exact hlt
  case b7 =>
    have hlt : s.hold < holdCycles s.cfg d := h
    obtain ⟨hle, e⟩ | ⟨hmore, e⟩ := bteStep_b7_cases d sp s <;> rw [e]
    · have hfull : s.hold + 1 = holdCycles s.cfg d := by omega
      cases d <;> exact hfull
    · exact hmore
  case b8 =>
    obtain ⟨r, x, n, l, e⟩ := bteStep_b8_eq d sp s
    exact e ▸ h
  case b9c => cases d <;> rfl
  all_goals cases d <;> exact h

/-- A bus transaction's changes keep the invariant if they keep the bus engine's own parts. -/
theorem Inv.bteChange {t : State} (h : Inv s) (hs : unitOf s.seq = .bte) {b : Bool} {a : Activity} {n : Nat} {p : Pins}
    {r : Byte} {x : Responder} {l : List Event} {k : Nat}
    (e : t = { s with busy := b, seq := a, hold := n, pins := p, rdata := r, xbus := x, hist := l, draws := k })
    (hgo : GoesOnOrEnds .bte s t) (hpins : PinsInv t) (hhold : HoldInv t) : Inv t := by
  have hbusy := hgo.busyInv hs h.busy
  have hnvc : unitOf t.seq ≠ .nvc := hgo.unit_ne nofun nofun
  have hfrs : unitOf t.seq ≠ .frs := hgo.unit_ne nofun nofun
  subst e
  obtain ⟨hlink, hframes⟩ := h.nvcAtRest (by simp [hs]) hnvc rfl rfl rfl
  obtain ⟨hflash, hmask⟩ := h.frsAtRest (by simp [hs]) hfrs rfl rfl rfl rfl
  exact { h with
    busy := hbusy, pins := hpins, hold := hhold, link := hlink, frames := hframes, flash := hflash, mask := hmask }

theorem Inv.bteStep (h : Inv s) (hs : s.seq = .bte d sp ph) : Inv (bteStep d sp ph s) := by
  obtain ⟨_, _, _, _, _, _, _, _, e⟩ := bteStep_frame d sp ph s
  exact h.bteChange (by rw [hs]; rfl) e (bteStep_goesOnOrEnds d sp ph s) (bteStep_pinsInv hs h.pins)
    (bteStep_holdInv h.params hs h.hold)

end Sys2Proof.Machine
end

section
/-! SUPPORT. The NVM controller's steps keep the invariant. -/

namespace Sys2Proof.Machine

variable {s : State} {cap : Capture} {t : List Byte} {rest : List (List Byte)}

/-- A step of an NVM command that records no fault keeps the invariant if it keeps the controller's own parts and the
memories'. -/
theorem Inv.nvcChange {u : State} (h : Inv s) (hs : unitOf s.seq = .nvc) {b : Bool} {a : Activity}
    {fs : List (List Byte)} {x : List Byte} {n : Nat} {l : Link} {c : Chip} {r : Byte} {m : Memory} {ev : List Event} {k : Nat}
    (e : u = { s with
      busy := b, seq := a, frames := fs, rx := x, bidx := n, link := l, chip := c, rdata := r, nbuf := m, hist := ev
      draws := k })
    (hgo : GoesOnOrEnds .nvc s u) (hlink : LinkInv u) (hframes : FramesInv u) (hmem : MemInv u)
    (hbounds : BoundsInv u) : Inv u := by
  have hbusy := hgo.busyInv hs h.busy
  have hbte : unitOf u.seq ≠ .bte := hgo.unit_ne nofun nofun
  have hfrs : unitOf u.seq ≠ .frs := hgo.unit_ne nofun nofun
  subst e
  obtain ⟨hpins, hhold⟩ := h.bteAtRest (by simp [hs]) hbte rfl rfl rfl
  obtain ⟨hflash, hmask⟩ := h.frsAtRest (by simp [hs]) hfrs rfl rfl rfl rfl
  exact { h with
    busy := hbusy, pins := hpins, hold := hhold, link := hlink, frames := hframes, flash := hflash, mask := hmask
    mem := hmem, bounds := hbounds }

/-- A frame the NVC sends (R163): one the chip knows, of at most 259 bytes. -/
def SentFrame (f : List Byte) : Prop := wireFrameOk f = true ∧ f.length ≤ 259

theorem wireFrameOk_pos (h : wireFrameOk t = true) : 0 < t.length := by
  cases t with
  | nil => cases h
  | cons op rest => exact Nat.succ_pos _

/-- The frames still to be sent are ones the NVC sends (R163). -/
theorem Inv.frames_ok {ph : NvcPhase} (h : Inv s) (hs : s.seq = .nvc cap ph) :
    ∀ f ∈ s.frames, SentFrame f := by
  obtain ⟨-, hframes⟩ := h.frames
  rw [hs] at hframes
  exact hframes.1

theorem Inv.chipSelect (h : Inv s) (t : List Byte) : Inv (chipSelect t s) := by
  have hchip : Inv { s with chip := { s.chip with garbled := s.cfg.nvmWriteCycle && s.chip.busy } } := { h with }
  exact (hchip.faultIf _ _).faultIf _ _

/-- N_CS (R162): the frame starts, and no byte of it has been exchanged. -/
theorem Inv.startFrame (h : Inv s) (hs : s.seq = .nvc cap .cs) (hf : s.frames = t :: rest)
    (hwire : wireFrameOk t = true) :
    Inv (Machine.chipSelect t { s with link := { s.link with cs := true }, rx := [], seq := .nvc cap .x }) := by
  have hgo : unitOf (.nvc cap .x) = .nvc := rfl
  refine Inv.chipSelect (h.nvcChange (by rw [hs]; rfl) rfl (.inl ⟨hgo, rfl⟩) ?_ ?_ h.mem h.bounds) t
  · exact ⟨fun _ => ⟨cap, .inl rfl⟩, fun _ => rfl⟩
  · exact ⟨h.frames.1, h.frames_ok hs, t, rest, hf, wireFrameOk_pos hwire⟩

/-- N_X (R162): one byte more of the frame. -/
theorem Inv.exchange (h : Inv s) (hs : s.seq = .nvc cap .x) (hf : s.frames = t :: rest) : Inv (exchange cap t s) := by
  have hframes := h.frames_ok hs
  have hlen : t.length ≤ 259 := (hframes t (by simp [hf])).2
  have hlt : s.rx.length < t.length := by
    obtain ⟨-, hx⟩ := h.frames
    rw [hs, hf] at hx
    obtain ⟨-, t', rest', heq, hlt⟩ := hx
    cases heq
    exact hlt
  obtain ⟨ph, v, d, l, m, e, hcs, hph, hm⟩ := exchange_cases cap hlt
  obtain ⟨hnbuf, hmem⟩ := h.mem
  obtain ⟨hnbufB, hbounds⟩ := h.bounds
  have hsel : l.cs = true := hcs.trans (h.link.2 ⟨cap, .inl hs⟩)
  refine h.nvcChange (by rw [hs]; rfl) e ?_ ?_ ?_ ?_ ?_ <;> rw [e]
  · exact .inl ⟨rfl, rfl⟩
  · exact ⟨fun _ => ⟨cap, hph.imp (by rintro ⟨rfl, -⟩; rfl) (by rintro ⟨rfl, -⟩; rfl)⟩, fun _ => hsel⟩
  · refine ⟨show s.rx.length ≤ 258 by omega, hframes, ?_⟩
    obtain ⟨rfl, hmore⟩ | ⟨rfl, hlast⟩ := hph
    · exact ⟨t, rest, hf, by simpa using hmore⟩
    · exact ⟨t, rest, hf, by simpa using hlast⟩
  · refine ⟨?_, hmem⟩
    obtain rfl | rfl := hm
    · exact hnbuf
    · exact Cells.write_wf _ _ _ hnbuf
  · refine ⟨?_, hbounds⟩
    obtain rfl | rfl := hm
    · exact hnbufB
    · exact Cells.write_below _ _ _ _ (by omega) hnbufB

/-- N_DS (R162): the chip acts on the frame, and the gap follows or the command ends. -/
theorem Inv.finishFrame (h : Inv s) (hs : s.seq = .nvc cap .ds) (hf : s.frames = t :: rest) :
    Inv (finishFrame cap t rest s) := by
  have hunit : unitOf s.seq = .nvc := by rw [hs]; rfl
  have hrest : ∀ f ∈ rest, SentFrame f := fun f hin =>
    h.frames_ok hs f (hf ▸ List.mem_cons_of_mem t hin)
  obtain ⟨hnbuf, hfbuf, hwbuf, hpm, hchip⟩ := h.mem
  obtain ⟨hnbufB, hfbufB, hwbufB, hpmB, hchipB⟩ := h.bounds
  obtain ⟨l, c, r, k, ⟨-, e⟩ | ⟨hmore, e⟩, hcs, hwf, hbelow⟩ := finishFrame_cases cap t rest s
  all_goals
    rw [e]
    have hmem := And.intro hnbuf (And.intro hfbuf (And.intro hwbuf (And.intro hpm (hwf hchip))))
    have hbounds := And.intro hnbufB (And.intro hfbufB (And.intro hwbufB (And.intro hpmB (hbelow hchipB))))
  · refine h.nvcChange hunit rfl (.inr ⟨rfl, rfl⟩) ?_ ⟨Nat.zero_le _, rfl⟩ hmem hbounds
    simp [LinkInv, hcs]
  · refine h.nvcChange hunit rfl (.inl ⟨rfl, rfl⟩) ?_ ⟨h.frames.1, hrest, hmore⟩ hmem hbounds
    simp [LinkInv, hcs]

/-- The wrappers' no-op ends in one step (R169, R170). -/
theorem Inv.endNvc (h : Inv s) (hs : s.seq = .nvc cap .noop) : Inv (endNvc s) := by
  have hcs : s.link.cs = false := by simpa [LinkInv, hs] using h.link
  have hlink : LinkInv (Machine.endNvc s) := by simp [LinkInv, Machine.endNvc, hcs]
  exact h.nvcChange (by rw [hs]; rfl) rfl (.inr ⟨rfl, rfl⟩) hlink ⟨Nat.zero_le _, rfl⟩ h.mem h.bounds

/-- N_GAP (R162): the next frame starts. -/
theorem Inv.gap (h : Inv s) (hs : s.seq = .nvc cap .gap) (hf : s.frames ≠ []) : Inv { s with seq := .nvc cap .cs } := by
  have hcs : s.link.cs = false := by simpa [LinkInv, hs] using h.link
  refine h.nvcChange (by rw [hs]; rfl) rfl (.inl ⟨rfl, rfl⟩) ?_ ⟨h.frames.1, h.frames_ok hs, hf⟩ h.mem h.bounds
  simp [LinkInv, hcs]

theorem Inv.nvcStep {u : State} {ph : NvcPhase} (h : Inv s) (hs : s.seq = .nvc cap ph)
    (hstep : nvcStep cap ph s = .next u) : Inv u := by
  obtain ⟨-, hpart⟩ := h.frames
  rw [hs] at hpart
  obtain ⟨-, hpart⟩ := hpart
  obtain ⟨hend, rfl⟩ | ⟨t, rest, hf, hwire, hnext⟩ := nvcStep_cases hstep
  · obtain rfl : ph = .noop := by
      obtain hnil | rfl := hend
      · cases ph <;> simp [hnil] at hpart ⊢
      · rfl
    exact h.endNvc hs
  · obtain ⟨rfl, rfl⟩ | ⟨rfl, rfl⟩ | ⟨rfl, rfl⟩ | ⟨rfl, rfl⟩ := hnext
    · exact h.startFrame hs hf hwire
    · exact h.exchange hs hf
    · exact h.finishFrame hs hf
    · exact h.gap hs hpart

end Sys2Proof.Machine
end

section
/-! SUPPORT. The flash sequencer's steps, the FLASH agent and the NVMCHIP agent keep the invariant. -/

namespace Sys2Proof.Machine

variable {s : State} {ph : FrsPhase}

/-- A step of FLASH_PROG keeps the invariant if it keeps the sequencer's own parts and the memories'. -/
theorem Inv.frsChange {t : State} (h : Inv s) (hs : unitOf s.seq = .frs) {b : Bool} {a : Activity} {g v en fb : Bool}
    {op : Option FlashOp} {m : Memory} {w : Cells 16} {n : Nat} {ev : List Event} {k : Nat}
    (e : t = { s with
      busy := b, seq := a, gie := g, savedIe := v, appRdEn := en, flashBusy := fb, flashOp := op, pm := m, wbuf := w
      widx := n, hist := ev, draws := k })
    (hgo : GoesOnOrEnds .frs s t) (hflash : FlashInv t) (hmask : MaskInv t) (hmem : MemInv t) (hbounds : BoundsInv t) :
    Inv t := by
  have hbusy := hgo.busyInv hs h.busy
  have hbte : unitOf t.seq ≠ .bte := hgo.unit_ne nofun nofun
  have hnvc : unitOf t.seq ≠ .nvc := hgo.unit_ne nofun nofun
  subst e
  obtain ⟨hpins, hhold⟩ := h.bteAtRest (by simp [hs]) hbte rfl rfl rfl
  obtain ⟨hlink, hframes⟩ := h.nvcAtRest (by simp [hs]) hnvc rfl rfl rfl
  exact { h with
    busy := hbusy, pins := hpins, hold := hhold, link := hlink, frames := hframes, flash := hflash, mask := hmask
    mem := hmem, bounds := hbounds }

/-- After F9 the command ends; every other phase is followed by one of FLASH_PROG. -/
theorem frsStep_goesOnOrEnds (hs : s.seq = .frs ph) : GoesOnOrEnds .frs s (frsStep ph s) := by
  have hstay : GoesOnOrEnds .frs s s := .inl ⟨by rw [hs]; rfl, rfl⟩
  cases ph
  case f4 => obtain ⟨-, e⟩ | ⟨-, e⟩ := frsStep_f4_cases s <;> rw [e] <;> [exact hstay; exact .inl ⟨rfl, rfl⟩]
  case f7 => obtain ⟨-, e⟩ | ⟨-, e⟩ := frsStep_f7_cases s <;> rw [e] <;> [exact hstay; exact .inl ⟨rfl, rfl⟩]
  case f5 =>
    obtain ⟨ph', e, -⟩ := frsStep_f5_cases s
    exact e ▸ .inl ⟨rfl, rfl⟩
  case f9 => exact .inr ⟨rfl, rfl⟩
  all_goals exact .inl ⟨rfl, rfl⟩

/-- Outside F4 and F7 nothing is pending at the flash (R205 to R209). -/
theorem FlashInv.quiet (h : FlashInv s) (hs : s.seq = .frs ph) (h4 : ph ≠ .f4) (h7 : ph ≠ .f7) :
    s.flashBusy ≠ true := by
  obtain ⟨-, -, -, hop, -⟩ := h
  intro hb
  simpa [hs, h4, h7] using hop hb

theorem frsStep_flashInv (h : FlashInv s) (hs : s.seq = .frs ph) (hok : s.cfg.ok = true) :
    FlashInv (frsStep ph s) := by
  have hstay := h
  have hquiet := h.quiet hs
  obtain ⟨hcheck, hen, hfb, -, hw⟩ := h
  have hc : flashCheck s = none := hcheck (by rw [hs]; rfl)
  rw [hs] at hen hw
  cases ph with
  | f1 | f2 => exact ⟨fun _ => hc, hen, hfb, fun hb => absurd hb (hquiet nofun nofun), hw⟩
  | f3 => exact ⟨fun _ => hc, rfl, rfl, fun _ => .inl ⟨rfl, rfl⟩, hw⟩
  | f4 =>
    obtain ⟨-, e⟩ | ⟨hb, e⟩ := frsStep_f4_cases s <;> rw [e]
    · exact hstay
    · have hw0 : s.widx = 0 := hw
      have hpos : s.widx < pageWords s.cfg := hw0 ▸ (pageSize_even hok).2
      exact ⟨fun _ => hc, hen, hfb, fun hb' => by simp [hb] at hb', hpos⟩
  | f5 =>
    have hlt : s.widx < pageWords s.cfg := hw
    obtain ⟨ph', e, ⟨rfl, hmore⟩ | ⟨rfl, hlast⟩⟩ := frsStep_f5_cases s <;> rw [e]
    · exact ⟨fun _ => hc, hen, hfb, fun hb => absurd hb (hquiet nofun nofun), hmore⟩
    · have hfull : s.widx + 1 = pageWords s.cfg := by omega
      exact ⟨fun _ => hc, hen, hfb, fun hb => absurd hb (hquiet nofun nofun), hfull⟩
  | f6 => exact ⟨fun _ => hc, hen, rfl, fun _ => .inr ⟨rfl, rfl⟩, hw⟩
  | f7 =>
    obtain ⟨-, e⟩ | ⟨hb, e⟩ := frsStep_f7_cases s <;> rw [e]
    · exact hstay
    · exact ⟨fun _ => hc, hen, hfb, fun hb' => by simp [hb] at hb', hw⟩
  | f8 => exact ⟨fun _ => hc, rfl, hfb, fun hb => absurd hb (hquiet nofun nofun), hw⟩
  | f9 => exact ⟨nofun, hen, hfb, fun hb => absurd hb (hquiet nofun nofun), rfl⟩

/-- F2 masks the host's interrupts, and the phases after it leave GIE alone until F9 restores it (R204, R211). -/
theorem frsStep_maskInv (h : MaskInv s) (hs : s.seq = .frs ph) : MaskInv (frsStep ph s) := by
  have hkeep (hm : interruptsMasked (.frs ph) = true) : s.gie = false ∨ ModelFault.gieWrite ∈ s.faults :=
    h (by rwa [hs])
  cases ph with
  | f1 | f9 => exact nofun
  | f2 => exact fun _ => .inl rfl
  | f4 => obtain ⟨-, e⟩ | ⟨-, e⟩ := frsStep_f4_cases s <;> rw [e] <;> exact fun _ => hkeep rfl
  | f7 => obtain ⟨-, e⟩ | ⟨-, e⟩ := frsStep_f7_cases s <;> rw [e] <;> exact fun _ => hkeep rfl
  | f3 | f5 | f6 | f8 => exact fun _ => hkeep rfl

theorem forgetPage_below {d : Nat} (hc : flashCheck s = none) (h : Cells.below s.cfg.pmSize s.pm = true) :
    Cells.below s.cfg.pmSize (forgetPage (flashPage s) d s) = true := by
  obtain ⟨hpage, hin, -⟩ := flashCheck_ok hc
  refine Cells.writeList_below _ _ _ _ ?_ h
  rw [hpage, freeBytes_length]
  exact hin

/-- F3 makes the page's bytes any value, and F5 fills WBUF; no other phase writes a memory. -/
theorem frsStep_mem (h : Inv s) (hs : s.seq = .frs ph) : MemInv (frsStep ph s) ∧ BoundsInv (frsStep ph s) := by
  have hc : flashCheck s = none := h.flash.1 (by rw [hs]; rfl)
  have hsame := And.intro h.mem h.bounds
  obtain ⟨hnbuf, hfbuf, hwbuf, hpm, hchip⟩ := h.mem
  obtain ⟨hnbufB, hfbufB, hwbufB, hpmB, hchipB⟩ := h.bounds
  cases ph with
  | f3 => exact ⟨⟨hnbuf, hfbuf, hwbuf, forgetPage_wf _ _ hpm, hchip⟩,
      hnbufB, hfbufB, hwbufB, forgetPage_below hc hpmB, hchipB⟩
  | f5 =>
    have hlt : s.widx < pageWords s.cfg := by
      obtain ⟨-, -, -, -, hw⟩ := h.flash
      rwa [hs] at hw
    exact ⟨⟨hnbuf, hfbuf, Cells.write_wf _ _ _ hwbuf, hpm, hchip⟩,
      hnbufB, hfbufB, Cells.write_below _ _ _ _ hlt hwbufB, hpmB, hchipB⟩
  | f4 => obtain ⟨-, e⟩ | ⟨-, e⟩ := frsStep_f4_cases s <;> rw [e] <;> exact hsame
  | f7 => obtain ⟨-, e⟩ | ⟨-, e⟩ := frsStep_f7_cases s <;> rw [e] <;> exact hsame
  | f1 | f2 | f6 | f8 | f9 => exact hsame

theorem Inv.frsStep (h : Inv s) (hs : s.seq = .frs ph) : Inv (frsStep ph s) := by
  obtain ⟨_, _, _, _, _, _, _, _, _, _, _, _, e⟩ := frsStep_frame ph s
  obtain ⟨hmem, hbounds⟩ := frsStep_mem h hs
  exact h.frsChange (by rw [hs]; rfl) e (frsStep_goesOnOrEnds hs) (frsStep_flashInv h.flash hs h.params)
    (frsStep_maskInv h.mask hs) hmem hbounds

theorem Inv.seqStep {t : State} (h : Inv s) (ht : seqStep s = .next t) : Inv t := by
  cases hs : s.seq with
  | idle =>
    rw [Machine.seqStep, hs] at ht
    cases ht
    exact h
  | bte d sp ph =>
    rw [seqStep_bte hs] at ht
    cases ht
    exact h.bteStep hs
  | nvc cap ph => exact h.nvcStep hs (seqStep_nvc hs ▸ ht)
  | frs ph =>
    rw [seqStep_frs hs] at ht
    cases ht
    exact h.frsStep hs

/-! ### The FLASH and NVMCHIP agents -/

theorem Inv.chipStep (h : Inv s) : Inv (chipStep s) := { h with }

/-- The completed operation leaves nothing pending, whatever became of PM. -/
theorem Inv.flashDone (h : Inv s) {m : Memory} (hwf : Memory.wf m = true) (hbelow : Cells.below s.cfg.pmSize m = true) :
    Inv { s with pm := m, flashBusy := false, flashOp := none } := by
  obtain ⟨hcheck, hen, -, -, hw⟩ := h.flash
  obtain ⟨hnbuf, hfbuf, hwbuf, -, hchip⟩ := h.mem
  obtain ⟨hnbufB, hfbufB, hwbufB, -, hchipB⟩ := h.bounds
  exact { h with
    flash := ⟨hcheck, hen, rfl, nofun, hw⟩
    mem := ⟨hnbuf, hfbuf, hwbuf, hwf, hchip⟩
    bounds := ⟨hnbufB, hfbufB, hwbufB, hbelow, hchipB⟩ }

theorem Inv.flashStep (h : Inv s) : Inv (flashStep s) := by
  unfold Machine.flashStep
  split
  · rename_i hb
    obtain ⟨hcheck, -, -, hop, -⟩ := h.flash
    obtain ⟨-, -, -, hpm, -⟩ := h.mem
    obtain ⟨-, -, -, hpmB, -⟩ := h.bounds
    obtain ⟨hs, e⟩ | ⟨hs, e⟩ := hop hb
    · have hc : flashCheck s = none := hcheck (by rw [hs]; rfl)
      rw [e]
      exact ((h.flashDone (forgetPage_wf _ _ hpm) (forgetPage_below hc hpmB)).drew 1).record _
    · have hc : flashCheck s = none := hcheck (by rw [hs]; rfl)
      obtain ⟨hpage, hin, -⟩ := flashCheck_ok hc
      rw [e]
      refine (h.flashDone (Cells.writeList_wf _ _ _ hpm) (Cells.writeList_below _ _ _ _ ?_ hpmB)).record _
      rw [hpage, wbufWords_length h.params]
      exact hin
  · exact h

end Sys2Proof.Machine
end

section
/-! SUPPORT. The instructions and RESET keep the invariant. -/

namespace Sys2Proof.Machine

variable {s t : State}

/-! ### Starting a command -/

/-- A bus command starts at B1 with its pins idle (R104, R120). -/
theorem Inv.startBus (h : Inv s) (hb : s.busy = false) (v : Byte) (d : Dir) (sp : Space) :
    Inv (startBus d sp { s with cmd := v, busy := true }) := by
  have hnone : unitOf s.seq = .none := unitOf_eq_none.2 (h.idle_of_not_busy hb)
  have hbte : unitOf s.seq ≠ .bte := by simp [hnone]
  have hb1 : expectedControl s.cfg (.bte d sp .b1) = expectedControl s.cfg .idle := by cases d <;> rfl
  obtain ⟨hlink, hframes⟩ := h.nvcAtRest (t := Machine.startBus d sp s) (by simp [hnone]) nofun rfl rfl rfl
  obtain ⟨hflash, hmask⟩ := h.frsAtRest (t := Machine.startBus d sp s) (by simp [hnone]) nofun rfl rfl rfl rfl
  exact { h with
    busy := ⟨fun _ => nofun, fun _ => rfl⟩
    pins := ⟨((pinsInv_iff_of_not_bte hbte).1 h.pins).trans hb1.symm, by rintro _ _ _ ⟨⟩ ⟨⟩⟩
    hold := (holdInv_iff_of_not_bte hbte).1 h.hold
    link := hlink, frames := hframes, flash := hflash, mask := hmask }

/-- FLASH_PROG starts at F1 once its checks have passed (R201). -/
theorem Inv.startFlash (h : Inv s) (hb : s.busy = false) (hc : flashCheck s = none) (v : Byte) :
    Inv (startFlash { s with cmd := v, busy := true }) := by
  have hnone : unitOf s.seq = .none := unitOf_eq_none.2 (h.idle_of_not_busy hb)
  obtain ⟨hen, hfb, hop, hw⟩ := (flashInv_iff_of_not_frs (by simp [hnone])).1 h.flash
  obtain ⟨hpins, hhold⟩ := h.bteAtRest (t := Machine.startFlash s) (by simp [hnone]) nofun rfl rfl rfl
  obtain ⟨hlink, hframes⟩ := h.nvcAtRest (t := Machine.startFlash s) (by simp [hnone]) nofun rfl rfl rfl
  exact { h with
    busy := ⟨fun _ => nofun, fun _ => rfl⟩
    pins := hpins, hold := hhold, link := hlink, frames := hframes
    flash := ⟨fun _ => hc, hen, by simp [Machine.startFlash, hfb, hop], by simp [Machine.startFlash, hfb], hw⟩
    mask := nofun }

/-- The two ways an NVM command starts: with frames to send (R104), or with none (R169, R170). -/
theorem Inv.startFrames (h : Inv s) (hb : s.busy = false) (v : Byte) (cap : Capture) {ph : NvcPhase}
    {fs : List (List Byte)} (hfs : ∀ f ∈ fs, SentFrame f) (hph : (ph = .cs ∧ fs ≠ []) ∨ (ph = .noop ∧ fs = [])) :
    Inv { s with cmd := v, busy := true, frames := fs, seq := .nvc cap ph } := by
  have hnone : unitOf s.seq = .none := unitOf_eq_none.2 (h.idle_of_not_busy hb)
  have hcs : s.link.cs = false := (linkInv_iff_of_not_nvc (by simp [hnone])).1 h.link
  obtain ⟨hpins, hhold⟩ := h.bteAtRest (t := { s with seq := .nvc cap ph }) (by simp [hnone]) nofun rfl rfl rfl
  obtain ⟨hflash, hmask⟩ := h.frsAtRest (t := { s with seq := .nvc cap ph }) (by simp [hnone]) nofun rfl rfl rfl rfl
  have hlink : LinkInv { s with seq := .nvc cap ph } := by
    obtain ⟨rfl, -⟩ | ⟨rfl, -⟩ := hph <;> simp [LinkInv, hcs]
  have hframes : FramesInv { s with frames := fs, seq := .nvc cap ph } := by
    obtain ⟨rfl, hne⟩ | ⟨rfl, hnil⟩ := hph
    · exact ⟨h.frames.1, hfs, hne⟩
    · exact ⟨h.frames.1, hfs, hnil⟩
  exact { h with
    busy := ⟨fun _ => nofun, fun _ => rfl⟩
    pins := hpins, hold := hhold, link := hlink, frames := hframes, flash := hflash, mask := hmask }

theorem sentFrame_wren : SentFrame wrenFrame := ⟨rfl, by decide⟩

theorem sentFrame_wrByte (s : State) : SentFrame (wrByteFrame s) := ⟨rfl, by simp [wrByteFrame]⟩

theorem sentFrame_rdByte (s : State) : SentFrame (rdByteFrame s) := ⟨rfl, by simp [rdByteFrame]⟩

theorem sentFrame_wrPage (s : State) : SentFrame (wrPageFrame s) := by simp [SentFrame, wrPageFrame, wireFrameOk]

theorem sentFrame_rdPage (s : State) : SentFrame (rdPageFrame s) := by
  simp [SentFrame, rdPageFrame, wireFrameOk, -List.reduceReplicate]

/-- A raw command: MF_NVM_RANGE where its condition holds (R174), and the frames all the same. -/
theorem Inv.startNvc (h : Inv s) (hb : s.busy = false) (v : Byte) (cap : Capture) {f : List Byte}
    {fs : List (List Byte)} (hfs : ∀ g ∈ f :: fs, SentFrame g) (c : Bool) :
    Inv (startNvc cap (f :: fs) (Machine.faultIf c .nvmRange { s with cmd := v, busy := true })) := by
  have hstart := (h.startFrames hb v cap hfs (.inl ⟨rfl, by simp⟩)).faultIf c .nvmRange
  cases c <;> exact hstart

/-- The wrappers (R169, R170): the page command in range, the no-op outside. -/
theorem Inv.startStorage (h : Inv s) (hb : s.busy = false) (v : Byte) {start : State → State}
    (hpage : Inv (start { s with cmd := v, busy := true })) (c : Bool) :
    Inv (if c then start { s with cmd := v, busy := true } else startNoop { s with cmd := v, busy := true }) := by
  cases c with
  | true => exact hpage
  | false => exact h.startFrames hb v .discard (by simp) (.inr ⟨rfl, rfl⟩)

theorem Inv.startWrPage (h : Inv s) (hb : s.busy = false) (v : Byte) :
    Inv (startWrPage { s with cmd := v, busy := true }) :=
  h.startNvc hb v .discard (by simp [sentFrame_wren, sentFrame_wrPage]) _

theorem Inv.startRdPage (h : Inv s) (hb : s.busy = false) (v : Byte) :
    Inv (startRdPage { s with cmd := v, busy := true }) :=
  h.startNvc hb v .nbuf (by simp [sentFrame_rdPage]) _

/-! ### The instructions -/

/-- A CMD write keeps the invariant if the command it starts does. -/
theorem Inv.issue {v : Byte} {check : State → Option Violation} {start : State → State} (h : Inv s)
    (ht : issue v check start s = .next t)
    (hstart : ∀ {u : State}, Inv u → u.busy = false → check u = none → Inv (start { u with cmd := v, busy := true })) :
    Inv t := by
  have hrec := h.record (.hostWrite offCmd v)
  obtain ⟨-, rfl⟩ | ⟨-, bad, -, rfl⟩ | ⟨hb, hc, rfl⟩ := issue_cases ht
  · exact hrec.raise .overlap
  · exact hrec.raise bad
  · exact hstart hrec hb hc

theorem Inv.exec {i : Instr} (h : Inv s) (ht : exec i s = .next t) : Inv t := by
  cases i with
  | busWr sp => exact h.issue ((exec_busWr sp s).symm.trans ht) fun hu hb _ => hu.startBus hb _ .write sp
  | busRd sp => exact h.issue ((exec_busRd sp s).symm.trans ht) fun hu hb _ => hu.startBus hb _ .read sp
  | nvmWren b =>
    exact h.issue ((exec_nvmWren b s).symm.trans ht) fun hu hb _ =>
      hu.startNvc hb _ .discard (by simp [sentFrame_wren]) false
  | nvmWrByte b =>
    exact h.issue ((exec_nvmWrByte b s).symm.trans ht) fun hu hb _ =>
      hu.startNvc hb _ .discard (by simp [sentFrame_wren, sentFrame_wrByte]) _
  | nvmRdByte b =>
    exact h.issue ((exec_nvmRdByte b s).symm.trans ht) fun hu hb _ =>
      hu.startNvc hb _ .rdata (by simp [sentFrame_rdByte]) _
  | nvmWrPage b => exact h.issue ((exec_nvmWrPage b s).symm.trans ht) fun hu hb _ => hu.startWrPage hb _
  | nvmRdPage b => exact h.issue ((exec_nvmRdPage b s).symm.trans ht) fun hu hb _ => hu.startRdPage hb _
  | stoWrite b =>
    exact h.issue ((exec_stoWrite b s).symm.trans ht) fun hu hb _ => hu.startStorage hb _ (hu.startWrPage hb _) _
  | stoRead b =>
    exact h.issue ((exec_stoRead b s).symm.trans ht) fun hu hb _ => hu.startStorage hb _ (hu.startRdPage hb _) _
  | flashProg b => exact h.issue ((exec_flashProg b s).symm.trans ht) fun hu hb hc => hu.startFlash hb hc _
  | getNmi =>
    cases ht
    exact h.hostRead offStatus

/-! ### RESET -/

/-- Only a write frame is cut in its data (R273). -/
theorem isWriteFrame_of_cutWrite {f : List Byte} (h : cutWrite s = some f) : isWriteFrame f = true := by
  unfold cutWrite at h
  split at h
  · split at h
    · cases h
      exact And.left ‹_›
    · cases h
  · split at h
    · cases h
      exact And.left ‹_›
    · cases h
  · cases h

theorem frameData_fits {c : Config} {f : List Byte} (hw : isWriteFrame f = true) (hin : frameOutside c f = false) :
    frameAddr f + (frameData f).length ≤ c.nvmCapacity := by
  simpa [frameOutside, hw] using hin

theorem Inv.resetMem (h : Inv s) :
    Memory.wf (resetMem s) = true ∧ Cells.below s.cfg.nvmCapacity (resetMem s) = true := by
  obtain ⟨-, -, -, -, hmem⟩ := h.mem
  obtain ⟨-, -, -, -, hmemB⟩ := h.bounds
  cases hcut : cutWrite s with
  | none =>
    simp only [Machine.resetMem, hcut]
    exact ⟨hmem, hmemB⟩
  | some f =>
    simp only [Machine.resetMem, hcut]
    split
    · exact ⟨freeWrites_wf _ _ _ hmem, freeWrites_below _ _ _ hmemB⟩
    · rename_i hfit
      simp only [Bool.or_eq_true, not_or, Bool.not_eq_true] at hfit
      obtain ⟨⟨-, hin⟩, -⟩ := hfit
      refine ⟨Cells.writeList_wf _ _ _ hmem, Cells.writeList_below _ _ _ _ ?_ hmemB⟩
      rw [freeBytes_length]
      exact frameData_fits (isWriteFrame_of_cutWrite hcut) hin

theorem Inv.resetPm (h : Inv s) :
    Memory.wf (resetPm s) = true ∧ Cells.below s.cfg.pmSize (resetPm s) = true := by
  obtain ⟨-, -, -, hpm, -⟩ := h.mem
  obtain ⟨-, -, -, hpmB, -⟩ := h.bounds
  unfold Machine.resetPm
  split
  · rename_i hp
    have hfrs : unitOf s.seq = .frs := by
      cases hs : s.seq <;> simp [hs, pageInFlight, unitOf] at hp ⊢
    exact ⟨forgetPage_wf _ _ hpm, forgetPage_below (h.flash.1 hfrs) hpmB⟩
  · exact ⟨hpm, hpmB⟩

theorem writeList_nil_wf {w : Nat} (vs : List (BitVec w)) : Cells.wf (Cells.writeList [] 0 vs) = true :=
  Cells.writeList_wf vs [] 0 rfl

theorem writeList_nil_below {w n : Nat} {vs : List (BitVec w)} (h : vs.length ≤ n) :
    Cells.below n (Cells.writeList [] 0 vs) = true :=
  Cells.writeList_below vs [] n 0 (by omega) rfl

/-- Every memory after reset: the buffers are drawn afresh, PM and MEM as R273 and R274 say. -/
theorem Inv.resetStep_mem (h : Inv s) : MemInv (resetStep s) ∧ BoundsInv (resetStep s) := by
  obtain ⟨hpm, hpmB⟩ := h.resetPm
  obtain ⟨hchip, hchipB⟩ := h.resetMem
  unfold MemInv BoundsInv resetStep
  dsimp only
  exact ⟨⟨writeList_nil_wf _, writeList_nil_wf _, writeList_nil_wf _, hpm, hchip⟩,
    writeList_nil_below (freeBytes_length _ _).le, writeList_nil_below (freeBytes_length _ _).le,
    writeList_nil_below (freeHalves_length _ _).le, hpmB, hchipB⟩

theorem Inv.resetStep (h : Inv s) : Inv (resetStep s) := by
  obtain ⟨hmem, hbounds⟩ := h.resetStep_mem
  exact { h with
    busy := ⟨nofun, fun hn => absurd rfl hn⟩
    pins := ⟨rfl, nofun⟩
    link := ⟨nofun, fun ⟨_, hx⟩ => hx.elim nofun nofun⟩
    hold := rfl
    frames := ⟨Nat.zero_le _, rfl⟩
    flash := ⟨nofun, rfl, rfl, nofun, rfl⟩
    err := ⟨fun _ => rfl, nofun⟩
    mask := nofun
    mem := hmem, bounds := hbounds }

theorem inv_keptByMoves : KeptByMoves Inv where
  own d ts hs h := h.withOwn d ts hs
  exec h ht := h.exec ht
  write off v h := h.hostWrite off v
  read off h := h.hostRead off
  setGie v h := h.hostSetGie v
  pm h ht := h.hostPm ht
  wide h := h.addFault .hostWidth
  takeIrq src h := h.hostTakeIrq src
  seq h ht := h.seqStep ht
  nmi _ h := { h with }
  irq src h := h.requestIrq src
  chip h := h.chipStep
  flash h := h.flashStep
  reset h := h.resetStep

/-- Settles O47: the invariant is kept by every move, so by every step. -/
theorem stepKeepsInv : Obligations.StepKeepsInv := fun _ _ h hstep => inv_keptByMoves.step h hstep

/-- Settles O46: at power-on no unit is active, every control is at its idle value, and nothing is stored. -/
theorem resetStateMeetsInv : Obligations.ResetStateMeetsInv where
  params := by decide
  busy := ⟨nofun, fun hn => absurd rfl hn⟩
  pins := ⟨rfl, nofun⟩
  link := ⟨nofun, fun ⟨_, hx⟩ => hx.elim nofun nofun⟩
  hold := rfl
  frames := ⟨Nat.zero_le _, rfl⟩
  flash := ⟨nofun, rfl, rfl, nofun, rfl⟩
  err := ⟨fun _ => rfl, nofun⟩
  mask := nofun
  mem := ⟨rfl, rfl, rfl, rfl, rfl⟩
  bounds := ⟨rfl, rfl, rfl, rfl, rfl⟩
  faults := List.nodup_nil
  irqs := List.nodup_nil

end Sys2Proof.Machine
end

section
/-! SUPPORT. HIST, FAULTS and the parameters along a step. -/

namespace Sys2Proof.Machine

variable {s t u : State}

/-- HIST is only appended to, FAULTS loses nothing, and the parameters are the same (R44, R248). -/
structure Grows (s t : State) : Prop where
  hist : s.hist <+: t.hist
  faults : ∀ f ∈ s.faults, f ∈ t.faults
  cfg : t.cfg = s.cfg

namespace Grows

theorem refl (s : State) : Grows s s := ⟨List.prefix_rfl, fun _ hf => hf, rfl⟩

theorem trans (h : Grows s t) (h' : Grows t u) : Grows s u :=
  ⟨h.hist.trans h'.hist, fun f hf => h'.faults f (h.faults f hf), h'.cfg.trans h.cfg⟩

/-- An update of fields other than the three. -/
theorem of_eq (hhist : t.hist = s.hist) (hfaults : t.faults = s.faults) (hcfg : t.cfg = s.cfg) : Grows s t :=
  ⟨hhist ▸ List.prefix_rfl, fun _ hf => hfaults ▸ hf, hcfg⟩

/-- An update that adds events to HIST. -/
theorem of_append {l : List Event} (hhist : t.hist = s.hist ++ l) (hfaults : t.faults = s.faults)
    (hcfg : t.cfg = s.cfg) : Grows s t :=
  ⟨hhist ▸ List.prefix_append _ _, fun _ hf => hfaults ▸ hf, hcfg⟩

theorem record (e : Event) (s : State) : Grows s (record e s) := of_append rfl rfl rfl

theorem addFault (f : ModelFault) (s : State) : Grows s (addFault f s) :=
  ⟨List.prefix_rfl, fun _ hg => mem_withFault.2 (.inl hg), rfl⟩

theorem faultIf (c : Bool) (f : ModelFault) (s : State) : Grows s (faultIf c f s) := by
  cases c
  · exact refl s
  · exact addFault f s

theorem raise (v : Violation) (s : State) : Grows s (raise v s) :=
  ⟨List.prefix_rfl, fun _ hg => mem_withFault.2 (.inl hg), rfl⟩

/-! ### The host -/

theorem writeReg (r : WinReg) (v : Byte) (s : State) : Grows s (writeReg r v s) := by
  cases r <;> exact of_eq rfl rfl rfl

theorem hostWrite (off : Off) (v : Byte) (s : State) : Grows s (hostWrite off v s) := by
  have hrec := record (.hostWrite off v) s
  obtain ⟨-, -, e⟩ | ⟨-, -, e⟩ | ⟨-, -, e⟩ := hostWrite_cases off v s
  · exact e ▸ hrec.trans (raise _ _)
  · exact e ▸ hrec.trans (raise _ _)
  · exact e ▸ hrec.trans (writeReg _ _ _)

theorem hostRead (off : Off) (s : State) : Grows s (hostRead off s) := by
  obtain ⟨v, d, e⟩ := hostRead_cases off s
  exact e ▸ of_append rfl rfl rfl

theorem hostSetGie (v : Bool) (s : State) : Grows s (hostSetGie v s) := by
  refine trans ?_ (faultIf _ .gieWrite { s with gie := v })
  exact of_eq rfl rfl rfl

theorem hostPm {ev : Word → Byte → Event} {a : Word} (ht : hostPm ev a s = .next t) : Grows s t := by
  unfold Machine.hostPm at ht
  split at ht
  · cases ht
  split at ht
  · cases ht
    exact (addFault _ s).trans (of_append rfl rfl rfl)
  · cases ht
    exact record _ s

theorem hostTakeIrq (src : IrqSource) (s : State) : Grows s (hostTakeIrq src s) := by
  unfold Machine.hostTakeIrq
  split
  · exact of_eq rfl rfl rfl
  · exact refl s

/-- A CMD write lets the records grow if the command's start does. -/
theorem issue {v : Byte} {check : State → Option Violation} {start : State → State}
    (ht : issue v check start s = .next t) (hstart : ∀ w, Grows w (start w)) : Grows s t := by
  have hrec := record (.hostWrite offCmd v) s
  obtain ⟨-, rfl⟩ | ⟨-, bad, -, rfl⟩ | ⟨-, -, rfl⟩ := issue_cases ht
  · exact hrec.trans (raise .overlap _)
  · exact hrec.trans (raise bad _)
  · refine trans ?_ (hstart _)
    exact of_append rfl rfl rfl

theorem startNvc (cap : Capture) (fs : List (List Byte)) (c : Bool) (s : State) :
    Grows s (startNvc cap fs (Machine.faultIf c .nvmRange s)) :=
  (faultIf c .nvmRange s).trans (of_eq rfl rfl rfl)

theorem startStoWrite (s : State) : Grows s (startStoWrite s) := by
  unfold Machine.startStoWrite
  split
  · exact startNvc _ _ _ s
  · exact of_eq rfl rfl rfl

theorem startStoRead (s : State) : Grows s (startStoRead s) := by
  unfold Machine.startStoRead
  split
  · exact startNvc _ _ _ s
  · exact of_eq rfl rfl rfl

theorem exec {i : Instr} (ht : exec i s = .next t) : Grows s t := by
  cases i with
  | busWr sp => exact issue ((exec_busWr sp s).symm.trans ht) fun _ => of_eq rfl rfl rfl
  | busRd sp => exact issue ((exec_busRd sp s).symm.trans ht) fun _ => of_eq rfl rfl rfl
  | nvmWren b => exact issue ((exec_nvmWren b s).symm.trans ht) fun _ => of_eq rfl rfl rfl
  | nvmWrByte b => exact issue ((exec_nvmWrByte b s).symm.trans ht) fun _ => startNvc _ _ _ _
  | nvmRdByte b => exact issue ((exec_nvmRdByte b s).symm.trans ht) fun _ => startNvc _ _ _ _
  | nvmWrPage b => exact issue ((exec_nvmWrPage b s).symm.trans ht) fun _ => startNvc _ _ _ _
  | nvmRdPage b => exact issue ((exec_nvmRdPage b s).symm.trans ht) fun _ => startNvc _ _ _ _
  | stoWrite b => exact issue ((exec_stoWrite b s).symm.trans ht) startStoWrite
  | stoRead b => exact issue ((exec_stoRead b s).symm.trans ht) startStoRead
  | flashProg b => exact issue ((exec_flashProg b s).symm.trans ht) fun _ => of_eq rfl rfl rfl
  | getNmi =>
    cases ht
    exact hostRead offStatus s

/-! ### The sequencer and the other agents -/

theorem chipSelect (f : List Byte) (s : State) : Grows s (chipSelect f s) := by
  refine trans (trans ?_ (faultIf _ .nvmChipBusy _)) (faultIf _ .nvmChipPage _)
  exact of_eq rfl rfl rfl

theorem nvcStep {cap : Capture} {ph : NvcPhase} (ht : nvcStep cap ph s = .next t) : Grows s t := by
  obtain ⟨-, rfl⟩ | ⟨f, rest, -, -, ⟨-, rfl⟩ | ⟨-, rfl⟩ | ⟨-, rfl⟩ | ⟨-, rfl⟩⟩ := nvcStep_cases ht
  · exact of_eq rfl rfl rfl
  · refine trans ?_ (chipSelect f _)
    exact of_eq rfl rfl rfl
  · obtain ⟨v, d, e⟩ := exchange_frame cap f s
    exact e ▸ of_eq rfl rfl rfl
  · obtain ⟨l, c, r, k, ⟨-, e⟩ | ⟨-, e⟩, -⟩ := finishFrame_cases cap f rest s <;> exact e ▸ of_append rfl rfl rfl
  · exact of_eq rfl rfl rfl

theorem seqStep (ht : seqStep s = .next t) : Grows s t := by
  cases hs : s.seq with
  | idle =>
    rw [Machine.seqStep, hs] at ht
    cases ht
    exact refl s
  | bte d sp ph =>
    rw [seqStep_bte hs] at ht
    cases ht
    obtain ⟨_, _, _, _, _, _, _, _, e⟩ := bteStep_frame d sp ph s
    exact e ▸ of_append rfl rfl rfl
  | nvc cap ph => exact nvcStep (seqStep_nvc hs ▸ ht)
  | frs ph =>
    rw [seqStep_frs hs] at ht
    cases ht
    obtain ⟨_, _, _, _, _, _, _, _, _, _, _, _, e⟩ := frsStep_frame ph s
    exact e ▸ of_append rfl rfl rfl

theorem flashStep (s : State) : Grows s (flashStep s) := by
  unfold Machine.flashStep
  split
  · split
    · exact of_eq rfl rfl rfl
    · exact of_append rfl rfl rfl
    · exact of_append rfl rfl rfl
  · exact refl s

theorem keptByMoves (s : State) : KeptByMoves (Grows s) where
  own _ _ _ h := h.trans (of_eq rfl rfl rfl)
  exec h ht := h.trans (exec ht)
  write off v h := h.trans (hostWrite off v _)
  read off h := h.trans (hostRead off _)
  setGie v h := h.trans (hostSetGie v _)
  pm h ht := h.trans (hostPm ht)
  wide h := h.trans (addFault .hostWidth _)
  takeIrq src h := h.trans (hostTakeIrq src _)
  seq h ht := h.trans (seqStep ht)
  nmi _ h := h.trans (of_eq rfl rfl rfl)
  irq _ h := h.trans (of_eq rfl rfl rfl)
  chip h := h.trans (of_eq rfl rfl rfl)
  flash h := h.trans (flashStep _)
  reset h := h.trans (of_eq rfl rfl rfl)

end Grows

/-- Settles O51: a step is made of moves, and through each of them the records only grow. -/
theorem recordsOnlyGrow : Obligations.RecordsOnlyGrow := by
  intro s t hstep
  obtain ⟨hhist, hfaults, hcfg⟩ := (Grows.keptByMoves s).step (.refl s) hstep
  exact ⟨hhist, hfaults, hcfg⟩

end Sys2Proof.Machine
end

section
/-! SUPPORT. The values R46 states, after the RESET step and at power-on. -/

namespace Sys2Proof.Machine

/-- Settles O41: the step is `resetStep`, which writes each of R46's values and copies the rest. -/
theorem resetSetsControlState : Obligations.ResetSetsControlState := by
  intro s hok
  refine ⟨resetStep s, step_reset s hok, ?_⟩
  simp [resetStep, controlOf, Pins.idle]

/-- Settles O45: `State.reset` is written out, so each of R46's values is read off it. -/
theorem powerOnState : Obligations.PowerOnState := by
  unfold Obligations.PowerOnState
  decide

end Sys2Proof.Machine
end

section
/-! SUPPORT. What the outside world does to the block, as steps. -/

namespace Sys2Proof.Machine

/-- With GIE = 0 the host takes no request (R36). -/
theorem hostTakeIrq_masked (src : IrqSource) {s : State} (hg : s.gie = false) : hostTakeIrq src s = s :=
  if_neg (by simp [hg])

/-- With GIE = 1 the request it takes is no longer pending (R217). -/
theorem hostTakeIrq_enabled (src : IrqSource) {s : State} (hg : s.gie = true) :
    hostTakeIrq src s = { s with irqs := s.irqs.filter (fun x => x != src) } :=
  if_pos hg

/-- Settles O17: each event is one move, and the move is the update the rule states. -/
theorem outsideEvents : Obligations.OutsideEvents := by
  intro s off b src hok
  have htake := step_hostTurn (.takeIrq src) s hok
  refine ⟨step_hostTurn _ s hok, ?_, ?_, fun hg => ?_, fun hg => ?_⟩
  · simp only [step, nextMove_agentTurn _ s hok, agentMove]
  · simp only [step, nextMove_agentTurn _ s hok, agentMove, requestIrq]
  · exact htake.trans (congrArg Host.Outcome.next (hostTakeIrq_masked src hg))
  · exact ⟨s.irqs.filter (fun x => x != src), by simp,
      htake.trans (congrArg Host.Outcome.next (hostTakeIrq_enabled src hg))⟩

end Sys2Proof.Machine
end

section
/-! SUPPORT. A state that meets the invariant has a next state, but for a host access to program memory that does not
exist. -/

namespace Sys2Proof.Machine

variable {s : State}

/-- What a move comes to. -/
def Move.outcome (m : Move) : Outcome :=
  match m with
  | .run i s => exec i s
  | .done o => o

/-- With good parameters a step is the move of the agent whose turn it is; taking the turn changes only the model's own
fields. -/
theorem step_eq_outcome (hok : s.cfg.ok = true) :
    ∃ ag d ts, step s = (agentMove ag (withOwn d ts s.host s)).outcome := by
  obtain ⟨d, ts, e⟩ := takeTurn_snd s
  refine ⟨(takeTurn s).1, d, ts, ?_⟩
  rw [step, nextMove, if_pos hok, e]
  rfl

/-- A CMD write is never refused: a violation is recorded, and the block goes on (R243). -/
theorem issue_next (v : Byte) (check : State → Option Violation) (start : State → State) (s : State) :
    ∃ t, issue v check start s = .next t := by
  cases hb : s.busy with
  | true => exact ⟨_, issue_busy v check start s hb⟩
  | false =>
    cases hc : check (record (.hostWrite offCmd v) s) with
    | some bad => exact ⟨_, issue_refused v check start s bad hb hc⟩
    | none => exact ⟨_, issue_accepted v check start s hb hc⟩

theorem exec_next (i : Instr) (s : State) : ∃ t, exec i s = .next t := by
  by_cases hi : i = .getNmi
  · exact ⟨_, hi ▸ exec_getNmi s⟩
  · obtain ⟨check, start, e⟩ := exec_issue i s hi
    exact e ▸ issue_next _ check start s

/-- The NVC's frames are ones the chip knows, so none is refused (R181). -/
theorem Inv.nvcStep_next (h : Inv s) {cap : Capture} {ph : NvcPhase} (hs : s.seq = .nvc cap ph) :
    ∃ t, Machine.nvcStep cap ph s = .next t := by
  cases hf : s.frames with
  | nil => exact ⟨_, by rw [Machine.nvcStep, hf]⟩
  | cons t rest =>
    obtain ⟨hwire, -⟩ : SentFrame t := h.frames_ok hs t (by simp [hf])
    cases ph with
    | cs => exact ⟨_, nvcStep_cs hf hwire⟩
    | x => exact ⟨_, nvcStep_x hf hwire⟩
    | ds => exact ⟨_, nvcStep_ds hf hwire⟩
    | gap => exact ⟨_, nvcStep_gap hf hwire⟩
    | noop => exact ⟨Machine.endNvc s, by simp only [Machine.nvcStep, hf, hwire, if_true]⟩

theorem Inv.seqStep_next (h : Inv s) : ∃ t, Machine.seqStep s = .next t := by
  cases hs : s.seq with
  | idle => exact ⟨s, by rw [Machine.seqStep, hs]⟩
  | bte d sp ph => exact ⟨_, seqStep_bte hs⟩
  | nvc cap ph => exact seqStep_nvc hs ▸ h.nvcStep_next hs
  | frs ph => exact ⟨_, seqStep_frs hs⟩

/-- The host's next statement reads or fetches a byte beyond PM_SIZE (R64). -/
def ReadsBeyondPm (s : State) : Prop :=
  ∃ a rest, (s.host = .pmRead a :: rest ∨ s.host = .pmFetch a :: rest) ∧ s.cfg.pmSize ≤ a.toNat

theorem hostPm_next (ev : Word → Byte → Event) {a : Word} (ha : a.toNat < s.cfg.pmSize) :
    ∃ t, hostPm ev a s = .next t := by
  by_cases hr : s.appRdEn = false ∧ inResident s.cfg a.toNat = false
  · exact ⟨_, hostPm_hidden ev a s ha hr⟩
  · exact ⟨_, hostPm_shown ev a s ha hr⟩

/-- The host's only statement without a next state is a read or fetch beyond PM_SIZE. -/
theorem hostMove_runs (s : State) : (∃ t, (hostMove s).outcome = .next t) ∨
    ((hostMove s).outcome = .fault .pmOutside ∧ ReadsBeyondPm s) := by
  obtain e | ⟨rest, ⟨i, e⟩ | ⟨off, v, e⟩ | ⟨off, e⟩ | ⟨v, e⟩ | ⟨ev, a, hhost, e⟩ | e | ⟨src, e⟩⟩ := hostMove_cases s
  case inr.inl => exact .inl (e ▸ exec_next i _)
  case inr.inr.inr.inr.inr.inl =>
    rw [e]
    obtain ha | ha := Nat.lt_or_ge a.toNat s.cfg.pmSize
    · exact .inl (hostPm_next ev ha)
    · exact .inr ⟨hostPm_outside ev a _ ha, a, rest, hhost, ha⟩
  all_goals exact .inl ⟨_, congrArg Move.outcome e⟩

theorem Inv.agentMove_runs (h : Inv s) (ag : Turn) : (∃ t, (agentMove ag s).outcome = .next t) ∨
    ((agentMove ag s).outcome = .fault .pmOutside ∧ ReadsBeyondPm s) := by
  cases ag with
  | host => exact hostMove_runs s
  | seq => exact .inl h.seqStep_next
  | xbusNmi | irq | nvmChip | flash | reset => exact .inl ⟨_, rfl⟩

/-- Settles O48: the invariant excludes bad parameters and bad frames; a host read beyond PM_SIZE is what is left. -/
theorem invariantStatesRun : Obligations.InvariantStatesRun := by
  intro s h
  obtain ⟨ag, d, ts, e⟩ := step_eq_outcome h.params
  rw [e]
  exact (h.withOwn d ts s.host).agentMove_runs ag

end Sys2Proof.Machine
end

section
/-! SUPPORT. What a step can do to PM: nothing, or a running FLASH_PROG's change of its own page. -/

namespace Sys2Proof.Machine

variable {s t : State}

/-! ### The moves that leave PM alone -/

theorem issue_pm {v : Byte} {check : State → Option Violation} {start : State → State}
    (ht : issue v check start s = .next t) (hstart : ∀ u, (start u).pm = u.pm) : t.pm = s.pm := by
  obtain ⟨-, rfl⟩ | ⟨-, bad, -, rfl⟩ | ⟨-, -, rfl⟩ := issue_cases ht
  · rfl
  · rfl
  · exact hstart _

theorem startStoWrite_pm (s : State) : (startStoWrite s).pm = s.pm := by
  unfold startStoWrite
  split
  · exact faultIf_pm s _ _
  · rfl

theorem startStoRead_pm (s : State) : (startStoRead s).pm = s.pm := by
  unfold startStoRead
  split
  · exact faultIf_pm s _ _
  · rfl

/-- An instruction's accepting step changes no byte of PM, FLASH_PROG's included (R104). -/
theorem exec_pm {i : Instr} (ht : exec i s = .next t) : t.pm = s.pm := by
  cases i with
  | busWr sp => exact issue_pm ((exec_busWr sp s).symm.trans ht) fun _ => rfl
  | busRd sp => exact issue_pm ((exec_busRd sp s).symm.trans ht) fun _ => rfl
  | nvmWren b => exact issue_pm ((exec_nvmWren b s).symm.trans ht) fun _ => rfl
  | nvmWrByte b => exact issue_pm ((exec_nvmWrByte b s).symm.trans ht) fun _ => faultIf_pm _ _ _
  | nvmRdByte b => exact issue_pm ((exec_nvmRdByte b s).symm.trans ht) fun _ => faultIf_pm _ _ _
  | nvmWrPage b => exact issue_pm ((exec_nvmWrPage b s).symm.trans ht) fun _ => faultIf_pm _ _ _
  | nvmRdPage b => exact issue_pm ((exec_nvmRdPage b s).symm.trans ht) fun _ => faultIf_pm _ _ _
  | stoWrite b => exact issue_pm ((exec_stoWrite b s).symm.trans ht) startStoWrite_pm
  | stoRead b => exact issue_pm ((exec_stoRead b s).symm.trans ht) startStoRead_pm
  | flashProg b => exact issue_pm ((exec_flashProg b s).symm.trans ht) fun _ => rfl
  | getNmi =>
    obtain ⟨v, d, e⟩ := hostRead_cases offStatus s
    rw [exec_getNmi, e] at ht
    cases ht
    rfl

/-- The register window does not reach PM (R91). -/
theorem hostWrite_pm (off : Off) (v : Byte) (s : State) : (hostWrite off v s).pm = s.pm := by
  obtain ⟨-, -, e⟩ | ⟨-, -, e⟩ | ⟨-, -, e⟩ := hostWrite_cases off v s <;> rw [e]
  · rfl
  · rfl
  · cases winReg s.cfg off <;> rfl

theorem hostPm_pm {ev : Word → Byte → Event} {a : Word} (ht : hostPm ev a s = .next t) : t.pm = s.pm := by
  unfold hostPm at ht
  split at ht
  · cases ht
  split at ht <;> cases ht <;> rfl

theorem hostTakeIrq_pm (src : IrqSource) (s : State) : (hostTakeIrq src s).pm = s.pm := by
  unfold hostTakeIrq
  split <;> rfl

/-- No statement of the host changes PM. -/
theorem hostMove_pm (ht : (hostMove s).outcome = .next t) : t.pm = s.pm := by
  obtain e | ⟨rest, ⟨i, e⟩ | ⟨off, v, e⟩ | ⟨off, e⟩ | ⟨v, e⟩ | ⟨ev, a, -, e⟩ | e | ⟨src, e⟩⟩ := hostMove_cases s
  all_goals rw [e] at ht
  · cases ht
    rfl
  · exact exec_pm (s := { s with host := rest }) ht
  · cases ht
    exact hostWrite_pm off v _
  · obtain ⟨v, d, er⟩ := hostRead_cases off { s with host := rest }
    rw [er] at ht
    cases ht
    rfl
  · cases ht
    exact faultIf_pm _ _ _
  · exact hostPm_pm (s := { s with host := rest }) ht
  · cases ht
    rfl
  · cases ht
    exact hostTakeIrq_pm src _

theorem nvcStep_pm {cap : Capture} {ph : NvcPhase} (ht : nvcStep cap ph s = .next t) : t.pm = s.pm := by
  obtain ⟨-, rfl⟩ | ⟨f, rest, -, -, ⟨-, rfl⟩ | ⟨-, rfl⟩ | ⟨-, rfl⟩ | ⟨-, rfl⟩⟩ := nvcStep_cases ht
  · rfl
  · simp [chipSelect]
  · obtain ⟨v, d, e⟩ := exchange_frame cap f s
    rw [e]
  · obtain ⟨l, c, r, k, ⟨-, e⟩ | ⟨-, e⟩, -⟩ := finishFrame_cases cap f rest s <;> rw [e]
  · rfl

/-! ### The moves that rewrite a page -/

/-- PM is unchanged, or FLASH_PROG is running and PM is unchanged outside the page of PADDR (R200, R218). -/
def PmChangesInPage (s t : State) : Prop :=
  t.pm = s.pm ∨
    (unitOf s.seq = .frs ∧ ∀ a, a / s.cfg.pmPageSize ≠ flashPage s → t.pm.read a = s.pm.read a)

/-- F3 starts the erase (R205); no other phase changes PM. -/
theorem Inv.frsStep_pm (h : Inv s) {ph : FrsPhase} (hs : s.seq = .frs ph) : PmChangesInPage s (Machine.frsStep ph s) := by
  obtain ⟨-, -, -, hpm, -⟩ := h.mem
  cases ph with
  | f3 => exact .inr ⟨by rw [hs]; rfl, forgetPage_read _ _ s hpm⟩
  | f4 => obtain ⟨-, e⟩ | ⟨-, e⟩ := frsStep_f4_cases s <;> exact .inl (by rw [e])
  | f7 => obtain ⟨-, e⟩ | ⟨-, e⟩ := frsStep_f7_cases s <;> exact .inl (by rw [e])
  | f1 | f2 | f5 | f6 | f8 | f9 => exact .inl rfl

theorem Inv.seqStep_pm (h : Inv s) (ht : Machine.seqStep s = .next t) : PmChangesInPage s t := by
  cases hs : s.seq with
  | idle =>
    rw [Machine.seqStep, hs] at ht
    cases ht
    exact .inl rfl
  | bte d sp ph =>
    rw [seqStep_bte hs] at ht
    cases ht
    obtain ⟨_, _, _, _, _, _, _, _, e⟩ := bteStep_frame d sp ph s
    exact .inl (by rw [e])
  | nvc cap ph => exact .inl (nvcStep_pm (seqStep_nvc hs ▸ ht))
  | frs ph =>
    rw [seqStep_frs hs] at ht
    cases ht
    exact h.frsStep_pm hs

/-- What the FLASH agent completes is the running command's operation, on its page (R214). -/
theorem Inv.flashStep_pm (h : Inv s) : PmChangesInPage s (Machine.flashStep s) := by
  obtain ⟨-, -, -, hpm, -⟩ := h.mem
  cases hb : s.flashBusy with
  | false => exact .inl (by simp [Machine.flashStep, hb])
  | true =>
    obtain ⟨-, -, -, hop, -⟩ := h.flash
    obtain ⟨hs, hop⟩ | ⟨hs, hop⟩ := hop hb <;> refine .inr ⟨by rw [hs]; rfl, fun a ha => ?_⟩
    · simpa [Machine.flashStep, hb, hop] using forgetPage_read _ s.draws s hpm a ha
    · simp only [Machine.flashStep, hb, hop, if_true, record_pm]
      rw [Cells.read_writeList _ _ _ _ hpm, wbufWords_length h.params, if_neg (outside_page ha)]

theorem unitOf_of_pageInFlight {a : Activity} (h : pageInFlight a = true) : unitOf a = .frs := by
  cases a with
  | frs => rfl
  | idle | bte | nvc => cases h

/-- RESET leaves the page of an interrupted FLASH_PROG unspecified (R274). -/
theorem Inv.resetStep_pm (h : Inv s) : PmChangesInPage s (Machine.resetStep s) := by
  obtain ⟨-, -, -, hpm, -⟩ := h.mem
  show Machine.resetPm s = s.pm ∨ (_ ∧ ∀ a, _ → (Machine.resetPm s).read a = s.pm.read a)
  unfold Machine.resetPm
  split
  · exact .inr ⟨unitOf_of_pageInFlight ‹_›, forgetPage_read _ _ s hpm⟩
  · exact .inl rfl

/-! ### Every step -/

theorem Inv.agentMove_pm (h : Inv s) {ag : Turn} (ht : (agentMove ag s).outcome = .next t) : PmChangesInPage s t := by
  cases ag with
  | host => exact .inl (hostMove_pm ht)
  | seq => exact h.seqStep_pm ht
  | xbusNmi | irq | nvmChip =>
    cases ht
    exact .inl rfl
  | flash =>
    cases ht
    exact h.flashStep_pm
  | reset =>
    cases ht
    exact h.resetStep_pm

theorem Inv.step_pm (h : Inv s) (hstep : step s = .next t) : PmChangesInPage s t := by
  obtain ⟨ag, d, ts, e⟩ := step_eq_outcome h.params
  exact (h.withOwn d ts s.host).agentMove_pm (e ▸ hstep)

/-! ### The resident region -/

/-- A page that passes FLASH_PROG's checks holds no byte of the resident region (R201). -/
theorem resident_outside_flashPage (hc : flashCheck s = none) {a : Nat} (hlow : s.cfg.resBase ≤ a)
    (hhigh : a < s.cfg.resBase + s.cfg.resSize) (hok : s.cfg.ok = true) : a / s.cfg.pmPageSize ≠ flashPage s := by
  obtain ⟨hpage, -, hclear⟩ := flashCheck_ok hc
  obtain ⟨hsize, hpos⟩ := pageSize_even hok
  intro ha
  have hstart := Nat.div_mul_le_self a s.cfg.pmPageSize
  have hend := Nat.lt_div_mul_add (a := a) (b := s.cfg.pmPageSize) (by omega)
  rw [ha, hpage] at hstart hend
  omega

/-- Settles O49: PM changes in the page of PADDR at most, and by the invariant that page passed the checks of R201. -/
theorem residentRegionNeverChanges : Obligations.ResidentRegionNeverChanges := by
  intro s t h hstep a hlow hhigh
  obtain e | ⟨hfrs, hkeep⟩ := h.step_pm hstep
  · rw [e]
  · exact hkeep a (resident_outside_flashPage (h.flash.1 hfrs) hlow hhigh h.params)

end Sys2Proof.Machine
end

section
/-! SUPPORT. The CMD byte's fields and the opcode map, both ways (30_encoding.md R95 to R99). -/

namespace Sys2Proof

/-! ### The fields of a CMD byte (R95) -/

@[simp] theorem cmdOp_cmdByte (op : BitVec 4) (b : Bool) : cmdOp (cmdByte op b) = op :=
  BitVec.extractLsb'_append_eq_right

@[simp] theorem cmdSp_cmdByte (op : BitVec 4) (b : Bool) : cmdSp (cmdByte op b) = b := by
  unfold cmdSp cmdByte
  rw [BitVec.cast_eq, BitVec.getLsbD_append, BitVec.getLsbD_append]
  simp

@[simp] theorem cmdRsv_cmdByte (op : BitVec 4) (b : Bool) : cmdRsv (cmdByte op b) = 0 := by
  unfold cmdRsv cmdByte
  rw [BitVec.cast_eq, BitVec.append_assoc]
  exact BitVec.extractLsb'_append_eq_left

/-- The three fields are the whole byte. -/
theorem cmdByte_fields {v : Byte} (h : cmdRsv v = 0) : cmdByte (cmdOp v) (cmdSp v) = v := by
  have hsp : BitVec.ofBool (cmdSp v) = v.extractLsb' 4 1 := BitVec.eq_of_getLsbD_eq (by simp [cmdSp])
  have hall : cmdRsv v ++ v.extractLsb' 4 1 ++ cmdOp v = v := by
    unfold cmdRsv cmdOp
    rw [BitVec.extractLsb'_append_extractLsb'_eq_extractLsb' (show 5 = 4 + 1 from rfl),
      BitVec.extractLsb'_append_extractLsb'_eq_extractLsb' (show 4 = 0 + 4 from rfl), BitVec.extractLsb'_eq_self]
  rwa [h, ← hsp] at hall

theorem cmdByte_of_cmdOp {v : Byte} {n : Nat} (h : cmdRsv v = 0) (hop : (cmdOp v).toNat = n) :
    cmdByte (BitVec.ofNat 4 n) (cmdSp v) = v := by
  rw [← hop, BitVec.ofNat_toNat, BitVec.setWidth_eq, cmdByte_fields h]

@[simp] theorem spaceOf_spBit (sp : Space) : spaceOf (spBit sp) = sp := by cases sp <;> rfl

@[simp] theorem spBit_spaceOf (b : Bool) : spBit (spaceOf b) = b := by cases b <;> rfl

/-! ### Commands and CMD bytes (R96, R99) -/

theorem decodeCmd_encodeCmd {i : Instr} (hi : i ≠ .getNmi) : decodeCmd (encodeCmd i) = .ok i := by
  cases i with
  | getNmi => exact absurd rfl hi
  | busWr sp | busRd sp => simp [encodeCmd, decodeCmd]
  | nvmWren b | nvmWrByte b | nvmRdByte b | nvmWrPage b | nvmRdPage b | stoWrite b | stoRead b | flashProg b =>
    simp [encodeCmd, decodeCmd]

/-- A byte that decodes is the byte of the command it decodes to: OP names the row, and RSV = 000. -/
theorem encodeCmd_of_decodeCmd {v : Byte} {i : Instr} (h : decodeCmd v = .ok i) : i ≠ .getNmi ∧ encodeCmd i = v := by
  unfold decodeCmd at h
  split at h
  · cases h
  · rename_i hrsv
    split at h <;> cases h
    all_goals exact ⟨nofun, by simpa [encodeCmd] using cmdByte_of_cmdOp (not_not.1 hrsv) ‹_›⟩

/-- R99: a reserved bit or a reserved OP makes the byte illegal. -/
theorem decodeCmd_illegal {v : Byte}
    (h : cmdRsv v ≠ 0 ∨ (cmdOp v).toNat = 0x0 ∨ (cmdOp v).toNat = 0x3 ∨ 0xC ≤ (cmdOp v).toNat) :
    ∃ e, decodeCmd v = .error e := by
  unfold decodeCmd
  split
  · exact ⟨_, rfl⟩
  · have hop := h.resolve_left ‹_›
    split
    case h_11 => exact ⟨_, rfl⟩
    all_goals omega

/-! ### Instructions and accesses -/

theorem encode_eq_write {i : Instr} (hi : i ≠ .getNmi) : encode i = .write offCmd (encodeCmd i) := by
  cases i with
  | getNmi => exact absurd rfl hi
  | busWr | busRd | nvmWren | nvmWrByte | nvmRdByte | nvmWrPage | nvmRdPage | stoWrite | stoRead | flashProg => rfl

theorem decode_encode (i : Instr) : decode (encode i) = .ok i := by
  by_cases hi : i = .getNmi
  · rw [hi]
    rfl
  · rw [encode_eq_write hi]
    exact decodeCmd_encodeCmd hi

theorem encode_of_decode {a : Access} {i : Instr} (h : decode a = .ok i) : encode i = a := by
  unfold decode at h
  split at h <;> split at h
  · rename_i hoff
    obtain ⟨hi, hv⟩ := encodeCmd_of_decodeCmd h
    rw [encode_eq_write hi, hv, hoff]
  · cases h
  · rename_i hoff
    cases h
    rw [hoff]
    rfl
  · cases h

/-- Settles O4: the fields of a CMD byte are independent and are all of it, so the opcode map has an inverse. -/
theorem decodeEncodeAgree : Obligations.DecodeEncodeAgree :=
  ⟨decode_encode, fun _ _ => encode_of_decode⟩

/-- Settles O3: each word is run through the decoder. -/
theorem opcodeWordsDecode : Obligations.OpcodeWordsDecode := by
  unfold Obligations.OpcodeWordsDecode
  decide

end Sys2Proof
end

section
/-! SUPPORT. The host's access as a step: the instruction it decodes to (30_encoding.md R102, R106), or the register it
names (R91). -/

namespace Sys2Proof.Machine

variable {s : State}

/-! ### Accesses that are instructions -/

/-- `wait` reads STATUS, and is consumed when BUSY = 0 (R106). -/
theorem step_hostTurn_wait (hok : s.cfg.ok = true) :
    step (hostTurn .wait s) = exec .getNmi (if s.busy then { s with host := .wait :: s.host } else s) := by
  rw [step_hostTurn _ _ hok]
  rfl

/-- Settles O1: the host's move hands an access that decodes to `exec`; `wait` is the STATUS read, consumed or not. -/
theorem stepRunsDecodedInstruction : Obligations.StepRunsDecodedInstruction := by
  refine ⟨fun s a i hok => step_hostTurn_instr a i s hok, fun s hok hb => ?_, fun s hok hb => ?_⟩
  · rw [step_hostTurn_wait hok, if_neg (by simp [hb])]
  · rw [step_hostTurn_wait hok, if_pos hb]

theorem decode_of_decodeTableWord {nbits w : Nat} {i : Instr} (h : decodeTableWord nbits w = some i) :
    nbits ≤ 8 ∧ decode (tableAccess w) = .ok i := by
  unfold decodeTableWord at h
  split at h
  · rename_i hword
    split at h
    · rename_i hdec
      cases h
      exact ⟨hword.1, hdec⟩
    · cases h
  · cases h

/-- Settles O2: the placed word is the host's next statement, and it is an access that decodes. -/
theorem placedWordRunsNext : Obligations.PlacedWordRunsNext := by
  intro s nbits w i hok h
  obtain ⟨hbits, hdec⟩ := decode_of_decodeTableWord h
  rw [State.withFetchWord, if_pos hbits]
  exact step_hostTurn_instr _ i s hok hdec

/-- A command given while BUSY = 1 is OVERLAP and nothing else (R102, R244). -/
theorem exec_of_busy {i : Instr} (hi : i ≠ .getNmi) (hb : s.busy = true) :
    exec i s = .next (raise .overlap (record (.hostWrite offCmd (encodeCmd i)) s)) := by
  obtain ⟨check, start, e⟩ := exec_issue i s hi
  rw [e, issue_busy _ _ _ _ hb]

/-- Settles O14: every command is a CMD write, and BUSY is its first check. -/
theorem commandsRefusedWhileBusy : Obligations.CommandsRefusedWhileBusy := fun _ _ => exec_of_busy

/-! ### Accesses that name a register -/

theorem decode_write_of_ne {off : Off} (h : off ≠ offCmd) (v : Byte) : decode (.write off v) = .error .notACommand :=
  if_neg h

theorem decode_read_of_ne {off : Off} (h : off ≠ offStatus) : decode (.read off) = .error .notACommand :=
  if_neg h

/-- A write of a register other than CMD (R91): OVERLAP does not meet it, so the register's byte is written. -/
theorem step_write_reg {off : Off} {r : WinReg} (hok : s.cfg.ok = true) (hreg : winReg s.cfg off = r) (hr : r ≠ .cmd)
    (hfree : s.busy = false ∨ isGuarded r = false) (v : Byte) :
    step (hostTurn (.wr off v) s) = .next (writeReg r v (record (.hostWrite off v) s)) := by
  subst hreg
  have hoff : off ≠ offCmd := fun e => hr (e ▸ winReg_cmd s.cfg)
  rw [step_hostTurn_wr off v s hok (decode_write_of_ne hoff v), hostWrite_plain off v s hfree hr]

/-- A read of a register other than STATUS returns its byte, for RDATA and NBUF with BUSY = 0 (R91, R105). -/
theorem step_read_reg {off : Off} {r : WinReg} (hok : s.cfg.ok = true) (hreg : winReg s.cfg off = r) (hr : r ≠ .status)
    (hfree : s.busy = false ∨ isResult r = false) :
    step (hostTurn (.rd off) s) = .next (record (.hostRead off (readReg r s)) s) := by
  subst hreg
  have hoff : off ≠ offStatus := fun e => hr (e ▸ winReg_status s.cfg)
  rw [step_hostTurn_rd off s hok (decode_read_of_ne hoff), hostRead_plain off s hfree]

/-- A read of a result while its command runs returns a free value (R105). -/
theorem step_read_result {off : Off} {r : WinReg} (hok : s.cfg.ok = true) (hreg : winReg s.cfg off = r)
    (hr : isResult r = true) (hb : s.busy = true) :
    step (hostTurn (.rd off) s) = .next (record (.hostRead off (Config.freeByte s.draws 0)) (drew 1 s)) := by
  subst hreg
  have hoff : off ≠ offStatus := by
    rintro rfl
    rw [offStatus, winReg_status] at hr
    cases hr
  rw [step_hostTurn_rd off s hok (decode_read_of_ne hoff), hostRead_free off s hb hr]

/-- Settles O6: the byte does not decode, so the write is a plain one of CMD, which BUSY or else ILLEGAL_CMD meets. -/
theorem illegalCommandByteRefused : Obligations.IllegalCommandByteRefused := by
  intro s v hok hbad
  obtain ⟨e, he⟩ := decodeCmd_illegal hbad
  have hcmd : winReg s.cfg offCmd = .cmd := winReg_cmd s.cfg
  rw [show (0x0000 : Off) = offCmd from rfl, step_hostTurn_wr offCmd v s hok he]
  split
  · rename_i hb
    exact congrArg Host.Outcome.next (hostWrite_overlap offCmd v s hb (by rw [hcmd]; rfl))
  · rename_i hb
    exact congrArg Host.Outcome.next (hostWrite_illegal offCmd v s (Bool.not_eq_true _ ▸ hb) hcmd)

/-- Settles O10: a reserved offset's register holds nothing, and the write column of STATUS and RDATA is empty too. -/
theorem reservedOffsetsInert : Obligations.ReservedOffsetsInert := by
  intro s off v hok
  refine ⟨fun hres => ?_, ?_⟩
  · exact step_read_reg hok (winReg_reserved s.cfg off hres) nofun (.inr rfl)
  · rintro (hres | rfl | rfl)
    · exact step_write_reg hok (winReg_reserved s.cfg off hres) nofun (.inr rfl) v
    · exact step_write_reg hok (winReg_status s.cfg) nofun (.inr rfl) v
    · exact step_write_reg hok (winReg_rdata s.cfg) nofun (.inr rfl) v

/-- Settles O11: each offset names its register, and a read returns the register's byte. -/
theorem hostReadColumn : Obligations.HostReadColumn := by
  intro s off hok
  refine ⟨?_, ?_, ?_, ?_, ?_, fun k hk hoff => ?_, fun k hk hoff hb => ?_, fun k hk hoff => ?_⟩
  · rintro rfl
    exact step_read_reg hok (winReg_cmd s.cfg) nofun (.inr rfl)
  · rintro rfl
    exact step_read_reg hok (winReg_addrL s.cfg) nofun (.inr rfl)
  · rintro rfl
    exact step_read_reg hok (winReg_addrH s.cfg) nofun (.inr rfl)
  · rintro rfl
    exact step_read_reg hok (winReg_wdata s.cfg) nofun (.inr rfl)
  · rintro rfl hb
    exact step_read_reg hok (winReg_rdata s.cfg) nofun (.inl hb)
  · exact step_read_reg hok (winReg_paddr s.cfg off k hk hoff) nofun (.inr rfl)
  · exact step_read_reg hok (winReg_nbuf s.cfg off k hk hoff) nofun (.inl hb)
  · exact step_read_reg hok (winReg_fbuf s.cfg off k hk hoff) nofun (.inr rfl)

/-- Settles O12: RDATA and the NBUF window are the results of R105. -/
theorem resultsUnspecifiedWhileBusy : Obligations.ResultsUnspecifiedWhileBusy := by
  rintro s off hok hb (rfl | ⟨hlow, hhigh⟩)
  · exact step_read_result hok (winReg_rdata s.cfg) rfl hb
  · exact step_read_result hok (winReg_nbuf s.cfg off (off.toNat - 0x0100) (by omega) (by omega)) rfl hb

/-! ### The bytes of a register -/

theorem append_byte_toNat {n : Nat} (x : BitVec n) (b : Byte) : (x ++ b).toNat = x.toNat * 256 + b.toNat := by
  rw [BitVec.toNat_append, Nat.shiftLeft_eq, ← Nat.mul_comm (2 ^ 8), ← Nat.two_pow_add_eq_or_of_lt b.isLt]

theorem wordOf_toNat (b3 b2 b1 b0 : Byte) :
    (wordOf b3 b2 b1 b0).toNat = ((b3.toNat * 256 + b2.toNat) * 256 + b1.toNat) * 256 + b0.toNat := by
  rw [wordOf, BitVec.toNat_cast, append_byte_toNat, append_byte_toNat, append_byte_toNat]

theorem wordByte_wordOf (b3 b2 b1 b0 : Byte) :
    wordByte (wordOf b3 b2 b1 b0) 0 = b0 ∧ wordByte (wordOf b3 b2 b1 b0) 1 = b1 ∧
      wordByte (wordOf b3 b2 b1 b0) 2 = b2 ∧ wordByte (wordOf b3 b2 b1 b0) 3 = b3 := by
  have h0 := b0.isLt
  have h1 := b1.isLt
  have h2 := b2.isLt
  have h3 := b3.isLt
  refine ⟨?_, ?_, ?_, ?_⟩ <;> apply BitVec.eq_of_toNat_eq
  all_goals
    rw [wordByte, BitVec.extractLsb'_toNat, wordOf_toNat, Nat.shiftRight_eq_div_pow]
    omega

/-- R92: a write of byte `k` changes that byte only. -/
theorem wordByte_setWordByte (x : Word) {j k : Nat} (hj : j < 4) (hk : k < 4) (v : Byte) :
    wordByte (setWordByte x k v) j = if j = k then v else wordByte x j := by
  interval_cases k <;> interval_cases j <;> simp [setWordByte, wordByte_wordOf]

/-- Settles O8: each offset names its register, and a byte written into ADDR or PADDR leaves the others. -/
theorem operandWritesChangeOneByte : Obligations.OperandWritesChangeOneByte := by
  intro s v hok hb
  refine ⟨⟨pair (hiByte s.addr) v, loByte_pair _ _, hiByte_pair _ _, ?_⟩,
    ⟨pair v (loByte s.addr), hiByte_pair _ _, loByte_pair _ _, ?_⟩, ?_, fun off k hk hoff =>
    ⟨setWordByte s.paddr k v, fun j hj => wordByte_setWordByte s.paddr hj hk v, ?_⟩⟩
  · exact step_write_reg hok (winReg_addrL s.cfg) nofun (.inl hb) v
  · exact step_write_reg hok (winReg_addrH s.cfg) nofun (.inl hb) v
  · exact step_write_reg hok (winReg_wdata s.cfg) nofun (.inl hb) v
  · exact step_write_reg hok (winReg_paddr s.cfg off k hk hoff) nofun (.inl hb) v

/-- Settles O9: the offset names the byte, and a write to canonical storage changes one address. -/
theorem bufferWritesChangeOneByte : Obligations.BufferWritesChangeOneByte := by
  intro s off v k hok hb hnbuf hfbuf
  refine ⟨fun hk hoff => ⟨s.nbuf.write k v, fun j => Cells.read_write _ _ _ j hnbuf, ?_⟩,
    fun hk hoff => ⟨s.fbuf.write k v, fun j => Cells.read_write _ _ _ j hfbuf, ?_⟩⟩
  · exact step_write_reg hok (winReg_nbuf s.cfg off k hk hoff) nofun (.inl hb) v
  · exact step_write_reg hok (winReg_fbuf s.cfg off k hk hoff) nofun (.inl hb) v

end Sys2Proof.Machine
end

section
/-! SUPPORT. What a step may change while a command runs: not CMD, nor the command's operands (30_encoding.md R98). -/

namespace Sys2Proof.Machine

variable {s t : State}

/-- CMD and the operands of `s` are those of `t`; NBUF's bytes may move only where a page read puts them (R168). -/
structure KeepsOperands (s t : State) : Prop where
  cmd : t.cmd = s.cmd
  addr : t.addr = s.addr
  wdata : t.wdata = s.wdata
  paddr : t.paddr = s.paddr
  fbuf : t.fbuf = s.fbuf
  nbuf : (∀ ph, s.seq ≠ .nvc .nbuf ph) → t.nbuf = s.nbuf

namespace KeepsOperands

theorem refl (s : State) : KeepsOperands s s := ⟨rfl, rfl, rfl, rfl, rfl, fun _ => rfl⟩

/-! ### The host -/

theorem exec {i : Instr} (hb : s.busy = true) (ht : exec i s = .next t) : KeepsOperands s t := by
  by_cases hi : i = .getNmi
  · obtain ⟨v, d, e⟩ := hostRead_cases offStatus s
    rw [hi, exec_getNmi, e] at ht
    cases ht
    exact { refl s with }
  · rw [exec_of_busy hi hb] at ht
    cases ht
    exact { refl s with }

/-- Every operand register is guarded (R244). -/
theorem hostWrite (hb : s.busy = true) (off : Off) (v : Byte) : KeepsOperands s (hostWrite off v s) := by
  obtain ⟨-, -, e⟩ | ⟨hfree, -, -⟩ | ⟨hfree, -, e⟩ := hostWrite_cases off v s
  · exact e ▸ { refl s with }
  · simp [hb] at hfree
  · rw [e, writeReg_unguarded (hfree.resolve_left (by simp [hb]))]
    exact { refl s with }

theorem hostPm {ev : Word → Byte → Event} {a : Word} (ht : hostPm ev a s = .next t) : KeepsOperands s t := by
  unfold Machine.hostPm at ht
  split at ht
  · cases ht
  split at ht <;> cases ht <;> exact { refl s with }

theorem hostTakeIrq (src : IrqSource) (s : State) : KeepsOperands s (hostTakeIrq src s) := by
  unfold Machine.hostTakeIrq
  split <;> exact { refl s with }

theorem faultIf (c : Bool) (f : ModelFault) (s : State) : KeepsOperands s (faultIf c f s) := by
  cases c <;> exact { refl s with }

theorem hostMove (hb : s.busy = true) (ht : (hostMove s).outcome = .next t) : KeepsOperands s t := by
  obtain e | ⟨rest, ⟨i, e⟩ | ⟨off, v, e⟩ | ⟨off, e⟩ | ⟨v, e⟩ | ⟨ev, a, -, e⟩ | e | ⟨src, e⟩⟩ := hostMove_cases s
  all_goals rw [e] at ht
  · cases ht
    exact refl s
  · exact { exec (s := { s with host := rest }) hb ht with }
  · cases ht
    exact { hostWrite (s := { s with host := rest }) hb off v with }
  · obtain ⟨v, d, er⟩ := hostRead_cases off { s with host := rest }
    rw [er] at ht
    cases ht
    exact { refl s with }
  · cases ht
    exact { faultIf _ .gieWrite { s with host := rest, gie := v } with }
  · exact { hostPm (s := { s with host := rest }) ht with }
  · cases ht
    exact { refl s with }
  · cases ht
    exact { hostTakeIrq src { s with host := rest } with }

/-! ### The sequencer and the FLASH agent -/

theorem nvcStep {cap : Capture} {ph : NvcPhase} (hs : s.seq = .nvc cap ph) (ht : nvcStep cap ph s = .next t) :
    KeepsOperands s t := by
  obtain ⟨-, rfl⟩ | ⟨f, rest, -, -, ⟨-, rfl⟩ | ⟨-, rfl⟩ | ⟨-, rfl⟩ | ⟨-, rfl⟩⟩ := nvcStep_cases ht
  · exact { refl s with }
  · constructor <;> simp [chipSelect]
  · obtain ⟨v, d, e⟩ := exchange_frame cap f s
    rw [e]
    exact { refl s with nbuf := fun hread => if_neg fun ⟨hcap, _⟩ => hread ph (hcap ▸ hs) }
  · obtain ⟨l, c, r, k, ⟨-, e⟩ | ⟨-, e⟩, -⟩ := finishFrame_cases cap f rest s <;> exact e ▸ { refl s with }
  · exact { refl s with }

theorem seqStep (ht : seqStep s = .next t) : KeepsOperands s t := by
  cases hs : s.seq with
  | idle =>
    rw [Machine.seqStep, hs] at ht
    cases ht
    exact refl s
  | bte d sp ph =>
    rw [seqStep_bte hs] at ht
    cases ht
    obtain ⟨_, _, _, _, _, _, _, _, e⟩ := bteStep_frame d sp ph s
    exact e ▸ { refl s with }
  | nvc cap ph => exact nvcStep hs (seqStep_nvc hs ▸ ht)
  | frs ph =>
    rw [seqStep_frs hs] at ht
    cases ht
    obtain ⟨_, _, _, _, _, _, _, _, _, _, _, _, e⟩ := frsStep_frame ph s
    exact e ▸ { refl s with }

theorem flashStep (s : State) : KeepsOperands s (flashStep s) := by
  unfold Machine.flashStep
  split
  · split <;> exact { refl s with }
  · exact refl s

/-- Every agent but RESET. -/
theorem agentMove {ag : Turn} (hag : ag ≠ .reset) (hb : s.busy = true) (ht : (agentMove ag s).outcome = .next t) :
    KeepsOperands s t := by
  cases ag with
  | host => exact hostMove hb ht
  | seq => exact seqStep ht
  | xbusNmi | irq | nvmChip =>
    cases ht
    exact { refl s with }
  | flash =>
    cases ht
    exact flashStep s
  | reset => exact absurd rfl hag

end KeepsOperands

/-- A step with a next state is the move of the agent whose turn was taken. -/
theorem agentMove_of_step (h : step s = .next t) : (agentMove (takeTurn s).1 (takeTurn s).2).outcome = .next t := by
  rw [step, nextMove, if_pos (step_cases h).1] at h
  exact h

/-- Settles O53: OVERLAP meets the host's writes, and no other agent but RESET writes a register the host can write,
except a page read NBUF. -/
theorem operandsFixedWhileBusy : Obligations.OperandsFixedWhileBusy := by
  intro s t hstep hag hb
  have ht := agentMove_of_step hstep
  obtain ⟨d, ts, e⟩ := takeTurn_snd s
  rw [e] at ht
  obtain ⟨hcmd, haddr, hwdata, hpaddr, hfbuf, hnbuf⟩ := KeepsOperands.agentMove (s := withOwn d ts s.host s) hag hb ht
  exact ⟨hcmd, haddr, hwdata, hpaddr, hfbuf, hnbuf⟩

end Sys2Proof.Machine
end

section
/-! SUPPORT. What GETNMI reads, and the bus commands from the accepting step to their end (41_bus_engine.md R120 to
R135). -/

namespace Sys2Proof.Machine

variable {s : State} {sp : Space}

/-! ### GETNMI -/

/-- The fields of STATUS (R22): each stands in its own bits. -/
theorem statusByte_fields (s : State) :
    (statusByte s).getLsbD 0 = s.busy ∧ (statusByte s).getLsbD 1 = s.err ∧
      (statusByte s).extractLsb' 2 3 = s.errCode ∧ (statusByte s).getLsbD 5 = s.nmi ∧
      (statusByte s).extractLsb' 6 2 = 0 := by
  unfold statusByte
  rw [BitVec.cast_eq]
  refine ⟨?_, ?_, ?_, ?_, ?_⟩
  · rw [BitVec.getLsbD_append]
    simp
  · rw [BitVec.getLsbD_append, BitVec.getLsbD_append]
    simp
  · iterate 2 rw [BitVec.extractLsb'_append_eq_of_le (by decide)]
    exact BitVec.extractLsb'_append_eq_right
  · iterate 4 rw [BitVec.getLsbD_append]
    simp
  · iterate 4 rw [BitVec.extractLsb'_append_eq_of_le (by decide)]
    exact BitVec.extractLsb'_eq_self

/-- Settles O13: STATUS is no result, so the read returns its byte whatever BUSY is. -/
theorem getNmiReadsStatus : Obligations.GetNmiReadsStatus := fun s =>
  ⟨statusByte s, congrArg Host.Outcome.next (hostRead_plain offStatus s (.inr rfl)), statusByte_fields s⟩

/-! ### Accepting a bus command -/

theorem encodeCmd_busWr (sp : Space) : encodeCmd (.busWr sp) = if sp = .io then 0x11 else 0x01 := by
  cases sp <;> rfl

theorem encodeCmd_busRd (sp : Space) : encodeCmd (.busRd sp) = if sp = .io then 0x12 else 0x02 := by
  cases sp <;> rfl

/-- The accepting host step of a bus command (R102, R104). -/
theorem issue_startBus (v : Byte) (d : Dir) (sp : Space) (hb : s.busy = false) :
    issue v noCheck (startBus d sp) s = .next { s with
      cmd := v, busy := true, seq := .bte d sp .b1, hist := s.hist ++ [.hostWrite 0x0000 v] } :=
  issue_accepted v noCheck (startBus d sp) s hb rfl

/-! ### From B1 to the end of the command -/

/-- R122 from end to end; HOLD is 0 before and after. -/
theorem run_busWrite {k : Nat} (hk : s.cfg.writeHold = k) (hok : s.cfg.ok = true) (hh : s.hold = 0)
    (hs : s.seq = .bte .write sp .b1) :
    runTurns (List.replicate (9 + k) .seq) s = .next { s with
      busy := false
      seq := .idle
      pins := idlePins s.cfg s.wdata s.addr
      hist := s.hist ++ [.bus .write sp s.addr s.wdata] } := by
  rw [show 9 + k = 6 + (k + 3) by omega]
  refine Eq.trans (runSeq_add 6 _ (run_b1_b6_write sp hs hok)) ?_
  refine Eq.trans (runSeq_add k 3 (run_hold .write sp k rfl hk hok hh)) ?_
  refine Eq.trans (run_b9_write sp rfl hok) ?_
  rw [hh]
  rfl

/-- R123 from end to end, given what XBUS answers. -/
theorem run_busRead {v : Byte} {x : Responder} {d k : Nat} (hk : s.cfg.readHold = k) (hok : s.cfg.ok = true)
    (hh : s.hold = 0) (hs : s.seq = .bte .read sp .b1) (hx : sample sp s = (v, { s with xbus := x, draws := d })) :
    runTurns (List.replicate (10 + k) .seq) s = .next { s with
      busy := false
      seq := .idle
      rdata := v
      xbus := x
      draws := d + 1
      pins := idlePins s.cfg (Config.freeByte d 0) s.addr
      hist := s.hist ++ [.bus .read sp s.addr v] } := by
  rw [show 10 + k = 6 + (k + 4) by omega]
  refine Eq.trans (runSeq_add 6 _ (run_b1_b6_read sp hs hok)) ?_
  refine Eq.trans (runSeq_add k 4 (run_hold .read sp k rfl hk hok hh)) ?_
  refine Eq.trans (run_bte 3 rfl hok) ?_
  simp only [afterHold, bteStep, sample_with, hx]
  refine Eq.trans (run_b9_read sp rfl hok) ?_
  rw [hh]
  rfl

/-- Settles O18: the accepting step sets up B1, and the phases from B1 on are one run. -/
theorem busWriteRuns : Obligations.BusWriteRuns := by
  intro s sp hok hb hh
  refine ⟨_, ?_, rfl, run_busWrite rfl hok hh rfl⟩
  rw [exec_busWr, issue_startBus _ _ _ hb, encodeCmd_busWr]

/-- An answer that leaves the responder as it is. -/
theorem sample_keeps {v : Byte} {x : Responder} {d : Nat} (hx : s.xbus = x)
    (h : sample sp s = (v, { s with draws := d })) : sample sp s = (v, { s with xbus := x, draws := d }) := by
  subst hx
  exact h

/-- Settles O19: the run of a read takes XBUS's answer as given, and there are four cases of it; the host's write of CMD
is no bus event, so the echo device looks past it. -/
theorem busReadRuns : Obligations.BusReadRuns := by
  intro s sp hok hb hh
  refine ⟨_, ?_, rfl, fun v rest hx => ?_, fun hx => ?_, fun v older newer hx hv hlast => ?_, fun hx hnone => ?_⟩
  · rw [exec_busRd, issue_startBus _ _ _ hb, encodeCmd_busRd]
  · exact run_busRead rfl hok hh rfl (sample_answer sp hx)
  · exact run_busRead rfl hok hh rfl (sample_keeps hx (sample_free sp hx))
  · refine run_busRead rfl hok hh rfl (sample_keeps hx (sample_echo sp hx ?_))
    rw [lastWrite_append_host, hv, lastWrite_latest sp _ v hlast]
  · refine run_busRead rfl hok hh rfl (sample_keeps hx (sample_echo_free sp hx ?_))
    rw [lastWrite_append_host, lastWrite_none hnone]

/-- Settles O24: BUS_WR leaves its event last in HIST, so it is the one the echo device answers BUS_RD with. -/
theorem echoRoundTrip : Obligations.EchoRoundTrip := by
  intro s sp w hok hb hh hx
  obtain ⟨t, hwr, rfl, hwrRun⟩ := busWriteRuns s sp hok hb hh
  obtain ⟨t', hrd, rfl, -, -, hecho, -⟩ := busReadRuns
    { s with
      cmd := if sp = .io then 0x11 else 0x01
      busy := false
      seq := .idle
      wdata := w
      pins := idlePins s.cfg s.wdata s.addr
      hist := s.hist ++ [.hostWrite 0x0000 (if sp = .io then 0x11 else 0x01)] ++ [.bus .write sp s.addr s.wdata] }
    sp hok rfl hh
  have hrdRun := hecho s.wdata _ [] hx rfl fun _ => List.not_mem_nil
  exact ⟨_, _, _, _, hwr, hwrRun, hrd, hrdRun, rfl, rfl⟩

end Sys2Proof.Machine
end

section
/-! SUPPORT. The pins of a bus transaction clock by clock and phase by phase (41_bus_engine.md R121, R136). -/

namespace Sys2Proof.Machine

variable {s u : State} {sp : Space} {k : Nat}

/-! ### Both traces of a run at once -/

/-- `k` sequencer steps show the pin configurations `l`, each for its number of clocks: clock by clock in `pinTrace`,
once each in `busTrace`. -/
def Shows (k : Nat) (s : State) (l : List (Nat × Pins)) : Prop :=
  pinTrace (List.replicate k .seq) s = l.flatMap (fun c => List.replicate c.1 c.2) ∧
    (busTrace (List.replicate k .seq) s).states = l.map (fun c => pinState c.2)

namespace Shows

variable {l : List (Nat × Pins)} {d : Dir} {ph : BtePhase}

theorem nil : Shows 0 s [] := ⟨rfl, rfl⟩

/-- A phase other than B7 is one clock. -/
theorem phase {p : Pins} (hs : s.seq = .bte d sp ph) (hph : ph ≠ .b7) (hok : s.cfg.ok = true)
    (hp : (bteStep d sp ph s).pins = p) (hrest : Shows k (bteStep d sp ph s) l) : Shows (k + 1) s ((1, p) :: l) := by
  obtain ⟨hpins, hstates⟩ := hrest
  have hstart : startsPhase s = true := by simp [startsPhase, hs, hph]
  refine ⟨?_, ?_⟩
  · rw [pinTrace_bte k hs hok, hp, hpins]
    rfl
  · rw [busTrace_bte k hs hok, if_pos hstart, hp, hstates]
    rfl

/-- B7 is one phase of as many clocks as the hold count. -/
theorem hold {n : Nat} (hs : s.seq = .bte d sp .b7) (hok : s.cfg.ok = true) (hh : s.hold = 0)
    (hn : holdCycles s.cfg d = n) (hrest : Shows k { s with hold := n, seq := .bte d sp (afterHold d) } l) :
    Shows (n + k) s ((n, s.pins) :: l) := by
  obtain ⟨hpins, hstates⟩ := hrest
  have hpos := holds_pos hok d
  obtain ⟨m, rfl⟩ : ∃ m, n = m + 1 := ⟨n - 1, by omega⟩
  refine ⟨?_, ?_⟩
  · rw [pinTrace_b7 d sp k m s hs hok (by omega), hn, hpins]
    rfl
  · rw [busTrace_b7 k m hs hok hh hn, hstates]
    rfl

end Shows

/-! ### The transactions -/

/-- The write column of R121. After each phase the state is written as one update of `s` again, so that the next phase's
pins are read off it. -/
theorem busWrite_shows (hok : s.cfg.ok = true) (hh : s.hold = 0) (hs : s.seq = .bte .write sp .b1) :
    Shows (9 + s.cfg.writeHold) s
      [(1, { s.pins with rd := false, wr := false }),
       (1, ⟨false, false, (selOf sp).1, (selOf sp).2, true, s.pins.ddir, s.pins.dout, s.pins.ah, s.pins.al⟩),
       (1, ⟨false, false, (selOf sp).1, (selOf sp).2, true, true, s.wdata, s.pins.ah, s.pins.al⟩),
       (1, ⟨false, false, (selOf sp).1, (selOf sp).2, true, true, s.wdata, hiByte s.addr, loByte s.addr⟩),
       (1, ⟨false, false, (selOf sp).1, (selOf sp).2, false, true, s.wdata, hiByte s.addr, loByte s.addr⟩),
       (1, ⟨false, true, (selOf sp).1, (selOf sp).2, false, true, s.wdata, hiByte s.addr, loByte s.addr⟩),
       (s.cfg.writeHold, ⟨false, true, (selOf sp).1, (selOf sp).2, false, true, s.wdata, hiByte s.addr, loByte s.addr⟩),
       (1, ⟨false, false, (selOf sp).1, (selOf sp).2, false, true, s.wdata, hiByte s.addr, loByte s.addr⟩),
       (1, idlePins s.cfg s.wdata s.addr),
       (1, idlePins s.cfg s.wdata s.addr)] := by
  rw [show 9 + s.cfg.writeHold = s.cfg.writeHold + 3 + 1 + 1 + 1 + 1 + 1 + 1 by omega]
  refine .phase hs nofun hok rfl ?_
  iterate 5
    dsimp only [bteStep]
    refine .phase rfl nofun hok rfl ?_
  dsimp only [bteStep]
  refine .hold rfl hok hh rfl ?_
  dsimp only [afterHold]
  iterate 2
    refine .phase rfl nofun hok rfl ?_
    dsimp only [bteStep]
  exact .phase rfl nofun hok rfl .nil

/-- B8 to B9c of a read: the byte XBUS answers moves no pin, and DOUT is driven with any value at the end (R127). -/
theorem busRead_end_shows (hok : s.cfg.ok = true) (hs : s.seq = .bte .read sp .b8) : ∃ v, Shows 4 s
    [(1, s.pins),
     (1, { s.pins with rd := false, wr := false }),
     (1, { s.pins with rd := false, wr := false, selm := s.cfg.selIdle.1, seli := s.cfg.selIdle.2 }),
     (1, { s.pins with
       rd := false, wr := false, selm := s.cfg.selIdle.1, seli := s.cfg.selIdle.2, ddir := true, dout := v })] := by
  obtain ⟨r, x, n, l, e⟩ := bteStep_b8_eq .read sp s
  refine ⟨Config.freeByte n 0, .phase hs nofun hok (by rw [e]) ?_⟩
  rw [e]
  iterate 2
    refine .phase rfl nofun hok rfl ?_
    dsimp only [bteStep]
  exact .phase rfl nofun hok rfl .nil

/-- The read column of R121. -/
theorem busRead_shows (hok : s.cfg.ok = true) (hh : s.hold = 0) (hs : s.seq = .bte .read sp .b1) : ∃ v,
    Shows (10 + s.cfg.readHold) s
      [(1, { s.pins with rd := false, wr := false }),
       (1, ⟨false, false, (selOf sp).1, (selOf sp).2, true, s.pins.ddir, s.pins.dout, s.pins.ah, s.pins.al⟩),
       (1, ⟨false, false, (selOf sp).1, (selOf sp).2, true, false, s.pins.dout, s.pins.ah, s.pins.al⟩),
       (1, ⟨false, false, (selOf sp).1, (selOf sp).2, true, false, s.pins.dout, hiByte s.addr, loByte s.addr⟩),
       (1, ⟨false, false, (selOf sp).1, (selOf sp).2, false, false, s.pins.dout, hiByte s.addr, loByte s.addr⟩),
       (1, ⟨true, false, (selOf sp).1, (selOf sp).2, false, false, s.pins.dout, hiByte s.addr, loByte s.addr⟩),
       (s.cfg.readHold,
        ⟨true, false, (selOf sp).1, (selOf sp).2, false, false, s.pins.dout, hiByte s.addr, loByte s.addr⟩),
       (1, ⟨true, false, (selOf sp).1, (selOf sp).2, false, false, s.pins.dout, hiByte s.addr, loByte s.addr⟩),
       (1, ⟨false, false, (selOf sp).1, (selOf sp).2, false, false, s.pins.dout, hiByte s.addr, loByte s.addr⟩),
       (1, ⟨false, false, s.cfg.selIdle.1, s.cfg.selIdle.2, false, false, s.pins.dout, hiByte s.addr, loByte s.addr⟩),
       (1, idlePins s.cfg v s.addr)] := by
  rw [show 10 + s.cfg.readHold = s.cfg.readHold + 4 + 1 + 1 + 1 + 1 + 1 + 1 by omega]
  obtain ⟨v, hend⟩ := busRead_end_shows (s := { s with
    pins := ⟨true, false, (selOf sp).1, (selOf sp).2, false, false, s.pins.dout, hiByte s.addr, loByte s.addr⟩
    hold := s.cfg.readHold
    seq := .bte .read sp .b8 }) hok rfl
  refine ⟨v, .phase hs nofun hok rfl ?_⟩
  iterate 5
    dsimp only [bteStep]
    refine .phase rfl nofun hok rfl ?_
  exact .hold rfl hok hh rfl hend

/-! ### The events -/

theorem runTurns_cons_next {t : Turn} {ts : List Turn} (h : runTurns (t :: ts) s = .next u) :
    ∃ v, step (agentTurn t s) = .next v ∧ runTurns ts v = .next u := by
  unfold runTurns at h
  split at h
  · exact ⟨_, ‹_›, h⟩
  · cases h
  · cases h

/-- A run appends to HIST, and its trace lists the BusEvents among what it appends (R133, R136). -/
theorem busTrace_events : ∀ {ts : List Turn} {s : State}, runTurns ts s = .next u →
    ∃ l, u.hist = s.hist ++ l ∧ (busTrace ts s).events = l.filter isBusEvent
  | [], s, h => by
    cases h
    exact ⟨[], (List.append_nil _).symm, rfl⟩
  | t :: ts, s, h => by
    obtain ⟨v, hstep, hrun⟩ := runTurns_cons_next h
    obtain ⟨⟨l, hl⟩, -, -⟩ := recordsOnlyGrow _ _ hstep
    obtain ⟨l', hl', hev⟩ := busTrace_events hrun
    have hl : s.hist ++ l = v.hist := hl
    refine ⟨l ++ l', by rw [hl', ← hl, List.append_assoc], ?_⟩
    simp only [busTrace, hstep, hev, ← hl, List.drop_left, List.filter_append]

/-- The observable trace of a run whose pin states are shown and whose one BusEvent is known. -/
theorem Shows.busTrace_eq {l : List (Nat × Pins)} {e : Event} (h : Shows k s l)
    (hrun : runTurns (List.replicate k .seq) s = .next u) (hu : u.hist = s.hist ++ [e]) (he : isBusEvent e = true) :
    busTrace (List.replicate k .seq) s = ⟨l.map (fun c => pinState c.2), [e]⟩ := by
  obtain ⟨l', hl', hev⟩ := busTrace_events hrun
  obtain rfl := List.append_cancel_left (hl'.symm.trans hu)
  rw [List.filter_singleton, he] at hev
  exact congrArg₂ BusTrace.mk h.2 hev

/-! ### Clock by clock, and phase by phase -/

/-- Settles O20: the write column, B7 once per hold clock. -/
theorem busWriteTrace : Obligations.BusWriteTrace := by
  intro s sp hok hh hs
  refine (busWrite_shows hok hh hs).1.trans ?_
  cases sp <;> rfl

/-- Settles O21: the read column, B7 once per hold clock. -/
theorem busReadTrace : Obligations.BusReadTrace := by
  intro s sp hok hh hs
  obtain ⟨v, h⟩ := busRead_shows hok hh hs
  refine ⟨v, h.1.trans ?_⟩
  cases sp <;> rfl

/-- Settles O22: the write column, each phase once; the run appends its one event to HIST. -/
theorem busWriteObservable : Obligations.BusWriteObservable := by
  intro s sp hok hh hs
  refine ((busWrite_shows hok hh hs).busTrace_eq (run_busWrite rfl hok hh hs) rfl rfl).trans ?_
  cases sp <;> rfl

/-- Settles O23: the read column, each phase once; the event's byte and RDATA are what XBUS answered. -/
theorem busReadObservable : Obligations.BusReadObservable := by
  intro s sp hok hh hs
  obtain ⟨v, h⟩ := busRead_shows hok hh hs
  obtain ⟨x, d, hx⟩ := sample_snd sp s
  have hrun := run_busRead rfl hok hh hs (Prod.ext rfl hx)
  refine ⟨v, _, hrun, (h.busTrace_eq hrun rfl rfl).trans ?_⟩
  cases sp <;> rfl

end Sys2Proof.Machine
end

section
/-! SUPPORT. What the invariant says of the bus pins and of the block between commands, and what each unit may write. -/

namespace Sys2Proof.Machine

variable {s t : State}

/-! ### The bus pins under the invariant -/

/-- The strobe is asserted only while the address and the space are on the pins (R121, R126). -/
theorem addressOn_spaceOn_of_strobeOn {ph : BtePhase} (h : strobeOn ph = true) :
    addressOn ph = true ∧ spaceOn ph = true := by
  cases ph <;> simp_all [strobeOn, addressOn, spaceOn]

theorem strobeOn_iff {ph : BtePhase} : strobeOn ph = true ↔ ph = .b7 ∨ ph = .b8 ∨ ph = .b9a := by
  cases ph <;> simp [strobeOn]

theorem auxOn_iff {ph : BtePhase} : auxOn ph = true ↔ ph = .b3 ∨ ph = .b4 ∨ ph = .b5 := by
  cases ph <;> simp [auxOn]

theorem selOf_eq (sp : Space) : selOf sp = (decide (sp = .memory), decide (sp = .io)) := by cases sp <;> rfl

/-- Settles O56: under the invariant the pins are those of the phase, and the table of R121 is read off per phase. -/
theorem strobesFollowPhases : Obligations.StrobesFollowPhases := by
  intro s h
  obtain ⟨hc, haddr⟩ := h.pins
  cases hs : s.seq with
  | bte d sp ph =>
    rw [hs] at hc
    simp only [controlOf, expectedControl, Control.mk.injEq, selOf_eq] at hc
    obtain ⟨hrd, hwr, hselm, hseli, haux, -⟩ := hc
    refine ⟨?_, fun hstrobe => ?_, ?_⟩
    · rw [hrd, hwr]
      cases d <;> simp
    · have hon : strobeOn ph = true := by
        rw [hrd, hwr, Bool.and_eq_true, Bool.and_eq_true] at hstrobe
        exact hstrobe.elim And.right And.right
      obtain ⟨hao, hso⟩ := addressOn_spaceOn_of_strobeOn hon
      obtain ⟨hah, hal⟩ := haddr d sp ph hs hao
      rw [hon, Bool.and_true] at hrd hwr
      rw [if_pos hso] at hselm hseli
      exact ⟨d, sp, ph, rfl, strobeOn_iff.1 hon, hrd, hwr, hah, hal, hselm, hseli⟩
    · rw [haux, auxOn_iff]
      simp
  | idle | nvc | frs =>
    rw [hs] at hc
    simp only [controlOf, expectedControl, Control.mk.injEq] at hc
    obtain ⟨hrd, hwr, -, -, haux, -⟩ := hc
    simp [hrd, hwr, haux]

/-- Settles O57: with no unit active, each unit's part of the invariant is that it is at rest. -/
theorem idleBetweenCommands : Obligations.IdleBetweenCommands := by
  intro s h
  have hiff : s.busy = false ↔ s.seq = .idle := by
    have hbusy : s.busy = true ↔ unitOf s.seq ≠ .none := h.busy
    rw [← unitOf_eq_none, ← Bool.not_eq_true, hbusy, not_not]
  refine ⟨hiff, fun hb => ?_⟩
  have hidle : unitOf s.seq = .none := unitOf_eq_none.2 (hiff.1 hb)
  have hpins := (pinsInv_iff_of_not_bte (by simp [hidle])).1 h.pins
  have hlink := (linkInv_iff_of_not_nvc (by simp [hidle])).1 h.link
  obtain ⟨hen, hflash, -, -⟩ := (flashInv_iff_of_not_frs (by simp [hidle])).1 h.flash
  exact ⟨hpins, hlink, hen, hflash⟩

/-! ### What each unit may write -/

/-- What a step of an NVM command may change (R175). -/
theorem nvcStep_frame {cap : Capture} {ph : NvcPhase} (h : nvcStep cap ph s = .next t) : ∃ b a fs x n l c r m f ev k,
    t = { s with
      busy := b, seq := a, frames := fs, rx := x, bidx := n, link := l, chip := c, rdata := r, nbuf := m, faults := f
      hist := ev, draws := k } := by
  obtain ⟨-, rfl⟩ | ⟨f, rest, -, -, ⟨-, rfl⟩ | ⟨-, rfl⟩ | ⟨-, rfl⟩ | ⟨-, rfl⟩⟩ := nvcStep_cases h
  · exact ⟨_, _, _, _, _, _, _, _, _, _, _, _, rfl⟩
  · simp only [chipSelect, faultIf_eq]
    exact ⟨_, _, _, _, _, _, _, _, _, _, _, _, rfl⟩
  · obtain ⟨v, d, e⟩ := exchange_frame cap f s
    exact ⟨_, _, _, _, _, _, _, _, _, _, _, _, e⟩
  · obtain ⟨l, c, r, k, ⟨-, e⟩ | ⟨-, e⟩, -⟩ := finishFrame_cases cap f rest s
    all_goals exact ⟨_, _, _, _, _, _, _, _, _, _, _, _, e⟩
  · exact ⟨_, _, _, _, _, _, _, _, _, _, _, _, rfl⟩

/-- Settles O54: each unit's step is an update of the fields its rule lists. -/
theorem unitsAreSeparate : Obligations.UnitsAreSeparate := by
  intro s t hok hstep
  rw [step_seq s hok] at hstep
  cases hs : s.seq with
  | idle =>
    rw [seqStep, hs] at hstep
    cases hstep
    exact ⟨nofun, nofun, nofun, fun _ => rfl⟩
  | bte d sp ph =>
    rw [seqStep_bte hs] at hstep
    cases hstep
    obtain ⟨_, _, _, _, _, _, _, _, e⟩ := bteStep_frame d sp ph s
    exact ⟨fun _ => by rw [e], nofun, nofun, nofun⟩
  | nvc cap ph =>
    obtain ⟨_, _, _, _, _, _, _, _, _, _, _, _, rfl⟩ := nvcStep_frame (seqStep_nvc hs ▸ hstep)
    exact ⟨nofun, fun _ => rfl, nofun, nofun⟩
  | frs ph =>
    rw [seqStep_frs hs] at hstep
    cases hstep
    obtain ⟨_, _, _, _, _, _, _, _, _, _, _, _, e⟩ := frsStep_frame ph s
    exact ⟨nofun, nofun, fun _ => by rw [e], nofun⟩

end Sys2Proof.Machine
end

section
/-! SUPPORT. What the accepting step of an NVM command comes to (42_nvm_controller.md R164 to R170, R174), the wrappers'
no-op, and the NVMCHIP agent's step. -/

namespace Sys2Proof.Machine

variable {s : State} {cap : Capture}

/-! ### Accepting an NVM command -/

/-- An NVM command accepted with its CMD byte and its frames (R104), MF_NVM_RANGE recorded where its operand is outside
(R174). -/
def nvmAccepted (v : Byte) (cap : Capture) (fs : List (List Byte)) (outside : Bool) (s : State) : State :=
  { s with
    cmd := v
    busy := true
    seq := .nvc cap .cs
    frames := fs
    faults := if outside then withFault .nvmRange s.faults else s.faults
    hist := s.hist ++ [.hostWrite 0x0000 v] }

/-- Each NVM command's accepting step, by what the command starts. -/
theorem issue_startNvc {v : Byte} {start : State → State} {fs : List (List Byte)} {c : Bool} (hb : s.busy = false)
    (hstart : start { record (.hostWrite offCmd v) s with cmd := v, busy := true } =
      startNvc cap fs (faultIf c .nvmRange { record (.hostWrite offCmd v) s with cmd := v, busy := true })) :
    issue v noCheck start s = .next (nvmAccepted v cap fs c s) := by
  rw [issue_accepted v noCheck start s hb rfl, hstart, faultIf_eq]
  rfl

theorem wrPageFrame_eq (s : State) : wrPageFrame s =
    0x02 :: s.addr.extractLsb' 0 8 :: 0x00 :: (List.range 256).map fun k => s.nbuf.read k := by
  simp only [wrPageFrame, Cells.readList, Nat.zero_add]
  rfl

theorem exec_nvmWren_idle (b : Bool) (hb : s.busy = false) :
    exec (.nvmWren b) s = .next (nvmAccepted (if b then 0x14 else 0x04) .discard [[0x06]] false s) := by
  rw [exec_nvmWren, issue_startNvc (start := startWren) (c := false) hb rfl]
  cases b <;> rfl

theorem exec_nvmWrByte_idle (b : Bool) (hb : s.busy = false) {c : Bool} (hc : byteOutside s = c) :
    exec (.nvmWrByte b) s = .next (nvmAccepted (if b then 0x15 else 0x05) .discard
      [[0x06], [0x02, s.addr.extractLsb' 8 8, s.addr.extractLsb' 0 8, s.wdata]] c s) := by
  subst hc
  rw [exec_nvmWrByte, issue_startNvc hb rfl]
  cases b <;> rfl

theorem exec_nvmRdByte_idle (b : Bool) (hb : s.busy = false) {c : Bool} (hc : byteOutside s = c) :
    exec (.nvmRdByte b) s = .next (nvmAccepted (if b then 0x16 else 0x06) .rdata
      [[0x03, s.addr.extractLsb' 8 8, s.addr.extractLsb' 0 8, s.cfg.nvmDummy]] c s) := by
  subst hc
  rw [exec_nvmRdByte, issue_startNvc hb rfl]
  cases b <;> rfl

theorem exec_nvmWrPage_idle (b : Bool) (hb : s.busy = false) {c : Bool} (hc : pageOutside s = c) :
    exec (.nvmWrPage b) s = .next (nvmAccepted (if b then 0x17 else 0x07) .discard [[0x06], wrPageFrame s] c s) := by
  subst hc
  rw [exec_nvmWrPage, issue_startNvc hb rfl]
  cases b <;> rfl

theorem exec_nvmRdPage_idle (b : Bool) (hb : s.busy = false) {c : Bool} (hc : pageOutside s = c) :
    exec (.nvmRdPage b) s = .next (nvmAccepted (if b then 0x18 else 0x08) .nbuf [rdPageFrame s] c s) := by
  subst hc
  rw [exec_nvmRdPage, issue_startNvc hb rfl]
  cases b <;> rfl

/-- STO_WRITE in range is NVM_WRPAGE of the same page (R169). -/
theorem exec_stoWrite_inRange (b : Bool) (hb : s.busy = false) (hin : inStorage s = true) {c : Bool}
    (hc : pageOutside s = c) :
    exec (.stoWrite b) s = .next (nvmAccepted (if b then 0x19 else 0x09) .discard [[0x06], wrPageFrame s] c s) := by
  subst hc
  rw [exec_stoWrite, issue_startNvc (start := startStoWrite) hb (if_pos hin)]
  cases b <;> rfl

/-- STO_READ in range is NVM_RDPAGE of the same page (R170). -/
theorem exec_stoRead_inRange (b : Bool) (hb : s.busy = false) (hin : inStorage s = true) {c : Bool}
    (hc : pageOutside s = c) :
    exec (.stoRead b) s = .next (nvmAccepted (if b then 0x1A else 0x0A) .nbuf [rdPageFrame s] c s) := by
  subst hc
  rw [exec_stoRead, issue_startNvc (start := startStoRead) hb (if_pos hin)]
  cases b <;> rfl

/-- Settles O31: the accepting step of each raw command with its range condition true. -/
theorem rawCommandsOutsideChip : Obligations.RawCommandsOutsideChip := by
  intro s b hb
  refine ⟨fun ho => ?_, fun ho => ?_⟩
  · have hc := (byteOutside_iff s).2 ho
    exact ⟨exec_nvmWrByte_idle b hb hc, exec_nvmRdByte_idle b hb hc⟩
  · have hc := (pageOutside_iff s).2 ho
    exact ⟨wrPageFrame_eq s ▸ exec_nvmWrPage_idle b hb hc, exec_nvmRdPage_idle b hb hc⟩

/-- The wrappers' no-op (R169, R170): the accepting step and the one sequencer step after it, in a block at rest. -/
theorem startNoop_run {v : Byte} {start : State → State} (hok : s.cfg.ok = true) (hb : s.busy = false)
    (hf : s.frames = []) (hrx : s.rx = []) (hbidx : s.bidx = 0)
    (hstart : start { record (.hostWrite offCmd v) s with cmd := v, busy := true } =
      startNoop { record (.hostWrite offCmd v) s with cmd := v, busy := true }) :
    ∃ t, issue v noCheck start s = .next t ∧ t.busy = true ∧
      step (agentTurn .seq t) = .next { s with cmd := v, seq := .idle, hist := s.hist ++ [.hostWrite 0x0000 v] } := by
  refine ⟨_, issue_accepted v noCheck start s hb rfl, ?_⟩
  rw [hstart]
  refine ⟨rfl, Eq.trans (step_seq _ (by exact hok)) ?_⟩
  -- at rest BUSY, FRAMES and BIDX already hold what the command's end writes
  obtain ⟨⟩ := s
  cases hb
  cases hf
  cases hrx
  cases hbidx
  rfl

/-- Settles O30: out of range the wrappers start the phase that has no frame, and its step ends the command. -/
theorem storageOutOfRangeIsNoOp : Obligations.StorageOutOfRangeIsNoOp := by
  intro s b i c hok hb hf hrx hbidx hout hi
  have hin : ¬inStorage s = true := by
    rw [inStorage_iff]
    omega
  obtain ⟨rfl, rfl⟩ | ⟨rfl, rfl⟩ := hi
  · rw [exec_stoWrite]
    cases b <;> exact startNoop_run hok hb hf hrx hbidx (if_neg hin)
  · rw [exec_stoRead]
    cases b <;> exact startNoop_run hok hb hf hrx hbidx (if_neg hin)

/-- Settles O34: the NVMCHIP agent's step is this update. -/
theorem chipCycleEnds : Obligations.ChipCycleEnds := step_nvmChip

end Sys2Proof.Machine
end

section
/-! SUPPORT. The frames of an NVM command (42_nvm_controller.md R162, R171, R184, R187, R188): the faults of its
start, and what its bytes come to. -/

namespace Sys2Proof.Machine

variable {s : State} {t : List Byte} {rest : List (List Byte)} {cap : Capture}

/-! ### The start of a frame -/

/-- R188's condition on the frame as sent, its three header bytes included. -/
theorem frameTooLong_iff {c : Config} : frameTooLong c t = true ↔
    t.head? = some 0x02 ∧ 0 < c.nvmChipPage ∧ c.nvmChipPage < 256 ∧ c.nvmChipPage + 3 < t.length := by
  have hop : isWriteFrame t = true ↔ t.head? = some 0x02 := by cases t <;> simp [isWriteFrame]
  have hlen : c.nvmChipPage < (frameData t).length ↔ c.nvmChipPage + 3 < t.length := by
    rw [frameData, List.length_drop]
    omega
  simp only [frameTooLong, Bool.and_eq_true, decide_eq_true_eq, hop, hlen, and_assoc]

theorem mem_faultIf_faults {f g : ModelFault} {c : Bool} :
    g ∈ (faultIf c f s).faults ↔ g ∈ s.faults ∨ (g = f ∧ c = true) := by
  rw [faultIf_eq]
  cases c <;> simp [mem_withFault]

/-- Settles O33: the step N_CS records each fault under its own condition. -/
theorem frameStartFaults : Obligations.FrameStartFaults := by
  intro s cap t rest hok hs hf hw
  refine ⟨_, (step_seq s hok).trans ((seqStep_nvc hs).trans (nvcStep_cs hf hw)), ?_⟩
  simp only [chipSelect, faultIf_seq, faultIf_link, faultIf_chip, mem_faultIf_faults, frameTooLong_iff,
    Bool.and_eq_true, or_assoc, and_self, implies_true]

/-! ### The bytes of a frame -/

/-- The state after N_CS with the chip ready (R162). -/
def frameSelected (cap : Capture) (s : State) : State :=
  { s with
    link := { s.link with cs := true }
    rx := []
    chip := { s.chip with garbled := false }
    seq := .nvc cap .x }

theorem run_frameSelected (k : Nat) (hs : s.seq = .nvc cap .cs) (hok : s.cfg.ok = true) (hf : s.frames = t :: rest)
    (hw : wireFrameOk t = true) (hready : chipReady s) (hl : frameTooLong s.cfg t = false) :
    runTurns (List.replicate (k + 1) .seq) s = runTurns (List.replicate k .seq) (frameSelected cap s) :=
  run_nvc k hs hok ((nvcStep_cs hf hw).trans (congrArg _ (chipSelect_ready hready hl)))

/-- A frame that is no read frame, from N_CS to N_DS: every response is a free value (R171). -/
theorem run_sentFrame (hs : s.seq = .nvc cap .cs) (hok : s.cfg.ok = true) (hf : s.frames = t :: rest)
    (hw : wireFrameOk t = true) (hready : chipReady s) (hl : frameTooLong s.cfg t = false) (hc : cap ≠ .nbuf)
    (hr : isReadFrame t = false) :
    ∃ r x, r.length = t.length ∧ r.getLast? = some x ∧
      runTurns (List.replicate (t.length + 1) .seq) s = .next { s with
        link := ⟨true, s.cfg.serIdleHigh, t.getD (t.length - 1) 0, x⟩
        bidx := t.length - 1
        rx := r
        draws := s.draws + t.length
        chip := { s.chip with garbled := false }
        seq := .nvc cap .ds } := by
  obtain ⟨k, hk⟩ := Nat.exists_eq_add_of_lt (wireFrameOk_pos hw)
  rw [Nat.zero_add] at hk
  obtain ⟨r, x, hlen, hlast, hrun⟩ := run_exchange_free hc hr hw k (frameSelected cap s) rfl hok hf
    (hk ▸ Nat.zero_add _)
  refine ⟨r, x, hk ▸ hlen, hlast, (run_frameSelected _ hs hok hf hw hready hl).trans ?_⟩
  rw [hk, hrun, hk]
  rfl

/-- A header byte (R183, R184): its response is a free value, and no capture takes it. -/
theorem run_headerByte (k : Nat) (hs : s.seq = .nvc cap .x) (hok : s.cfg.ok = true) (hf : s.frames = t :: rest)
    (hw : wireFrameOk t = true) (h3 : s.rx.length < 3) (hlen : 4 ≤ t.length) :
    runTurns (List.replicate (k + 1) .seq) s = runTurns (List.replicate k .seq) { s with
      link := { s.link with
        sck := s.cfg.serIdleHigh, mosi := t.getD s.rx.length 0, miso := Config.freeByte s.draws 0 }
      bidx := s.rx.length
      rx := s.rx ++ [Config.freeByte s.draws 0]
      draws := s.draws + 1
      seq := .nvc cap .x } := by
  rw [run_nvc k hs hok (nvcStep_x hf hw), exchange_free (.inr h3) (.inr h3), if_neg (by omega)]

/-- The state of a frame whose header has been exchanged. -/
def headerSent (cap : Capture) (t : List Byte) (s : State) : State :=
  { frameSelected cap s with
    link := ⟨true, s.cfg.serIdleHigh, t.getD 2 0, Config.freeByte (s.draws + 2) 0⟩
    bidx := 2
    rx := [Config.freeByte s.draws 0, Config.freeByte (s.draws + 1) 0, Config.freeByte (s.draws + 2) 0]
    draws := s.draws + 3 }

/-- N_CS and the header of a read frame. -/
theorem run_header (k : Nat) (hs : s.seq = .nvc cap .cs) (hok : s.cfg.ok = true) (hf : s.frames = t :: rest)
    (hw : wireFrameOk t = true) (hready : chipReady s) (hr : isReadFrame t = true) (hlen : 4 ≤ t.length) :
    runTurns (List.replicate (k + 4) .seq) s = runTurns (List.replicate k .seq) (headerSent cap t s) := by
  have hl : frameTooLong s.cfg t = false := by simp [frameTooLong, isWriteFrame_of_read hr]
  calc runTurns (List.replicate (k + 4) .seq) s
    _ = runTurns (List.replicate (k + 3) .seq) (frameSelected cap s) := run_frameSelected _ hs hok hf hw hready hl
    _ = _ := run_headerByte _ rfl hok hf hw (show 0 < 3 by decide) hlen
    _ = _ := run_headerByte _ rfl hok hf hw (show 1 < 3 by decide) hlen
    _ = _ := run_headerByte _ rfl hok hf hw (show 2 < 3 by decide) hlen

/-- A read frame inside the chip, from N_CS to N_DS: after the header the responses are MEM's bytes (R184). -/
theorem run_readFrame (hs : s.seq = .nvc cap .cs) (hok : s.cfg.ok = true) (hf : s.frames = t :: rest)
    (hw : wireFrameOk t = true) (hready : chipReady s) (hr : isReadFrame t = true) (hlen : 4 ≤ t.length)
    (hin : frameAddr t + (t.length - 3) ≤ s.cfg.nvmCapacity) :
    let got := s.chip.mem.readList (frameAddr t) (t.length - 3)
    ∃ r0 r1 r2 n, (cap ≠ .nbuf → n = s.nbuf) ∧ (cap = .nbuf → n = s.nbuf.writeList 0 got) ∧
      runTurns (List.replicate (t.length + 1) .seq) s = .next { s with
        link := ⟨true, s.cfg.serIdleHigh, t.getD (t.length - 1) 0, s.chip.mem.read (frameAddr t + (t.length - 4))⟩
        bidx := t.length - 1
        rx := r0 :: r1 :: r2 :: got
        nbuf := n
        draws := s.draws + 3
        chip := { s.chip with garbled := false }
        seq := .nvc cap .ds } := by
  obtain ⟨k, hk⟩ := Nat.exists_eq_add_of_le' hlen
  obtain ⟨n, hkeep, hput, hrun⟩ := run_exchange_data hr hw k (headerSent cap t s) rfl hok hf
    (by rw [hk]; exact Nat.add_comm 3 (k + 1)) (Nat.le_refl 3) hin rfl
  have hgot : t.length - 3 = k + 1 := by omega
  rw [hgot]
  refine ⟨Config.freeByte s.draws 0, Config.freeByte (s.draws + 1) 0, Config.freeByte (s.draws + 2) 0, n, ?_⟩
  refine ⟨hkeep, hput, ?_⟩
  rw [show t.length + 1 = k + 1 + 4 by omega, run_header _ hs hok hf hw hready hr hlen, hrun]
  rfl

end Sys2Proof.Machine
end

section
/-! SUPPORT. The NVM commands from start to end (42_nvm_controller.md R164 to R168, R182 to R188). -/

namespace Sys2Proof.Machine

variable {s : State} {t : List Byte} {rest : List (List Byte)} {cap : Capture}

/-! ### The end of a frame -/

/-- The state in which the chip sees CS deasserted (R162, R166). -/
def frameDeselected (cap : Capture) (t : List Byte) (s : State) : State :=
  record (.frame t s.rx) { s with
    link := { s.link with cs := false }
    rdata := if cap = .rdata then s.rx.getD 3 0 else s.rdata }

/-- The last step of a command: N_DS of its last frame, given what the chip does. -/
theorem step_lastFrame {u : State} (hs : s.seq = .nvc cap .ds) (hok : s.cfg.ok = true) (hf : s.frames = [t])
    (hw : wireFrameOk t = true) (hu : chipDeselect t (frameDeselected cap t s) = u) :
    step (agentTurn .seq s) = .next (endNvc u) :=
  hu ▸ (step_seq s hok).trans ((seqStep_nvc hs).trans (nvcStep_ds hf hw))

theorem run_lastFrame {u : State} (hs : s.seq = .nvc cap .ds) (hok : s.cfg.ok = true) (hf : s.frames = [t])
    (hw : wireFrameOk t = true) (hu : chipDeselect t (frameDeselected cap t s) = u) :
    runTurns (List.replicate 1 .seq) s = .next (endNvc u) :=
  runTurns_cons [] (step_lastFrame hs hok hf hw hu)

/-- N_DS of a frame that another one follows, given what the chip does, and the gap. -/
theorem run_gap {u : State} {f : List Byte} {fs : List (List Byte)} (k : Nat) (hs : s.seq = .nvc cap .ds)
    (hok : s.cfg.ok = true) (hf : s.frames = t :: f :: fs) (hw : wireFrameOk t = true) (hw' : wireFrameOk f = true)
    (hu : chipDeselect t (frameDeselected cap t s) = u) (hcfg : u.cfg = s.cfg) :
    runTurns (List.replicate (k + 2) .seq) s = runTurns (List.replicate k .seq)
      { u with frames := f :: fs, rx := [], seq := .nvc cap .cs } := by
  subst hu
  exact (run_nvc (k + 1) hs hok (nvcStep_ds hf hw)).trans (run_nvc k rfl (hcfg ▸ hok) (nvcStep_gap rfl hw'))

theorem frameOutside_of_le {c : Config} (h : frameAddr t + (frameData t).length ≤ c.nvmCapacity) :
    frameOutside c t = false := by
  simp only [frameOutside, Bool.and_eq_false_iff, decide_eq_false_iff_not]
  omega

/-- The write-enable frame at its end (R182). -/
theorem chipDeselect_wren (hg : s.chip.garbled = false) :
    chipDeselect [0x06] s = { s with chip := { s.chip with wel := true } } := by
  have hout : frameOutside s.cfg [0x06] = false := rfl
  rw [chipDeselect, hg, hout]
  rfl

/-! ### NVM_WREN -/

/-- The write-enable frame's one byte, from N_CS to N_DS (R164). -/
theorem run_wrenFrame (hs : s.seq = .nvc .discard .cs) (hok : s.cfg.ok = true) (hf : s.frames = [0x06] :: rest)
    (hready : chipReady s) : ∃ r, runTurns (List.replicate 2 .seq) s = .next { s with
      link := ⟨true, s.cfg.serIdleHigh, 0x06, r⟩
      bidx := 0
      rx := [r]
      draws := s.draws + 1
      chip := { s.chip with garbled := false }
      seq := .nvc .discard .ds } := by
  obtain ⟨r, x, hlen, hlast, hrun⟩ := run_sentFrame hs hok hf rfl hready rfl (by decide) rfl
  obtain ⟨y, rfl⟩ := List.length_eq_one_iff.1 hlen
  cases hlast
  exact ⟨y, hrun⟩

/-- Settles O25: the one frame's three steps, and the chip sets WEL at its end (R182). -/
theorem nvmWriteEnableRuns : Obligations.NvmWriteEnableRuns := by
  intro s b hok hb hready
  refine ⟨_, exec_nvmWren_idle b hb, rfl, ?_⟩
  obtain ⟨r, hrun⟩ := run_wrenFrame (s := nvmAccepted (if b then 0x14 else 0x04) .discard [[0x06]] false s) rfl hok rfl
    hready
  exact ⟨r, (runSeq_add 2 1 hrun).trans (Eq.trans (run_lastFrame rfl hok rfl rfl (chipDeselect_wren rfl)) rfl)⟩

/-! ### The writes -/

/-- The state after the write-enable frame and its gap: WEL = 1, and the frames `fs` are left. -/
def writeEnabled (r : Byte) (fs : List (List Byte)) (s : State) : State :=
  { s with
    link := ⟨false, s.cfg.serIdleHigh, 0x06, r⟩
    bidx := 0
    rx := []
    draws := s.draws + 1
    chip := { s.chip with wel := true, garbled := false }
    frames := fs
    hist := s.hist ++ [.frame [0x06] [r]]
    seq := .nvc .discard .cs }

/-- The first four steps of a write command. -/
theorem run_writeEnabled (k : Nat) {f : List Byte} {fs : List (List Byte)} (hs : s.seq = .nvc .discard .cs)
    (hok : s.cfg.ok = true) (hf : s.frames = [0x06] :: f :: fs) (hw : wireFrameOk f = true) (hready : chipReady s) :
    ∃ r, runTurns (List.replicate (k + 4) .seq) s =
      runTurns (List.replicate k .seq) (writeEnabled r (f :: fs) s) := by
  obtain ⟨r, hrun⟩ := run_wrenFrame hs hok hf hready
  refine ⟨r, ?_⟩
  rw [show k + 4 = 2 + (k + 2) by omega, runSeq_add 2 _ hrun]
  exact Eq.trans (run_gap k rfl hok hf rfl hw (chipDeselect_wren rfl) rfl) rfl

/-- A write command inside the chip, from its accepting step to its end: the write frame's data are in MEM. -/
theorem run_write (v : Byte) (hok : s.cfg.ok = true) (hready : chipReady s) (hw : wireFrameOk t = true)
    (hwr : isWriteFrame t = true) (hl : frameTooLong s.cfg t = false)
    (hin : frameAddr t + (frameData t).length ≤ s.cfg.nvmCapacity) :
    let a := nvmAccepted v .discard [[0x06], t] false s
    ∃ r got x, got.length = t.length ∧ got.getLast? = some x ∧
      runTurns (List.replicate (t.length + 6) .seq) a = .next { a with
        busy := false
        seq := .idle
        frames := []
        rx := []
        bidx := 0
        link := ⟨false, s.cfg.serIdleHigh, t.getD (t.length - 1) 0, x⟩
        draws := s.draws + 1 + t.length
        chip := ⟨s.chip.mem.writeList (frameAddr t) (frameData t), false, s.cfg.nvmWriteCycle, false⟩
        hist := a.hist ++ [.frame [0x06] [r], .frame t got] } := by
  intro a
  obtain ⟨r, henable⟩ := run_writeEnabled (s := a) (t.length + 2) rfl hok rfl hw hready
  obtain ⟨got, x, hlen, hlast, hrun⟩ := run_sentFrame (s := writeEnabled r [t] a) rfl hok rfl hw hready hl (by decide)
    (isReadFrame_of_write hwr)
  refine ⟨r, got, x, hlen, hlast, henable.trans ?_⟩
  refine (runSeq_add (t.length + 1) 1 hrun).trans (Eq.trans (run_lastFrame rfl hok rfl hw
    (chipDeselect_write rfl (frameOutside_of_le hin) hwr rfl hl)) ?_)
  simp only [endNvc, endCommand, frameDeselected, record, writeEnabled, List.append_assoc]
  rfl

theorem frameAddr_halves (op : Byte) (a : Half) (l : List Byte) :
    frameAddr (op :: a.extractLsb' 8 8 :: a.extractLsb' 0 8 :: l) = a.toNat :=
  congrArg BitVec.toNat (pair_hi_lo a)

/-- The responses of a frame of four bytes. -/
theorem eq_four_of_length {got : List Byte} {x : Byte} (hlen : got.length = 4) (hlast : got.getLast? = some x) :
    ∃ r0 r1 r2, got = [r0, r1, r2, x] := by
  obtain ⟨r0, r1, r2, r3, rfl⟩ := List.length_eq_four.1 hlen
  cases hlast
  exact ⟨r0, r1, r2, rfl⟩

/-- The byte address of a byte command inside the chip raises no MF_NVM_RANGE (R174). -/
theorem byteOutside_of_lt (h : s.addr.toNat < s.cfg.nvmCapacity) : byteOutside s = false := by
  rw [← Bool.not_eq_true, byteOutside_iff]
  omega

/-- Nor does the page index of a page command inside the chip. -/
theorem pageOutside_of_lt (h : (s.addr.extractLsb' 0 8).toNat < s.cfg.nvmCapacity / 256) : pageOutside s = false := by
  rw [← Bool.not_eq_true, pageOutside_iff]
  omega

/-- Settles O26: the one data byte lands at ADDR, and no page is too small for it. -/
theorem nvmWriteByteRuns : Obligations.NvmWriteByteRuns := by
  intro s b hok hb hready hin hwf
  refine ⟨_, exec_nvmWrByte_idle b hb (byteOutside_of_lt hin), rfl, ?_⟩
  have haddr := frameAddr_halves 0x02 s.addr [s.wdata]
  obtain ⟨r, got, x, hlen, hlast, hrun⟩ := run_write (if b then 0x15 else 0x05) hok hready rfl rfl
    (frameTooLong_takes (0x02 :: s.addr.extractLsb' 8 8 :: s.addr.extractLsb' 0 8 :: [s.wdata]) (chipPageTakes_one _))
    (by rw [haddr]; exact hin)
  obtain ⟨r0, r1, r2, rfl⟩ := eq_four_of_length hlen hlast
  exact ⟨r, r0, r1, r2, x, _, hrun, fun a => haddr ▸ Cells.read_write s.chip.mem _ s.wdata a hwf⟩

theorem wrPageFrame_length (s : State) : (wrPageFrame s).length = 259 := by simp [wrPageFrame]

theorem frameData_wrPageFrame (s : State) : frameData (wrPageFrame s) = s.nbuf.readList 0 256 := rfl

/-- A page frame addresses the first byte of its page (R167, R168). -/
theorem frameAddr_page (op p : Byte) (l : List Byte) : frameAddr (op :: p :: 0x00 :: l) = p.toNat * 256 := by
  simp [frameAddr_cons]

/-- Settles O28: both commands are accepted with the same frames, and the data land from the page's first byte on. -/
theorem nvmWritePageRuns : Obligations.NvmWritePageRuns := by
  intro s b i c hok hb hready hfits hwf hpage hi page
  have hp : page = wrPageFrame s := (wrPageFrame_eq s).symm
  clear_value page
  subst hp
  have hexec : exec i s = .next (nvmAccepted c .discard [[0x06], wrPageFrame s] false s) := by
    obtain ⟨rfl, rfl⟩ | ⟨rfl, rfl, hin⟩ := hi
    · exact exec_nvmWrPage_idle b hb (pageOutside_of_lt hpage)
    · exact exec_stoWrite_inRange b hb ((inStorage_iff s).2 hin) (pageOutside_of_lt hpage)
  have haddr : frameAddr (wrPageFrame s) = (s.addr.extractLsb' 0 8).toNat * 256 := frameAddr_page _ _ _
  obtain ⟨hwire, -⟩ := sentFrame_wrPage s
  obtain ⟨r, got, x, hlen, -, hrun⟩ := run_write c hok hready hwire rfl (frameTooLong_fits _ hfits)
    (by rw [haddr, frameData_wrPageFrame, Cells.readList_length]; omega)
  rw [wrPageFrame_length] at hlen hrun
  refine ⟨_, hexec, rfl, _, _, [r], got, hrun, rfl, rfl, rfl, hlen, fun a => ?_⟩
  rw [haddr, frameData_wrPageFrame, Cells.read_writeList _ _ _ _ hwf, Cells.readList_length]
  split
  · rw [Cells.readList_getD _ _ _ _ (by omega), Nat.zero_add]
  · rfl

/-! ### The reads -/

/-- A read command inside the chip, from its accepting step to its end: the responses after the header are MEM's. -/
theorem run_read (v : Byte) (hok : s.cfg.ok = true) (hready : chipReady s) (hw : wireFrameOk t = true)
    (hr : isReadFrame t = true) (hlen : 4 ≤ t.length) (hin : frameAddr t + (t.length - 3) ≤ s.cfg.nvmCapacity) :
    let a := nvmAccepted v cap [t] false s
    let got := s.chip.mem.readList (frameAddr t) (t.length - 3)
    ∃ r0 r1 r2 n, (cap ≠ .nbuf → n = s.nbuf) ∧ (cap = .nbuf → n = s.nbuf.writeList 0 got) ∧
      runTurns (List.replicate (t.length + 2) .seq) a = .next { a with
        busy := false
        seq := .idle
        frames := []
        rx := []
        bidx := 0
        rdata := if cap = .rdata then s.chip.mem.read (frameAddr t) else s.rdata
        nbuf := n
        link := ⟨false, s.cfg.serIdleHigh, t.getD (t.length - 1) 0, s.chip.mem.read (frameAddr t + (t.length - 4))⟩
        draws := s.draws + 3
        chip := { s.chip with garbled := false }
        hist := a.hist ++ [.frame t (r0 :: r1 :: r2 :: got)] } := by
  intro a got
  obtain ⟨r0, r1, r2, n, hkeep, hput, hrun⟩ := run_readFrame (s := a) rfl hok rfl hw hready hr hlen hin
  have hout : frameOutside s.cfg t = false := frameOutside_of_le (by rwa [frameData, List.length_drop])
  have hfirst : got.getD 0 0 = s.chip.mem.read (frameAddr t) := Cells.readList_getD _ _ _ _ (by omega)
  refine ⟨r0, r1, r2, n, hkeep, hput, (runSeq_add (t.length + 1) 1 hrun).trans ?_⟩
  refine Eq.trans (run_lastFrame rfl hok rfl hw (chipDeselect_read rfl hout hr)) ?_
  rw [← hfirst]
  rfl

/-- Settles O27: the one response after the header is RDATA. -/
theorem nvmReadByteRuns : Obligations.NvmReadByteRuns := by
  intro s b hok hb hready hin
  refine ⟨_, exec_nvmRdByte_idle b hb (byteOutside_of_lt hin), rfl, ?_⟩
  have haddr := frameAddr_halves 0x03 s.addr [s.cfg.nvmDummy]
  obtain ⟨r0, r1, r2, n, hkeep, -, hrun⟩ := run_read (cap := .rdata) (if b then 0x16 else 0x06) hok hready
    (t := 0x03 :: s.addr.extractLsb' 8 8 :: s.addr.extractLsb' 0 8 :: [s.cfg.nvmDummy]) rfl rfl (Nat.le_refl 4)
    (by rw [haddr]; exact hin)
  obtain rfl := hkeep (by decide)
  rw [haddr] at hrun
  exact ⟨r0, r1, r2, hrun⟩

theorem rdPageFrame_length (s : State) : (rdPageFrame s).length = 259 := by
  rw [rdPageFrame, List.length_cons, List.length_cons, List.length_cons, List.length_replicate]

/-- Settles O29: both commands are accepted with the same frame, and NBUF takes the page's bytes in order. -/
theorem nvmReadPageRuns : Obligations.NvmReadPageRuns := by
  intro s b i c hok hb hready hwf hpage hi page
  have hp : page = rdPageFrame s := rfl
  clear_value page
  subst hp
  have hexec : exec i s = .next (nvmAccepted c .nbuf [rdPageFrame s] false s) := by
    obtain ⟨rfl, rfl⟩ | ⟨rfl, rfl, hin⟩ := hi
    · exact exec_nvmRdPage_idle b hb (pageOutside_of_lt hpage)
    · exact exec_stoRead_inRange b hb ((inStorage_iff s).2 hin) (pageOutside_of_lt hpage)
  have haddr : frameAddr (rdPageFrame s) = (s.addr.extractLsb' 0 8).toNat * 256 := frameAddr_page _ _ _
  obtain ⟨hwire, -⟩ := sentFrame_rdPage s
  obtain ⟨r0, r1, r2, n, -, hput, hrun⟩ := run_read (cap := .nbuf) c hok hready hwire rfl
    (by rw [rdPageFrame_length]; decide) (by rw [haddr, rdPageFrame_length]; omega)
  rw [rdPageFrame_length] at hput hrun
  refine ⟨_, hexec, rfl, _, n, _, hrun, rfl, rfl, ?_, fun k => ?_⟩
  · simp only [List.length_cons, Cells.readList_length]
  · rw [hput rfl, Cells.read_writeList _ _ _ _ hwf, Cells.readList_length]
    simp only [Nat.zero_le, true_and, Nat.zero_add]
    split
    · rw [haddr, Nat.sub_zero, Cells.readList_getD _ _ _ _ ‹_›]
    · rfl

end Sys2Proof.Machine
end

section
/-! SUPPORT. The chip's commit of a write frame, the storage round trip, and what the NVM controller never changes
(42_nvm_controller.md R175, R182 to R189). -/

namespace Sys2Proof.Machine

variable {s t : State}

/-- Settles O32: WEL decides whether the frame's data land, and it is 0 afterwards in either case. -/
theorem chipCommitsOnlyWhenEnabled : Obligations.ChipCommitsOnlyWhenEnabled := by
  intro s cap hi lo d ds hok hs hf hg hfits hshort hin hwf
  have haddr := frameAddr_cons 0x02 hi lo (d :: ds)
  have hout : frameOutside s.cfg (0x02 :: hi :: lo :: d :: ds) = false := frameOutside_of_le (by
    rw [haddr]
    exact hin)
  have hw : wireFrameOk (0x02 :: hi :: lo :: d :: ds) = true := by simp [wireFrameOk]
  cases hwel : s.chip.wel with
  | false =>
    refine ⟨_, step_lastFrame hs hok hf hw (chipDeselect_disabled hg hout rfl hwel), rfl, rfl, hwel, rfl, ?_⟩
    exact ⟨fun _ => rfl, nofun⟩
  | true =>
    have hl : frameTooLong s.cfg (0x02 :: hi :: lo :: d :: ds) = false := frameTooLong_takes _ hfits
    refine ⟨_, step_lastFrame hs hok hf hw (chipDeselect_write hg hout rfl hwel hl), rfl, rfl, rfl, rfl, nofun, ?_⟩
    refine fun _ => ⟨rfl, fun a => (Cells.read_writeList (d :: ds) s.chip.mem _ a hwf).trans ?_⟩
    rw [haddr, List.length_cons, ← Nat.add_assoc]
    simp only [Nat.lt_succ_iff]

/-- Settles O35: the page STO_READ puts in NBUF is the one STO_WRITE took from it, whatever NBUF held between. -/
theorem storageRoundTrip : Obligations.StorageRoundTrip := by
  intro s b b' other hok hb hready hfits hwf hother hin
  have hlow : (s.addr.extractLsb' 0 8).toNat < s.cfg.nvmCapacity / 256 := by
    rw [BitVec.extractLsb'_toNat]
    omega
  obtain ⟨t, hwrite, rfl, u, m, _, _, hrun, hu, -, -, -, hmem⟩ :=
    nvmWritePageRuns s b (.stoWrite b) _ hok hb hready hfits hwf hlow (.inr ⟨rfl, rfl, hin⟩)
  have hcfg : u.cfg = s.cfg := by rw [hu]
  have haddr : u.addr = s.addr := by rw [hu]
  have hbusy : u.busy = false := by rw [hu]
  have hchip : u.chip.mem = m := by rw [hu]
  obtain ⟨t', hread, rfl, u', n, _, hrun', hu', -, -, hn⟩ :=
    nvmReadPageRuns { u with nbuf := other, chip := { u.chip with busy := false } } b' (.stoRead b') _
      (by exact hcfg ▸ hok) hbusy (fun _ => rfl) hother (by rw [hcfg, haddr]; exact hlow)
      (.inr ⟨rfl, rfl, by rw [hcfg, haddr]; exact hin⟩)
  have hnbuf : u'.nbuf = n := by rw [hu']
  refine ⟨_, u, _, u', hwrite, hrun, hread, hrun', by rw [hu'], fun k hk => ?_⟩
  rw [hnbuf, hn, if_pos hk, haddr, hchip, hmem, if_pos (by omega), Nat.add_sub_cancel_left]

/-! ### What the NVM controller never changes -/

/-- What R175 names is in `t` as in `s`. -/
def NvcKeeps (s t : State) : Prop :=
  t.pins = s.pins ∧ t.pm = s.pm ∧ t.gie = s.gie ∧ t.wdata = s.wdata ∧ t.addr = s.addr ∧ t.fbuf = s.fbuf

theorem startNvc_keeps (cap : Capture) (fs : List (List Byte)) (c : Bool) (s : State) :
    NvcKeeps s (startNvc cap fs (faultIf c .nvmRange s)) := by
  rw [faultIf_eq]
  exact ⟨rfl, rfl, rfl, rfl, rfl, rfl⟩

/-- The wrappers (R169, R170): the page command in range, the no-op outside. -/
theorem startStorage_keeps {c : Bool} (h : NvcKeeps s t) : NvcKeeps s (if c then t else startNoop s) := by
  cases c with
  | true => exact h
  | false => exact ⟨rfl, rfl, rfl, rfl, rfl, rfl⟩

/-- A CMD write keeps what the command it starts keeps: a violation changes ERR, ERRCODE and FAULTS only (R243). -/
theorem issue_keeps {v : Byte} {start : State → State} (hstart : ∀ u, NvcKeeps u (start u)) :
    ∃ t, issue v noCheck start s = .next t ∧ NvcKeeps s t := by
  obtain ⟨t, ht⟩ := issue_next v noCheck start s
  refine ⟨t, ht, ?_⟩
  obtain ⟨-, rfl⟩ | ⟨-, _, hbad, -⟩ | ⟨-, -, rfl⟩ := issue_cases ht
  · exact ⟨rfl, rfl, rfl, rfl, rfl, rfl⟩
  · cases hbad
  · exact hstart _

theorem startWrPage_keeps (s : State) : NvcKeeps s (startWrPage s) := startNvc_keeps _ _ _ s

theorem startRdPage_keeps (s : State) : NvcKeeps s (startRdPage s) := startNvc_keeps _ _ _ s

/-- Settles O55: R175 is read off what a phase may change, and off the accepting step of each command. -/
theorem nvcKeepsOthers : Obligations.NvcKeepsOthers := by
  refine ⟨fun s t hok hu hstep => ?_, fun s b i hi => ?_⟩
  · rw [step_seq s hok] at hstep
    cases hs : s.seq with
    | nvc cap ph =>
      obtain ⟨_, _, _, _, _, _, _, _, _, _, _, _, rfl⟩ := nvcStep_frame (seqStep_nvc hs ▸ hstep)
      exact ⟨rfl, rfl, rfl, rfl, rfl, rfl⟩
    | idle | bte | frs => simp [hs, unitOf] at hu
  · simp only [List.mem_cons, List.not_mem_nil, or_false] at hi
    obtain rfl | rfl | rfl | rfl | rfl | rfl | rfl := hi
    · exact issue_keeps fun u => startNvc_keeps .discard [wrenFrame] false u
    · exact issue_keeps fun u => startNvc_keeps .discard [wrenFrame, wrByteFrame u] _ u
    · exact issue_keeps fun u => startNvc_keeps .rdata [rdByteFrame u] _ u
    · exact issue_keeps startWrPage_keeps
    · exact issue_keeps startRdPage_keeps
    · exact issue_keeps fun u => startStorage_keeps (startWrPage_keeps u)
    · exact issue_keeps fun u => startStorage_keeps (startRdPage_keeps u)

end Sys2Proof.Machine
end

section
/-! SUPPORT. The host's writes of GIE and its reads of program memory, as steps (43_flash_sequencer.md R215, R216). -/

namespace Sys2Proof.Machine

variable {s : State}

/-- The phases to come between the F2 step and the F9 step (R216; log 5). -/
theorem interruptsMasked_iff {a : Activity} : interruptsMasked a = true ↔
    a = .frs .f3 ∨ a = .frs .f4 ∨ a = .frs .f5 ∨ a = .frs .f6 ∨ a = .frs .f7 ∨ a = .frs .f8 ∨ a = .frs .f9 := by
  cases a with
  | frs ph => cases ph <;> simp [interruptsMasked]
  | idle | bte | nvc => simp [interruptsMasked]

theorem hostSetGie_eq (v : Bool) (s : State) : hostSetGie v s = { s with
    gie := v
    faults := if s.gie ≠ v ∧ interruptsMasked s.seq = true then withFault .gieWrite s.faults else s.faults } := by
  simp only [hostSetGie, faultIf_eq, Bool.and_eq_true, bne_iff_ne, and_comm]

/-- Settles O15: `sei` and `cli` are the two writes of GIE, and the masked phases are those R216 lists. -/
theorem gieChangeFaults : Obligations.GieChangeFaults := by
  intro s v hok
  have hstep : step (hostTurn (if v then .sei else .cli) s) = .next (hostSetGie v s) := by
    cases v <;> exact step_hostTurn _ s hok
  simp only [hstep, hostSetGie_eq, interruptsMasked_iff]

/-- A byte of the application region is hidden while APP_RD_EN = 0 (R215). -/
theorem hidden_iff {a : Nat} : s.appRdEn = false ∧ inResident s.cfg a = false ↔
    s.appRdEn = false ∧ ¬(s.cfg.resBase ≤ a ∧ a < s.cfg.resBase + s.cfg.resSize) := by
  rw [← inResident_iff, Bool.not_eq_true]

/-- Settles O16: a read and a fetch are one operation on PM, which beyond PM_SIZE faults, in the hidden region draws a
free value, and elsewhere returns the byte. -/
theorem programMemoryReads : Obligations.ProgramMemoryReads := by
  intro s a hok
  have hread := step_hostTurn (.pmRead a) s hok
  have hfetch := step_hostTurn (.pmFetch a) s hok
  refine ⟨fun hout => ?_, fun hin hopen => ?_, fun hin hen happ => ?_⟩
  · exact ⟨hread.trans (hostPm_outside .pmRead a s hout), hfetch.trans (hostPm_outside .pmFetch a s hout)⟩
  · have hshown : ¬(s.appRdEn = false ∧ inResident s.cfg a.toNat = false) := by
      rw [hidden_iff]
      rintro ⟨hen, happ⟩
      simp [hen, happ] at hopen
    exact ⟨hread.trans (hostPm_shown .pmRead a s hin hshown), hfetch.trans (hostPm_shown .pmFetch a s hin hshown)⟩
  · have hhidden := hidden_iff.2 ⟨hen, happ⟩
    exact ⟨_, _, hread.trans (hostPm_hidden .pmRead a s hin hhidden),
      hfetch.trans (hostPm_hidden .pmFetch a s hin hhidden)⟩

end Sys2Proof.Machine
end

section
/-! SUPPORT. FLASH_PROG's checks, its phases and the FLASH agent, each as one step (43_flash_sequencer.md R201 to R211,
R214), and the page a step may change. -/

namespace Sys2Proof.Machine

variable {s : State} {ph : FrsPhase}

/-- Settles O50: a step changes PM only while FLASH_PROG runs, and then only in the page of PADDR. -/
theorem onlyTargetPageChanges : Obligations.OnlyTargetPageChanges := by
  intro s t h hstep
  obtain e | ⟨hfrs, hkeep⟩ := h.step_pm hstep
  · exact ⟨fun _ => e, fun a _ => by rw [e]⟩
  · exact ⟨fun hne => absurd hfrs hne, hkeep⟩

/-! ### The checks -/

theorem encodeCmd_flashProg (b : Bool) : encodeCmd (.flashProg b) = if b then 0x1B else 0x0B := by cases b <;> rfl

/-- R201 tests whether a page of `n` bytes at `p` overlaps a region. By alignment the region is not empty: an aligned
`base` cannot lie strictly inside the page. -/
theorem overlaps_of_aligned {p n base size : Nat} (hn : 0 < n) (hp : p % n = 0) (hbase : base % n = 0)
    (hlow : base < p + n) (hhigh : p < base + size) : max p base < min (p + n) (base + size) := by
  have hsize : size ≠ 0 := by
    rintro rfl
    have hdvd : n ∣ base - p := Nat.dvd_sub (Nat.dvd_of_mod_eq_zero hbase) (Nat.dvd_of_mod_eq_zero hp)
    have := Nat.le_of_dvd (by omega) hdvd
    omega
  omega

theorem flashCheck_align (h : s.paddr.toNat % s.cfg.pmPageSize ≠ 0) : flashCheck s = some .flashAlign := if_pos h

theorem flashCheck_range (halign : s.paddr.toNat % s.cfg.pmPageSize = 0)
    (h : s.cfg.pmSize < s.paddr.toNat + s.cfg.pmPageSize) : flashCheck s = some .flashRange := by
  unfold flashCheck
  rw [if_neg (not_not.2 halign), if_pos h]

/-- A target that is not ok although aligned and in PM overlaps the resident region (R201). -/
theorem flashCheck_region (hok : s.cfg.ok = true) (hbad : ¬flashTargetOk s)
    (halign : s.paddr.toNat % s.cfg.pmPageSize = 0) (hrange : s.paddr.toNat + s.cfg.pmPageSize ≤ s.cfg.pmSize) :
    flashCheck s = some .flashRegion := by
  obtain ⟨-, -, -, ⟨hbase, -, -⟩, -⟩ := (Config.ok_iff _).1 hok
  obtain ⟨hsize, hpos⟩ := pageSize_even hok
  simp only [flashTargetOk, not_and, not_or, Nat.not_le] at hbad
  obtain ⟨hlow, hhigh⟩ := hbad halign hrange
  unfold flashCheck
  rw [if_neg (not_not.2 halign), if_neg (Nat.not_lt.2 hrange),
    if_pos (overlaps_of_aligned (by omega) halign hbase hlow hhigh)]

/-- The host step of a FLASH_PROG whose check fails (R201, R243). -/
theorem exec_flashProg_refused {b : Bool} {v : Violation} (hb : s.busy = false) (hc : flashCheck s = some v) :
    exec (.flashProg b) s = .next (violated v (violationCode v)
      { s with hist := s.hist ++ [.hostWrite 0x0000 (if b then 0x1B else 0x0B)] }) := by
  rw [exec_flashProg, issue_refused _ _ _ _ v hb hc, encodeCmd_flashProg]
  rfl

/-- Settles O37: BUSY = 0 lets the command's own checks decide, and the first that fails names the violation. -/
theorem flashChecksRefuse : Obligations.FlashChecksRefuse := by
  intro s b hok hb hbad s'
  split
  · exact exec_flashProg_refused hb (flashCheck_align ‹_›)
  · rename_i halign
    have halign := not_not.1 halign
    split
    · exact exec_flashProg_refused hb (flashCheck_range halign ‹_›)
    · exact exec_flashProg_refused hb (flashCheck_region hok hbad halign (Nat.not_lt.1 ‹_›))

/-! ### The phases -/

theorem step_frs (hok : s.cfg.ok = true) (hs : s.seq = .frs ph) : step (agentTurn .seq s) = .next (frsStep ph s) :=
  (step_seq s hok).trans (seqStep_frs hs)

theorem frsStep_waits (hp : ph = .f4 ∨ ph = .f7) (hb : s.flashBusy = true) : frsStep ph s = s := by
  obtain rfl | rfl := hp <;> exact if_pos hb

theorem frsStep_f4_done (hb : s.flashBusy = false) : frsStep .f4 s = { s with seq := .frs .f5 } :=
  if_neg (by simp [hb])

theorem frsStep_f7_done (hb : s.flashBusy = false) : frsStep .f7 s = { s with seq := .frs .f8 } :=
  if_neg (by simp [hb])

/-- Settles O38: FLASH_BUSY alone decides whether F4 and F7 go on. -/
theorem flashWaitPhases : Obligations.FlashWaitPhases := by
  intro s hok
  refine ⟨fun hs => step_frs hok hs, fun hs hb => ?_, fun hs hb => ?_, fun hs hb => ?_, fun hs hb => ?_⟩
  · rw [step_frs hok hs, frsStep_waits (.inl rfl) hb]
  · rw [step_frs hok hs, frsStep_f4_done hb]
  · rw [step_frs hok hs, frsStep_waits (.inr rfl) hb]
  · rw [step_frs hok hs, frsStep_f7_done hb]

theorem wbufWords_eq (s : State) : wbufWords s = (List.range (s.cfg.pmPageSize / 2)).map fun i => s.wbuf.read i := by
  simp only [wbufWords, pageWords, Cells.readList, Nat.zero_add]

/-- Settles O39: each phase is one update, and the page F3 gives up is PADDR's. -/
theorem flashActionPhases : Obligations.FlashActionPhases := by
  intro s hok
  refine ⟨fun hs => step_frs hok hs, fun hs hpm => ?_, fun hs => ?_, fun hs => step_frs hok hs,
    fun hs => step_frs hok hs⟩
  · exact ⟨forgetPage (flashPage s) s.draws s, step_frs hok hs, forgetPage_read _ _ s hpm⟩
  · rw [step_frs hok hs, ← wbufWords_eq]
    rfl

/-! ### The FLASH agent -/

theorem flashStep_erase {page : Nat} (hb : s.flashBusy = true) (hop : s.flashOp = some (.erase page)) :
    flashStep s = { s with
      pm := forgetPage page s.draws s, flashBusy := false, flashOp := none, draws := s.draws + 1
      hist := s.hist ++ [.flashDone (.erase page)] } := by
  simp only [flashStep, hb, hop, if_true, record, drew]

theorem flashStep_write {page : Nat} (hb : s.flashBusy = true) (hop : s.flashOp = some (.write page)) :
    flashStep s = { s with
      pm := s.pm.writeList (page * s.cfg.pmPageSize) (wordBytes (wbufWords s)), flashBusy := false, flashOp := none
      hist := s.hist ++ [.flashDone (.write page)] } := by
  simp only [flashStep, hb, hop, if_true, record]

/-- What a completed page write leaves in PM (R214). -/
theorem read_writePage (hok : s.cfg.ok = true) (hpm : Memory.wf s.pm = true) (p a : Nat) :
    (s.pm.writeList p (wordBytes (wbufWords s))).read a =
      if p ≤ a ∧ a < p + s.cfg.pmPageSize then (wordBytes (wbufWords s)).getD (a - p) 0 else s.pm.read a := by
  rw [Cells.read_writeList _ _ _ _ hpm, wbufWords_length hok]

/-- Settles O40: the pending operation decides which completion it is; a write places each word's two bytes. -/
theorem flashAgentCompletes : Obligations.FlashAgentCompletes := by
  intro s page hok hb hpm
  have hstep := step_flash s hok
  refine ⟨fun hop => ⟨_, hstep.trans (congrArg _ (flashStep_write hb hop)), fun i hi => ?_, fun a ha => ?_⟩,
    fun hop => ⟨_, hstep.trans (congrArg _ (flashStep_erase hb hop)), forgetPage_read _ _ s hpm⟩⟩
  · have hi : i < pageWords s.cfg := hi
    obtain ⟨hlo, hhi⟩ := wordBytes_getD (wbufWords s) i (by rwa [wbufWords, Cells.readList_length])
    have hword : (wbufWords s).getD i 0 = s.wbuf.read i := by
      rw [wbufWords, Cells.readList_getD _ _ _ _ hi, Nat.zero_add]
    rw [hword] at hlo hhi
    obtain ⟨hsize, -⟩ := pageSize_even hok
    rw [read_writePage hok hpm, read_writePage hok hpm, if_pos (by omega), if_pos (by omega), Nat.add_sub_cancel_left,
      Nat.add_assoc, Nat.add_sub_cancel_left]
    exact ⟨hlo, hhi⟩
  · rw [read_writePage hok hpm, if_neg (outside_page ha)]

end Sys2Proof.Machine
end

section
/-! SUPPORT. FLASH_PROG from start to end: the erase, the fill and the page write, whatever the waits
(43_flash_sequencer.md R202 to R211, R214). -/

namespace Sys2Proof.Machine

variable {s : State}

/-! ### What the run leaves in PM and WBUF -/

/-- A list written to canonical storage is read back. -/
theorem Cells.readList_writeList {w : Nat} {m : Cells w} (h : m.wf = true) (a : Nat) (vs : List (BitVec w)) :
    (m.writeList a vs).readList a vs.length = vs := by
  refine List.ext_getElem (Cells.readList_length _ _ _) fun i _ hi => ?_
  simp [Cells.readList, Cells.read_writeList _ _ _ _ h, hi]

/-- The words F5 puts in WBUF (R207). -/
def pageFill (s : State) : List Half := (List.range (pageWords s.cfg)).map (fillWord s)

theorem pageFill_length (s : State) : (pageFill s).length = pageWords s.cfg := by simp [pageFill]

theorem pageFill_getD {i : Nat} (hi : i < pageWords s.cfg) : (pageFill s).getD i 0 = fillWord s i := by
  simp [pageFill, hi]

/-- R207 packs FBUF into words and R214 unpacks them, so the bytes written are FBUF's in order. -/
theorem wordBytes_pageFill {k : Nat} (hk : k < 2 * pageWords s.cfg) :
    (wordBytes (pageFill s)).getD k 0 = s.fbuf.read k := by
  have hi : k / 2 < pageWords s.cfg := by omega
  obtain ⟨hlo, hhi⟩ := wordBytes_getD (pageFill s) (k / 2) (by rwa [pageFill_length])
  rw [pageFill_getD hi, fillWord] at hlo hhi
  rw [loByte_pair] at hlo
  rw [hiByte_pair] at hhi
  obtain heven | hodd := Nat.mod_two_eq_zero_or_one k
  · rwa [show 2 * (k / 2) = k by omega] at hlo
  · rwa [show 2 * (k / 2) + 1 = k by omega] at hhi

/-- PM after the erase: drawn at F3, and again when the erase completes (log 17). -/
def erasedPm (s : State) : Memory :=
  forgetPage (flashPage s) (s.draws + 1) { s with pm := forgetPage (flashPage s) s.draws s }

theorem erasedPm_wf (h : Memory.wf s.pm = true) : Memory.wf (erasedPm s) = true :=
  forgetPage_wf _ _ (forgetPage_wf _ _ h)

theorem erasedPm_read (h : Memory.wf s.pm = true) {a : Nat} (ha : a / s.cfg.pmPageSize ≠ flashPage s) :
    (erasedPm s).read a = s.pm.read a :=
  (forgetPage_read _ _ { s with pm := forgetPage (flashPage s) s.draws s } (forgetPage_wf _ _ h) a ha).trans
    (forgetPage_read _ _ s h a ha)

/-- PM after the page write. -/
def programmedPm (s : State) : Memory := (erasedPm s).writeList s.paddr.toNat (wordBytes (pageFill s))

/-- The page holds FBUF, and the erase touched no byte outside it. -/
theorem programmedPm_read (hok : s.cfg.ok = true) (hpm : Memory.wf s.pm = true) (htarget : flashTargetOk s) (a : Nat) :
    (programmedPm s).read a =
      if s.paddr.toNat ≤ a ∧ a < s.paddr.toNat + s.cfg.pmPageSize then s.fbuf.read (a - s.paddr.toNat)
      else s.pm.read a := by
  obtain ⟨hpage, -, -⟩ := flashCheck_ok (flashCheck_none htarget hok)
  obtain ⟨hsize, hpos⟩ := pageSize_even hok
  rw [programmedPm, Cells.read_writeList _ _ _ _ (erasedPm_wf hpm), wordBytes_length, pageFill_length, ← hsize]
  split
  · exact wordBytes_pageFill (by omega)
  · rename_i hout
    refine erasedPm_read hpm fun ha => hout ?_
    have hlow := Nat.div_mul_le_self a s.cfg.pmPageSize
    have hhigh := Nat.lt_div_mul_add (a := a) (b := s.cfg.pmPageSize) (by omega)
    rw [ha, hpage] at hlow hhigh
    exact ⟨hlow, hhigh⟩

/-! ### The run, part by part -/

theorem run_flash (hok : s.cfg.ok = true) : runTurns [.flash] s = .next (flashStep s) :=
  runTurns_cons [] (step_flash s hok)

/-- The erase under way: F1 to F3 performed. -/
def eraseStarted (s : State) : State := frsStep .f3 (frsStep .f2 (frsStep .f1 s))

/-- F1 to F4, with the erase completed after `j` extra waits. -/
theorem run_erase (j : Nat) (hok : s.cfg.ok = true) (hs : s.seq = .frs .f1) :
    runTurns (List.replicate (3 + j) .seq ++ [.flash]) s = .next { s with
      savedIe := s.gie
      gie := false
      appRdEn := false
      flashBusy := false
      flashOp := none
      pm := erasedPm s
      draws := s.draws + 2
      seq := .frs .f4
      hist := s.hist ++ [.flashErase (flashPage s), .flashDone (.erase (flashPage s))] } := by
  have hwait : runTurns (List.replicate (3 + j) .seq) s = .next (eraseStarted s) := by
    rw [Nat.add_comm 3 j]
    refine Eq.trans (run_frs (j + 2) hs hok) (Eq.trans (run_frs (j + 1) rfl hok) (Eq.trans (run_frs j rfl hok) ?_))
    exact run_wait (s := eraseStarted s) (.inl rfl) rfl hok rfl j
  refine (runTurns_append _ _ hwait).trans (Eq.trans (run_flash hok) ?_)
  rw [flashStep_erase rfl rfl]
  simp only [eraseStarted, frsStep, record, drew, List.append_assoc]
  rfl

/-- WBUF filled: F5 performed for every word. -/
def pageFilled (s : State) : State :=
  { s with wbuf := s.wbuf.writeList 0 (pageFill s), widx := pageWords s.cfg, seq := .frs .f6 }

theorem run_pageFill (hok : s.cfg.ok = true) (hs : s.seq = .frs .f5) (hw : s.widx = 0) :
    runTurns (List.replicate (pageWords s.cfg) .seq) s = .next (pageFilled s) := by
  obtain ⟨-, hpos⟩ := pageSize_even hok
  have hcount : pageWords s.cfg - 1 + 1 = pageWords s.cfg := Nat.sub_add_cancel hpos
  have hfill := run_fill (pageWords s.cfg - 1) s hs hok (by omega)
  simp only [hcount, hw, Nat.zero_add] at hfill
  exact hfill

/-- The FlashWrite event of F6 carries the words F5 put in WBUF (R208). -/
theorem wbufWords_pageFilled (hwf : Cells.wf s.wbuf = true) : wbufWords (pageFilled s) = pageFill s := by
  have h := Cells.readList_writeList hwf 0 (pageFill s)
  rwa [pageFill_length] at h

/-- F4 to F7 after the erase, with the page write completed after `k` extra waits. -/
theorem run_pageWrite (k : Nat) (hok : s.cfg.ok = true) (hs : s.seq = .frs .f4) (hb : s.flashBusy = false)
    (hw : s.widx = 0) (hwf : Cells.wf s.wbuf = true) :
    runTurns (List.replicate (1 + s.cfg.pmPageSize / 2 + 1 + k) .seq ++ [.flash]) s = .next { s with
      flashBusy := false
      flashOp := none
      pm := s.pm.writeList (flashPage s * s.cfg.pmPageSize) (wordBytes (pageFill s))
      wbuf := s.wbuf.writeList 0 (pageFill s)
      widx := pageWords s.cfg
      seq := .frs .f7
      hist := s.hist ++ [.flashWrite (flashPage s) (pageFill s), .flashDone (.write (flashPage s))] } := by
  have hwait : runTurns (List.replicate (1 + s.cfg.pmPageSize / 2 + 1 + k) .seq) s =
      .next (frsStep .f6 (pageFilled s)) := by
    rw [show 1 + s.cfg.pmPageSize / 2 + 1 + k = pageWords s.cfg + (k + 1) + 1 by rw [pageWords]; omega]
    rw [run_frs _ hs hok, frsStep_f4_done hb]
    refine Eq.trans (runSeq_add _ (k + 1) (run_pageFill (s := { s with seq := .frs .f5 }) hok rfl hw)) ?_
    refine Eq.trans (run_frs k rfl hok) ?_
    exact run_wait (s := frsStep .f6 (pageFilled s)) (.inr rfl) rfl hok rfl k
  refine (runTurns_append _ _ hwait).trans (Eq.trans (run_flash hok) ?_)
  have hwords : wbufWords (frsStep .f6 (pageFilled s)) = pageFill s := wbufWords_pageFilled hwf
  rw [flashStep_write rfl rfl, hwords]
  simp only [frsStep, record, wbufWords_pageFilled hwf, List.append_assoc]
  rfl

/-- F7 to F9 after the page write. -/
theorem run_flashEnd (hok : s.cfg.ok = true) (hs : s.seq = .frs .f7) (hb : s.flashBusy = false) :
    runTurns (List.replicate 3 .seq) s = .next { s with
      appRdEn := true, gie := s.savedIe, busy := false, widx := 0, seq := .idle } := by
  rw [run_frs 2 hs hok, frsStep_f7_done hb]
  exact Eq.trans (run_frs 1 rfl hok) (Eq.trans (run_frs 0 rfl hok) rfl)

/-- F1 to F9 (R212). -/
theorem run_flashProg (j k : Nat) (hok : s.cfg.ok = true) (hs : s.seq = .frs .f1) (hw : s.widx = 0)
    (hwf : Cells.wf s.wbuf = true) (hpage : flashPage s * s.cfg.pmPageSize = s.paddr.toNat) :
    runTurns (flashTurns s.cfg j k) s = .next { s with
      busy := false
      seq := .idle
      savedIe := s.gie
      appRdEn := true
      flashBusy := false
      flashOp := none
      pm := programmedPm s
      wbuf := s.wbuf.writeList 0 (pageFill s)
      draws := s.draws + 2
      hist := s.hist ++ [.flashErase (flashPage s), .flashDone (.erase (flashPage s)),
        .flashWrite (flashPage s) (pageFill s), .flashDone (.write (flashPage s))] } := by
  rw [flashTurns, List.append_assoc _ _ [Turn.flash]]
  have hwritten := Eq.trans (runTurns_append _ _ (run_erase j hok hs)) (run_pageWrite k hok rfl rfl hw hwf)
  refine (runTurns_append _ _ hwritten).trans (Eq.trans (run_flashEnd hok rfl rfl) ?_)
  rw [programmedPm, ← hpage, ← hw, List.append_assoc]
  rfl

/-! ### The command -/

/-- The state after the accepting step of a FLASH_PROG whose CMD byte is `v` (R104). -/
def flashAccepted (v : Byte) (s : State) : State :=
  { s with cmd := v, busy := true, seq := .frs .f1, hist := s.hist ++ [.hostWrite 0x0000 v] }

theorem exec_flashProg_accepted (b : Bool) (hb : s.busy = false) (hc : flashCheck s = none) :
    exec (.flashProg b) s = .next (flashAccepted (if b then 0x1B else 0x0B) s) := by
  rw [exec_flashProg, issue_accepted _ _ _ _ hb hc, encodeCmd_flashProg]
  rfl

/-- Settles O36: the target passes the checks, so the command starts and runs from F1 to F9; the fill overwrites both
draws of the page. -/
theorem flashProgramRuns : Obligations.FlashProgramRuns := by
  intro s b j k hok hb hw hpm hwf htarget
  have hcheck := flashCheck_none htarget hok
  obtain ⟨hpage, -, -⟩ := flashCheck_ok hcheck
  have hrun := run_flashProg (s := flashAccepted (if b then 0x1B else 0x0B) s) j k hok rfl hw hwf hpage
  refine ⟨_, exec_flashProg_accepted b hb hcheck, rfl, _, _, hrun, programmedPm_read hok hpm htarget, fun i hi => ?_⟩
  have hi : i < pageWords s.cfg := hi
  refine (Cells.read_writeList _ _ _ _ hwf).trans ?_
  rw [pageFill_length, if_pos ⟨Nat.zero_le i, by rwa [Nat.zero_add]⟩, Nat.sub_zero]
  exact pageFill_getD hi

end Sys2Proof.Machine
end

section
/-! SUPPORT. The violation record: what raises OVERLAP while a command runs, and that the first code stays
(60_exceptions.md R244, R245). -/

namespace Sys2Proof.Machine

variable {s t : State} {c : BitVec 3}

/-! ### Host accesses while BUSY = 1 -/

/-- A guarded write is OVERLAP, whether or not it would start a command (R244). -/
theorem step_write_guarded {off : Off} (hok : s.cfg.ok = true) (hb : s.busy = true)
    (hg : isGuarded (winReg s.cfg off) = true) (v : Byte) :
    step (hostTurn (.wr off v) s) = .next (raise .overlap (record (.hostWrite off v) s)) := by
  cases hd : decode (.write off v) with
  | ok i =>
    have he : encode i = .write off v := encode_of_decode hd
    have hi : i ≠ .getNmi := by
      rintro rfl
      cases he
    obtain ⟨rfl, rfl⟩ := Access.write.inj ((encode_eq_write hi).symm.trans he)
    rw [← exec_of_busy hi hb]
    exact step_hostTurn_instr _ i s hok hd
  | error e => rw [step_hostTurn_wr off v s hok hd, hostWrite_overlap off v s hb hg]

/-- Every read of the window is a plain one: the one that is an instruction, GETNMI, too (R103, R129). -/
theorem step_read (hok : s.cfg.ok = true) (off : Off) :
    step (hostTurn (.rd off) s) = .next (hostRead off s) := by
  by_cases hoff : off = offStatus
  · rw [hoff]
    exact step_hostTurn_instr (.read offStatus) .getNmi s hok rfl
  · exact step_hostTurn_rd off s hok (decode_read_of_ne hoff)

/-- Settles O7: the guarded registers are those of R244's offsets, a write of any other register leaves it as it is, and
a read does not look at the guard. -/
theorem overlapRefused : Obligations.OverlapRefused := by
  intro s off v hok hb
  refine ⟨fun hg => ?_, fun hg => ?_, ?_⟩
  · exact step_write_guarded hok hb ((isGuarded_winReg s.cfg off).2 hg) v
  · have hfree : isGuarded (winReg s.cfg off) = false :=
      Bool.eq_false_iff.2 fun h => hg ((isGuarded_winReg s.cfg off).1 h)
    have hcmd : winReg s.cfg off ≠ .cmd := fun e => by simp [e, isGuarded] at hfree
    rw [step_write_reg hok rfl hcmd (.inr hfree), writeReg_unguarded hfree]
    rfl
  · obtain ⟨x, d, e⟩ := hostRead_cases off s
    exact ⟨x, d, (step_read hok off).trans (congrArg Host.Outcome.next e)⟩

/-! ### The error record along a step -/

/-- A violation is recorded, the first one with code `c` (R245). -/
structure HoldsError (c : BitVec 3) (s : State) : Prop where
  err : s.err = true
  code : s.errCode = c

/-- The first code wins. -/
theorem HoldsError.raise (h : HoldsError c s) (v : Violation) : HoldsError c (raise v s) where
  err := rfl
  code := (if_pos h.err).trans h.code

theorem HoldsError.faultIf (h : HoldsError c s) (b : Bool) (f : ModelFault) : HoldsError c (faultIf b f s) := by
  cases b <;> exact { h with }

/-! ### The host -/

/-- A CMD write holds the record if the command's start does. -/
theorem HoldsError.issue {v : Byte} {check : State → Option Violation} {start : State → State} (h : HoldsError c s)
    (ht : issue v check start s = .next t) (hstart : ∀ {u}, HoldsError c u → HoldsError c (start u)) :
    HoldsError c t := by
  have hrec : HoldsError c (record (.hostWrite offCmd v) s) := { h with }
  obtain ⟨-, rfl⟩ | ⟨-, bad, -, rfl⟩ | ⟨-, -, rfl⟩ := issue_cases ht
  · exact hrec.raise .overlap
  · exact hrec.raise bad
  · exact hstart { hrec with }

theorem HoldsError.startNvc (h : HoldsError c s) (cap : Capture) (fs : List (List Byte)) (b : Bool) :
    HoldsError c (startNvc cap fs (Machine.faultIf b .nvmRange s)) := { h.faultIf b .nvmRange with }

/-- The wrappers (R169, R170): the page command in range, the no-op outside. -/
theorem HoldsError.startStorage {b : Bool} (h : HoldsError c s) (ht : HoldsError c t) :
    HoldsError c (if b then t else startNoop s) := by
  cases b with
  | true => exact ht
  | false => exact { h with }

theorem HoldsError.exec {i : Instr} (h : HoldsError c s) (ht : exec i s = .next t) : HoldsError c t := by
  cases i with
  | busWr sp => exact h.issue ((exec_busWr sp s).symm.trans ht) fun hu => { hu with }
  | busRd sp => exact h.issue ((exec_busRd sp s).symm.trans ht) fun hu => { hu with }
  | nvmWren b => exact h.issue ((exec_nvmWren b s).symm.trans ht) fun hu => { hu with }
  | nvmWrByte b => exact h.issue ((exec_nvmWrByte b s).symm.trans ht) fun hu => hu.startNvc _ _ _
  | nvmRdByte b => exact h.issue ((exec_nvmRdByte b s).symm.trans ht) fun hu => hu.startNvc _ _ _
  | nvmWrPage b => exact h.issue ((exec_nvmWrPage b s).symm.trans ht) fun hu => hu.startNvc _ _ _
  | nvmRdPage b => exact h.issue ((exec_nvmRdPage b s).symm.trans ht) fun hu => hu.startNvc _ _ _
  | stoWrite b => exact h.issue ((exec_stoWrite b s).symm.trans ht) fun hu => hu.startStorage (hu.startNvc _ _ _)
  | stoRead b => exact h.issue ((exec_stoRead b s).symm.trans ht) fun hu => hu.startStorage (hu.startNvc _ _ _)
  | flashProg b => exact h.issue ((exec_flashProg b s).symm.trans ht) fun hu => { hu with }
  | getNmi =>
    obtain ⟨v, d, e⟩ := hostRead_cases offStatus s
    rw [exec_getNmi, e] at ht
    cases ht
    exact { h with }

theorem HoldsError.hostWrite (h : HoldsError c s) (off : Off) (v : Byte) : HoldsError c (hostWrite off v s) := by
  have hrec : HoldsError c (record (.hostWrite off v) s) := { h with }
  obtain ⟨-, -, e⟩ | ⟨-, -, e⟩ | ⟨-, -, e⟩ := hostWrite_cases off v s <;> rw [e]
  · exact hrec.raise .overlap
  · exact hrec.raise .illegalCmd
  · cases winReg s.cfg off <;> exact { hrec with }

theorem HoldsError.hostPm {ev : Word → Byte → Event} {a : Word} (h : HoldsError c s) (ht : hostPm ev a s = .next t) :
    HoldsError c t := by
  unfold Machine.hostPm at ht
  split at ht
  · cases ht
  split at ht <;> cases ht <;> exact { h with }

theorem HoldsError.hostTakeIrq (h : HoldsError c s) (src : IrqSource) : HoldsError c (hostTakeIrq src s) := by
  unfold Machine.hostTakeIrq
  split <;> exact { h with }

theorem HoldsError.hostMove (h : HoldsError c s) (ht : (hostMove s).outcome = .next t) : HoldsError c t := by
  have hrest (rest : List HostStmt) : HoldsError c { s with host := rest } := { h with }
  obtain e | ⟨rest, ⟨i, e⟩ | ⟨off, v, e⟩ | ⟨off, e⟩ | ⟨v, e⟩ | ⟨ev, a, -, e⟩ | e | ⟨src, e⟩⟩ := hostMove_cases s
  all_goals rw [e] at ht
  · cases ht
    exact h
  · exact (hrest rest).exec ht
  · cases ht
    exact (hrest rest).hostWrite off v
  · obtain ⟨v, d, er⟩ := hostRead_cases off { s with host := rest }
    rw [er] at ht
    cases ht
    exact { h with }
  · cases ht
    exact HoldsError.faultIf (s := { s with host := rest, gie := v }) { h with } _ .gieWrite
  · exact (hrest rest).hostPm ht
  · cases ht
    exact { h with }
  · cases ht
    exact (hrest rest).hostTakeIrq src

/-! ### The sequencer and the FLASH agent -/

/-- No unit has ERR or ERRCODE among the fields it writes. -/
theorem HoldsError.seqStep (h : HoldsError c s) (ht : seqStep s = .next t) : HoldsError c t := by
  cases hs : s.seq with
  | idle =>
    rw [Machine.seqStep, hs] at ht
    cases ht
    exact h
  | bte d sp ph =>
    rw [seqStep_bte hs] at ht
    cases ht
    obtain ⟨_, _, _, _, _, _, _, _, e⟩ := bteStep_frame d sp ph s
    exact e ▸ { h with }
  | nvc cap ph =>
    obtain ⟨_, _, _, _, _, _, _, _, _, _, _, _, rfl⟩ := nvcStep_frame (seqStep_nvc hs ▸ ht)
    exact { h with }
  | frs ph =>
    rw [seqStep_frs hs] at ht
    cases ht
    obtain ⟨_, _, _, _, _, _, _, _, _, _, _, _, e⟩ := frsStep_frame ph s
    exact e ▸ { h with }

theorem HoldsError.flashStep (h : HoldsError c s) : HoldsError c (flashStep s) := by
  unfold Machine.flashStep
  split
  · split <;> exact { h with }
  · exact h

/-- Every agent but RESET. -/
theorem HoldsError.agentMove {ag : Turn} (h : HoldsError c s) (hag : ag ≠ .reset)
    (ht : (agentMove ag s).outcome = .next t) : HoldsError c t := by
  cases ag with
  | host => exact h.hostMove ht
  | seq => exact h.seqStep ht
  | xbusNmi | irq | nvmChip =>
    cases ht
    exact { h with }
  | flash =>
    cases ht
    exact h.flashStep
  | reset => exact absurd rfl hag

/-- Settles O52: only `raise` and RESET write the two fields, and `raise` leaves a code that is there. -/
theorem errorIsSticky : Obligations.ErrorIsSticky := by
  intro s t hstep hag herr
  have ht := agentMove_of_step hstep
  obtain ⟨d, ts, e⟩ := takeTurn_snd s
  have hturn : HoldsError s.errCode (takeTurn s).2 := e ▸ ⟨herr, rfl⟩
  obtain ⟨herr', hcode⟩ := hturn.agentMove hag ht
  exact ⟨herr', hcode⟩

end Sys2Proof.Machine
end

section
/-! SUPPORT. What RESET leaves of a command in flight: the idle block, program memory and the NVM chip's bytes
(70_reset_and_hazards.md R271, R273, R274). -/

namespace Sys2Proof.Machine

variable {s : State}

/-- Settles O42: a part of O41, whose SEQ is idle, so no unit is active. -/
theorem resetLeavesBlockIdle : Obligations.ResetLeavesBlockIdle := by
  intro s hok
  obtain ⟨t, hstep, -, hbusy, herr, -, hseq, -, -, -, -, -, -, -, hgie, hpins, hcs, -⟩ := resetSetsControlState s hok
  exact ⟨t, hstep, hbusy, herr, by rw [hseq]; rfl, hpins, hcs, hgie⟩

/-! ### Program memory -/

/-- An interrupted FLASH_PROG loses its own page at most (R274). -/
theorem resetPm_read (hm : Memory.wf s.pm = true) {a : Nat} (ha : a / s.cfg.pmPageSize ≠ flashPage s) :
    (resetPm s).read a = s.pm.read a := by
  unfold resetPm
  split
  · exact forgetPage_read _ _ s hm a ha
  · rfl

theorem resetPm_of_not_inFlight (h : pageInFlight s.seq = false) : resetPm s = s.pm := by simp [resetPm, h]

/-- The phases to come in which the page is half rewritten (R274; log 5). -/
theorem pageInFlight_iff {a : Activity} :
    pageInFlight a = true ↔ a = .frs .f4 ∨ a = .frs .f5 ∨ a = .frs .f6 ∨ a = .frs .f7 ∨ a = .frs .f8 := by
  cases a with
  | idle | bte | nvc => simp [pageInFlight]
  | frs ph => cases ph <;> simp [pageInFlight]

/-- Settles O43: PM after the step is `resetPm s`, which forgets PADDR's page where the page is in flight. -/
theorem resetDuringFlash : Obligations.ResetDuringFlash := by
  intro s hok hwf
  refine ⟨resetStep s, step_reset s hok, fun a ha => resetPm_read hwf ha, fun h4 h5 h6 h7 h8 => ?_⟩
  refine resetPm_of_not_inFlight (Bool.eq_false_iff.2 fun hfly => ?_)
  obtain h | h | h | h | h := pageInFlight_iff.1 hfly
  exacts [h4 h, h5 h, h6 h, h7 h, h8 h]

/-! ### The NVM chip's bytes -/

/-- What a cut write frame is: the frame in progress, with a data byte exchanged (R273; log 25). -/
theorem cutWrite_eq_some {f : List Byte} (h : cutWrite s = some f) :
    (∃ cap, s.seq = .nvc cap .x ∨ s.seq = .nvc cap .ds) ∧ (∃ rest, s.frames = f :: rest) ∧
      isWriteFrame f = true ∧ 4 ≤ s.rx.length := by
  unfold cutWrite at h
  split at h
  case h_1 cap t rest hseq hframes =>
    obtain ⟨⟨hw, hrx⟩, ⟨⟩⟩ := Option.ite_none_right_eq_some.1 h
    exact ⟨⟨cap, .inl hseq⟩, ⟨rest, hframes⟩, hw, hrx⟩
  case h_2 cap t rest hseq hframes =>
    obtain ⟨⟨hw, hrx⟩, ⟨⟩⟩ := Option.ite_none_right_eq_some.1 h
    exact ⟨⟨cap, .inr hseq⟩, ⟨rest, hframes⟩, hw, hrx⟩
  case h_3 => cases h

/-- Without a cut write frame RESET leaves MEM as it was (R46, R273). -/
theorem resetMem_of_uncut (h : ∀ f, cutWrite s ≠ some f) : resetMem s = s.chip.mem := by
  simp [resetMem, Option.eq_none_iff_forall_ne_some.2 h]

/-- A cut write frame the chip takes costs the bytes it addressed at most (R273). -/
theorem resetMem_read_of_cut {f : List Byte} (hcut : cutWrite s = some f) (hg : s.chip.garbled = false)
    (hin : frameOutside s.cfg f = false) (hlen : frameTooLong s.cfg f = false) (hm : Memory.wf s.chip.mem = true)
    {a : Nat} (ha : a < frameAddr f ∨ frameAddr f + (frameData f).length ≤ a) :
    (resetMem s).read a = s.chip.mem.read a := by
  have hmem : resetMem s = s.chip.mem.writeList (frameAddr f) (freeBytes (s.draws + 5) (frameData f).length) := by
    simp [resetMem, hcut, hg, hin, hlen]
  rw [hmem, Cells.read_writeList _ _ _ _ hm, freeBytes_length, if_neg (by omega)]

theorem head?_of_isWriteFrame {f : List Byte} (h : isWriteFrame f = true) : f.head? = some 0x02 := by
  cases f with
  | nil => cases h
  | cons op l => simpa [isWriteFrame] using h

/-- Settles O44: MEM after the step is `resetMem s`; only a cut write frame changes it, at the frame's own bytes. -/
theorem resetDuringNvm : Obligations.ResetDuringNvm := by
  intro s hok hwf
  refine ⟨resetStep s, step_reset s hok, rfl, fun hnone => resetMem_of_uncut fun g hcut => ?_, fun f rest hf => ⟨?_, ?_⟩⟩
  · obtain ⟨⟨cap, hphase⟩, ⟨rest, hframes⟩, -, -⟩ := cutWrite_eq_some hcut
    obtain hempty | hother := hnone
    · simp [hempty] at hframes
    · exact hphase.elim (hother cap).1 (hother cap).2
  · refine fun hnodata => resetMem_of_uncut fun g hcut => ?_
    obtain ⟨-, ⟨rest', hframes⟩, hwrite, hrx⟩ := cutWrite_eq_some hcut
    obtain ⟨rfl, -⟩ := List.cons.inj (hf.symm.trans hframes)
    exact hnodata.elim (· (head?_of_isWriteFrame hwrite)) (Nat.not_lt.2 hrx)
  · rintro hi lo d rfl hg htakes hin a ha
    show (resetMem s).read a = s.chip.mem.read a
    have haddr := frameAddr_cons 0x02 hi lo d
    rw [← haddr] at hin ha
    cases hcut : cutWrite s with
    | none => rw [resetMem_of_uncut (by simp [hcut])]
    | some g =>
      obtain ⟨-, ⟨rest', hframes⟩, -, -⟩ := cutWrite_eq_some hcut
      obtain ⟨rfl, -⟩ := List.cons.inj (hf.symm.trans hframes)
      exact resetMem_read_of_cut hcut hg (frameOutside_of_le hin) (frameTooLong_takes _ htakes) hwf ha

end Sys2Proof.Machine
end
